-- ==== Sys2Proof/Word.lean ====
section
/-! DEFINITION. The words of the core: bytes of the BRR input, 4-bit nibbles, 16-bit samples and 32-bit registers
(spec/00_scope.md R3, R5). -/

namespace Sys2Proof

/-- One byte of the BRR input memory (R71). -/
abbrev Byte := BitVec 8

/-- One 4-bit nibble of a block's payload (R101, NIBBLE_W of R3). -/
abbrev Nibble := BitVec 4

/-- One 16-bit two's complement sample (SAMPLE_W of R3). -/
abbrev Sample := BitVec 16

/-- One 32-bit register word (REG_W of R3). -/
abbrev Word := BitVec 32

end Sys2Proof
end

