-- ==== Sys2Proof/Config.lean ====
section
/-! DEFINITION. The constants of spec/00_scope.md R3, the memory capacities (open parameters of R3, values in State) and
the free values: what the spec leaves unspecified, as constants with no body that no proof can see through. -/

namespace Sys2Proof

/-- The open parameters BRR_CAP and PCM_CAP (R3, D15): bytes of the BRR input memory, samples of the PCM output memory.
A claim holds for every value of them. -/
structure Capacity where
  brrCap : Nat
  pcmCap : Nat
deriving DecidableEq, Repr

/-- The range R3 gives the two parameters: 9 <= BRR_CAP <= 2^32 - 1 and PCM_CAP >= 16. -/
def Capacity.ok (c : Capacity) : Bool :=
  decide (9 ≤ c.brrCap) && decide (c.brrCap < 2 ^ 32) && decide (16 ≤ c.pcmCap)

namespace Config

/-- BLOCK_BYTES (R3). -/
def blockBytes : Nat := 9

/-- SAMPLES_PER_BLOCK (R3). -/
def samplesPerBlock : Nat := 16

/-- MAX_ROUNDS (R3, R213). -/
def maxRounds : Nat := 64

/-- DESIGN CHOICE (log 2): the capacities of the machine `State.reset` describes. Every statement is about states with
any capacities. Unsafe for a claim that uses these two numbers. -/
def capacity : Capacity := { brrCap := 4096, pcmCap := 65536 }

/-- FREE VALUE (log 3): what a byte of the BRR input memory that no host write has set holds (R332, I4: any value). -/
opaque freeBrr : Nat → Byte

/-- FREE VALUE (log 4): what byte `a` of the PCM output memory holds where it is unspecified (R77, R332, I2, I4: any
value). The first argument counts how often the memory has become unspecified. -/
opaque freePcm : Nat → Nat → Byte

/-- FREE VALUE (log 10): what a result register holds when the value to store does not fit its 32 bits. The arguments
are the draw counter and the register's index. -/
opaque freeWord : Nat → Nat → Word

/-- FREE VALUE (log 5): a 16-bit item of the hidden state after a CONVERT (R53, I5: any value). -/
opaque freeSample : Nat → Nat → Sample

/-- FREE VALUE (log 5): a count of the hidden state after a CONVERT (R53, I5: any value). -/
opaque freeCount : Nat → Nat → Nat

/-- FREE VALUE (log 5): a flag of the hidden state after a CONVERT (R53, I5: any value). -/
opaque freeFlag : Nat → Bool

end Config

end Sys2Proof
end

