-- ==== Sys2Proof/Syntax.lean ====
section
/-! DEFINITION. The instructions of the core, one constructor per row of spec/opcode_table.json: the four block
instructions (spec/30_encoding.md R101 to R109) and the four host commands (R111). -/

namespace Sys2Proof

/-- A block instruction carries its header's shift, loop flag and end flag (`last`: `end` is a Lean word) and the 16
nibbles of its payload in the order of R107. A command carries the bits 31:8 of its command word, which have no meaning
but are stored in CMD and read back (R33, R111). -/
inductive Instr where
  /-- BRR.F0: a block decoded without prediction (R170). -/
  | brrF0 (shift : BitVec 4) (loop last : Bool) (nibbles : List Nibble)
  /-- BRR.F1: a block predicted from one previous sample (R171). -/
  | brrF1 (shift : BitVec 4) (loop last : Bool) (nibbles : List Nibble)
  /-- BRR.F2: a block predicted from two previous samples (R172). -/
  | brrF2 (shift : BitVec 4) (loop last : Bool) (nibbles : List Nibble)
  /-- BRR.F3: a block predicted from two previous samples (R173). -/
  | brrF3 (shift : BitVec 4) (loop last : Bool) (nibbles : List Nibble)
  /-- VALIDATE (R262). -/
  | validate (ignored : BitVec 24)
  /-- CONVERT (R263). -/
  | convert (ignored : BitVec 24)
  /-- DECODE_BLOCK (R264). -/
  | decodeBlock (ignored : BitVec 24)
  /-- ENCODE_RATE (R265). -/
  | encodeRate (ignored : BitVec 24)
deriving DecidableEq, Repr

end Sys2Proof
end

