-- ==== Sys2Proof/Decode.lean ====
section
/-! DEFINITION. Decoding and encoding (spec/30_encoding.md). The core decodes two kinds of encoded words: the 9-byte BRR
block (R101 to R109) and the 32-bit command word written to CMD (R111, R112). Decoding is total and rejects by name. -/

namespace Sys2Proof

/-- An encoded instruction: the bytes of a block, the first at the lowest address, or a command word. -/
inductive Code where
  | block (bytes : List Byte)
  | command (w : Word)
deriving DecidableEq, Repr

/-- Why an encoded word is no instruction. Every header byte is legal (R109), so a block is rejected only for its length
(R110); a command word is rejected for its code (R112). -/
inductive DecodeError where
  | blockLength (bytes : Nat)
  | illegalCommand (code : Byte)
deriving DecidableEq, Repr

/-- A decoded block before its filter field is turned into an opcode (R102, R104). -/
structure Block where
  shift : BitVec 4
  filter : BitVec 2
  loop : Bool
  last : Bool
  nibbles : List Nibble
deriving DecidableEq, Repr

/-! ### The header byte (R102) -/

/-- shift = h[7:4]. -/
def headerShift (h : Byte) : BitVec 4 := h.extractLsb' 4 4

/-- filter = h[3:2]. -/
def headerFilter (h : Byte) : BitVec 2 := h.extractLsb' 2 2

/-- loop = h[1]. -/
def headerLoop (h : Byte) : Bool := h.getLsbD 1

/-- end = h[0]. -/
def headerEnd (h : Byte) : Bool := h.getLsbD 0

/-- The header byte with the four fields (R102, R115). -/
def headerByte (shift : BitVec 4) (filter : BitVec 2) (loop last : Bool) : Byte :=
  shift ++ filter ++ BitVec.ofBool loop ++ BitVec.ofBool last

/-! ### The payload (R107) -/

/-- The nibbles of a payload in sample order: the high nibble of each byte first (R107). -/
def payloadNibbles : List Byte → List Nibble
  | [] => []
  | p :: ps => p.extractLsb' 4 4 :: p.extractLsb' 0 4 :: payloadNibbles ps

/-- The payload bytes that hold these nibbles (R115); an odd nibble at the end has no byte. -/
def payloadBytes : List Nibble → List Byte
  | hi :: lo :: ns => (hi ++ lo) :: payloadBytes ns
  | [_] => []
  | [] => []

/-! ### Blocks (R101, R104, R109) -/

/-- The block with header `h` and these payload bytes. -/
def blockOf (h : Byte) (payload : List Byte) : Block :=
  { shift := headerShift h, filter := headerFilter h, loop := headerLoop h, last := headerEnd h,
    nibbles := payloadNibbles payload }

/-- The filter field is the block's opcode (R104). -/
def Block.toInstr (b : Block) : Instr :=
  if b.filter = 0#2 then .brrF0 b.shift b.loop b.last b.nibbles
  else if b.filter = 1#2 then .brrF1 b.shift b.loop b.last b.nibbles
  else if b.filter = 2#2 then .brrF2 b.shift b.loop b.last b.nibbles
  else .brrF3 b.shift b.loop b.last b.nibbles

/-- A block is exactly 9 bytes, header first (R101, R110). -/
def decodeBlock : List Byte → Except DecodeError Instr
  | [] => .error (.blockLength 0)
  | h :: payload =>
    if payload.length = Config.blockBytes - 1 then .ok (blockOf h payload).toInstr
    else .error (.blockLength (payload.length + 1))

/-! ### Command words (R111, R112) -/

/-- The command code CMD[7:0]. -/
def commandCode (w : Word) : Byte := w.extractLsb' 0 8

/-- The bits CMD[31:8], which have no meaning (R33). -/
def commandIgnored (w : Word) : BitVec 24 := w.extractLsb' 8 24

/-- The command word with this code and these ignored bits. -/
def commandWord (ignored : BitVec 24) (code : Byte) : Word := ignored ++ code

def decodeCommand (w : Word) : Except DecodeError Instr :=
  if commandCode w = 1#8 then .ok (.validate (commandIgnored w))
  else if commandCode w = 2#8 then .ok (.convert (commandIgnored w))
  else if commandCode w = 3#8 then .ok (.decodeBlock (commandIgnored w))
  else if commandCode w = 4#8 then .ok (.encodeRate (commandIgnored w))
  else .error (.illegalCommand (commandCode w))

/-! ### Decoding and encoding -/

def decode : Code → Except DecodeError Instr
  | .block bytes => decodeBlock bytes
  | .command w => decodeCommand w

/-- The bytes of a block instruction (R115). -/
def encodeBlock (shift : BitVec 4) (filter : BitVec 2) (loop last : Bool) (nibbles : List Nibble) : Code :=
  .block (headerByte shift filter loop last :: payloadBytes nibbles)

/-- The words of an instruction, from the encoding tables R101, R102, R109 and R111. -/
def encode : Instr → Code
  | .brrF0 shift loop last ns => encodeBlock shift 0#2 loop last ns
  | .brrF1 shift loop last ns => encodeBlock shift 1#2 loop last ns
  | .brrF2 shift loop last ns => encodeBlock shift 2#2 loop last ns
  | .brrF3 shift loop last ns => encodeBlock shift 3#2 loop last ns
  | .validate ignored => .command (commandWord ignored 1#8)
  | .convert ignored => .command (commandWord ignored 2#8)
  | .decodeBlock ignored => .command (commandWord ignored 3#8)
  | .encodeRate ignored => .command (commandWord ignored 4#8)

/-! ### Words numbered as spec/opcode_table.json numbers them -/

/-- Whether a table word of `nbits` bits is read as a command word. DESIGN CHOICE (log 11): the table gives a header
byte and a command code 8 bits each, so their words overlap; an 8-bit word that is one of the four command codes and
every word of 9 to 32 bits is a command word, any other word is the start of a block. -/
def isCommandTableWord (nbits w : Nat) : Bool :=
  (decide (nbits ≤ 8) && decide (1 ≤ w) && decide (w ≤ 4)) || (decide (8 < nbits) && decide (nbits ≤ 32))

/-- Byte `k` of a table word: bits 8k+7 to 8k. -/
def tableByte (w k : Nat) : Byte := BitVec.ofNat 8 (w >>> (8 * k))

/-- The nine bytes of a block whose table word is `w`; the bits above the table's are 0. -/
def tableBlockBytes (w : Nat) : List Byte :=
  [tableByte w 0, tableByte w 1, tableByte w 2, tableByte w 3, tableByte w 4, tableByte w 5, tableByte w 6,
    tableByte w 7, tableByte w 8]

/-- The encoded instruction a table word stands for. -/
def tableCode (nbits w : Nat) : Code :=
  if isCommandTableWord nbits w then .command (BitVec.ofNat 32 w) else .block (tableBlockBytes w)

/-- The instruction the decoder reads from a table word, `none` where it refuses. -/
def decodeTableWord (nbits w : Nat) : Option Instr :=
  match decode (tableCode nbits w) with
  | .ok i => some i
  | .error _ => none

end Sys2Proof
end

