-- ==== Sys2Proof/Machine/State.lean ====
section
/-! DEFINITION. The state of the core (spec/10_state.md, spec/20_memory.md) as plain data, the reasons a step can stop,
and the state after reset (R55, R330 to R333). -/

namespace Sys2Proof.Machine

/-- The five flags of STATUS (R34). -/
inductive Flag where
  | done
  | err
  | looped
  | firstHdr
  | loopDrop
deriving DecidableEq, Repr

/-- The host-visible registers (R30). A register whose upper bits read 0 or repeat a sign is stored as its defined
fields (log 14). -/
structure Regs where
  /-- CMD: the last word the host wrote to it (R33). -/
  cmd : Word
  /-- STATUS[4:0] (R34); bits 31:5 read 0. -/
  status : BitVec 5
  /-- ERROR[15:0], SUB above CODE (R35); bits 31:16 read 0. -/
  error : BitVec 16
  /-- ERRINFO (R36). -/
  errInfo : Word
  /-- IN_LEN (R37). -/
  inLen : Word
  /-- LOOP_OFS, two's complement (R38). -/
  loopOfs : Word
  /-- RATE (R39). -/
  rate : Word
  /-- BLK_OFS (R46). -/
  blkOfs : Word
  /-- BLK_CTRL.FIRST (R47); bits 31:1 read 0. -/
  blkFirst : Bool
  /-- HIST: PREV in bits 15:0, PREV2 in bits 31:16 (R48). -/
  hist : Word
  /-- BLOCK_COUNT (R42). -/
  blockCount : Word
  /-- SAMPLE_COUNT (R41). -/
  sampleCount : Word
  /-- BASE_LOOP_LEN (R43). -/
  baseLoopLen : Word
  /-- LOOP_START (R40). -/
  loopStart : Word
  /-- LOOP_LEN (R44). -/
  loopLen : Word
  /-- ROUNDS (R45). -/
  rounds : Word
  /-- OUT_BLK0 to OUT_BLK15, bits 15:0 of each (R49); bits 31:16 read as the sign extension. -/
  outBlk : Vector Sample 16
  /-- EXT80_0 to EXT80_9 as the one 80-bit value they hold (R51, R114). -/
  ext80 : BitVec 80
deriving DecidableEq, Repr

/-- The hidden state of a CONVERT (R52), the block cursor among it (R50). -/
structure Hidden where
  /-- hp, the newest sample of the internal prediction history. -/
  hp : Sample
  /-- hpp, the one before it. -/
  hpp : Sample
  /-- len, the current stream length in samples. -/
  len : Nat
  /-- n, the block count. -/
  n : Nat
  /-- b, the loop block index. -/
  b : Nat
  /-- first, the first possible loop-start sample index. -/
  first : Nat
  /-- base, the nominal loop length. -/
  base : Nat
  /-- r, the round number. -/
  r : Nat
  /-- q0 and q1, the probe pair. -/
  q0 : Sample
  q1 : Sample
  /-- firstPending, true until the first block of the CONVERT has been decoded. -/
  firstPending : Bool
  /-- cur, the block cursor, this core's program counter (R50). -/
  cur : Nat
deriving DecidableEq, Repr

/-- Who issues the block being decoded, which decides where its history comes from and where its samples go. The MODEL's
own (log 6); the spec implies it by the three uses of BlockDecode. -/
inductive Client where
  /-- DECODE_BLOCK (R264), and whatever stands between commands. -/
  | command
  /-- The initial pass or a growth pass of CONVERT (R182, R212). -/
  | stream
  /-- A probe of CONVERT (R207). -/
  | probe
deriving DecidableEq, Repr

/-- One access of the host, or a reset by the platform (R30, R70, R116, R330). -/
inductive HostOp where
  /-- Write a register; a write to CMD runs a command (R33). -/
  | regWrite (idx : BitVec 8) (v : Word)
  /-- Read a register. -/
  | regRead (idx : BitVec 8)
  /-- Write one byte of the BRR input memory. -/
  | brrWrite (a : Nat) (v : Byte)
  /-- Read one byte of the BRR input memory. -/
  | brrRead (a : Nat)
  /-- Read one sample of the PCM output memory. -/
  | pcmRead (i : Nat)
  /-- Read one byte of the PCM output memory as a platform may expose it (R79). -/
  | pcmReadByte (a : Nat)
  /-- Reset (R330). -/
  | reset
deriving DecidableEq, Repr

/-- What a read of the host returned. -/
inductive HostResp where
  | word (v : Word)
  | byte (v : Byte)
  | sample (v : Sample)
deriving DecidableEq, Repr

/-- The whole state. -/
structure State where
  /-- The host-visible registers. -/
  regs : Regs
  /-- The hidden state of a CONVERT. -/
  hid : Hidden
  /-- The BRR input memory: the bytes the host has written, addresses strictly rising (R70, log 3). -/
  brr : List Host.Cell
  /-- The PCM output memory as bytes, big-endian within a sample, addresses strictly rising (R70, R79, log 4). -/
  pcm : List Host.Cell
  /-- BRR_CAP and PCM_CAP (R3); no step changes them. -/
  cap : Capacity
  /-- Who issues block decodes (log 6). -/
  client : Client
  /-- How often the PCM memory has become unspecified: selects the free values (log 4). -/
  draw : Nat
  /-- The host's accesses still to come, the next one first (log 1). -/
  host : List HostOp
  /-- What the host's reads have returned, the oldest first (log 1). -/
  resp : List HostResp
deriving DecidableEq, Repr

/-- Why the machine stops with a fault. No command of the core reaches one. -/
inductive Fault where
  /-- A host access to an address of the BRR input memory at or above BRR_CAP, raised by carrying out that access. Safe:
  the spec gives no such address (R70). -/
  | brrAddress (a : Nat)
  /-- A host access to a byte of the PCM output memory at or above 2 x PCM_CAP, raised by carrying out that access. Safe:
  the spec gives no such address (R70). -/
  | pcmAddress (a : Nat)
  /-- A block appended past PCM_CAP, raised by a block instruction issued by a pass. Safe: R74 forbids it and CONVERT
  checks before every pass. -/
  | pcmOverflow (len : Nat)
deriving DecidableEq, Repr

/-- Why an instruction has no meaning. No arm of `exec` refuses, so nothing raises it. -/
inductive Refusal where
  /-- An instruction rejected by its mnemonic in `exec`. Safe. -/
  | notModelled (mnemonic : String)
deriving DecidableEq, Repr

/-- What one step or one instruction answers. -/
abbrev Result := Host.Outcome State Fault Refusal

/-- The errors the core raises (R301). SinkWriteError has a code and is never raised (R307), so it has no name here. -/
inductive ErrorKind where
  | structural
  | loopConvergence
  | allocation
  | loopOffset
  | illegalCommand
  | address
deriving DecidableEq, Repr

/-- The operands of `raise` (R303). -/
structure Raise where
  kind : ErrorKind
  sub : Byte
  info : Word
deriving DecidableEq, Repr

/-- The registers after reset: 0, but LOOP_OFS = 0xFFFFFFFF (R55). -/
def Regs.reset : Regs where
  cmd := 0#32
  status := 0#5
  error := 0#16
  errInfo := 0#32
  inLen := 0#32
  loopOfs := 0xFFFFFFFF#32
  rate := 0#32
  blkOfs := 0#32
  blkFirst := false
  hist := 0#32
  blockCount := 0#32
  sampleCount := 0#32
  baseLoopLen := 0#32
  loopStart := 0#32
  loopLen := 0#32
  rounds := 0#32
  outBlk := #v[0#16, 0#16, 0#16, 0#16, 0#16, 0#16, 0#16, 0#16, 0#16, 0#16, 0#16, 0#16, 0#16, 0#16, 0#16, 0#16]
  ext80 := 0#80

/-- DESIGN CHOICE (log 5): the hidden state after reset, which the spec leaves unspecified and no rule reads (R331).
Unsafe for a claim about these values. -/
def Hidden.reset : Hidden where
  hp := 0#16
  hpp := 0#16
  len := 0
  n := 0
  b := 0
  first := 0
  base := 0
  r := 0
  q0 := 0#16
  q1 := 0#16
  firstPending := false
  cur := 0

/-- The machine after reset: idle, no memory byte specified, no host access pending (R55, R331 to R333). -/
def State.reset : State where
  regs := Regs.reset
  hid := Hidden.reset
  brr := []
  pcm := []
  cap := Config.capacity
  client := .command
  draw := 0
  host := []
  resp := []

end Sys2Proof.Machine
end

