-- ==== Sys2Proof/Machine/Flags.lean ====
section
/-! DEFINITION. The STATUS flags (spec/10_state.md R34). No arithmetic step of the decoder produces a flag (R54), so
these are all the flags of the core. -/

namespace Sys2Proof.Machine

/-- The bit of STATUS a flag stands at (R34). -/
def Flag.bit : Flag → Nat
  | .done => 0
  | .err => 1
  | .looped => 2
  | .firstHdr => 3
  | .loopDrop => 4

/-- STATUS with this flag alone set. -/
def Flag.mask (f : Flag) : BitVec 5 := 1#5 <<< f.bit

/-- The value of a flag. -/
def Regs.flag (r : Regs) (f : Flag) : Bool := r.status.getLsbD f.bit

/-- Set a flag; setting a set flag changes nothing (R310). -/
def Regs.setFlag (f : Flag) (r : Regs) : Regs := { r with status := r.status ||| f.mask }

/-- Set a flag when a condition holds. -/
def Regs.setFlagIf (f : Flag) (c : Bool) (r : Regs) : Regs := if c then r.setFlag f else r

end Sys2Proof.Machine
end

