-- ==== Sys2Proof/Machine/Ops.lean ====
section
/-! DEFINITION. The operations over memory and registers every meaning is built from: the sparse memories, BrrRead,
PcmWrite and PcmRead (spec/20_memory.md R71, R74, R75), the register map as the host sees it (spec/10_state.md R30), the
start and end of a command (spec/44_host_commands.md R260, R261) and raising an error (spec/60_exceptions.md R303). -/

namespace Sys2Proof.Machine

/-! ### Sparse memory -/

/-- The byte listed at address `a`, `none` where nothing is listed. -/
def Memory.get? : List Host.Cell → Nat → Option Byte
  | [], _ => none
  | c :: m, a => if a = c.1 then some c.2 else Memory.get? m a

/-- Store byte `v` at address `a`, keeping the addresses strictly rising. -/
def Memory.set : List Host.Cell → Nat → Byte → List Host.Cell
  | [], a, v => [(a, v)]
  | c :: m, a, v =>
    if a < c.1 then (a, v) :: c :: m
    else if a = c.1 then (a, v) :: m
    else c :: Memory.set m a v

/-- Every listed address lies above `lo` and the addresses rise strictly. -/
def Memory.risingFrom : Nat → List Host.Cell → Bool
  | _, [] => true
  | lo, c :: m => decide (lo ≤ c.1) && Memory.risingFrom (c.1 + 1) m

/-- The canonical form: strictly rising addresses. An unlisted address has no byte of its own (it reads as a free value),
so no listed byte can repeat what an unlisted one reads as (logs 3 and 4). -/
def Memory.wf (m : List Host.Cell) : Bool := Memory.risingFrom 0 m

/-- Every listed address lies below `size`. -/
def Memory.below (size : Nat) (m : List Host.Cell) : Bool := m.all fun c => decide (c.1 < size)

/-! ### The BRR input memory (R71) -/

/-- BrrRead: the byte at address `a` (R71); a free value where the host has written nothing (log 3). -/
def State.brrRead (s : State) (a : Nat) : Byte := (Memory.get? s.brr a).getD (Config.freeBrr a)

/-- Block fetch: the nine bytes at `a` (R73). -/
def State.fetchBytes (s : State) (a : Nat) : List Byte :=
  [s.brrRead a, s.brrRead (a + 1), s.brrRead (a + 2), s.brrRead (a + 3), s.brrRead (a + 4), s.brrRead (a + 5),
    s.brrRead (a + 6), s.brrRead (a + 7), s.brrRead (a + 8)]

/-- The block at byte address `a`, decoded (R73, R102, R107). -/
def State.fetchBlock (s : State) (a : Nat) : Block := blockOf (s.brrRead a) (s.fetchBytes a).tail

/-- Load one byte of the BRR input memory: the host's own write (R70). -/
def State.brrWrite (a : Nat) (v : Byte) (s : State) : State := { s with brr := Memory.set s.brr a v }

/-- Load consecutive bytes of the BRR input memory (`mem brr[a] = …` of R116). -/
def State.brrLoad : Nat → List Byte → State → State
  | _, [], s => s
  | a, v :: vs, s => State.brrLoad (a + 1) vs (s.brrWrite a v)

/-! ### The PCM output memory (R74, R75, R79) -/

/-- Byte `a` of the PCM output memory; a free value where it is unspecified (R77, log 4). -/
def State.pcmByte (s : State) (a : Nat) : Byte := (Memory.get? s.pcm a).getD (Config.freePcm s.draw a)

/-- PcmRead: sample `i`, its most significant byte at 2i (R75, R79). -/
def State.pcmRead (s : State) (i : Nat) : Sample := s.pcmByte (2 * i) ++ s.pcmByte (2 * i + 1)

/-- PcmWrite on the listed bytes: sample `v` at index `i`, big-endian (R74, R79). -/
def storeSample (m : List Host.Cell) (i : Nat) (v : Sample) : List Host.Cell :=
  Memory.set (Memory.set m (2 * i) (v.extractLsb' 8 8)) (2 * i + 1) (v.extractLsb' 0 8)

/-- Consecutive PcmWrites from index `i` on, in increasing order (R76). -/
def storeSamples (m : List Host.Cell) : Nat → List Sample → List Host.Cell
  | _, [] => m
  | i, v :: vs => storeSamples (storeSample m i v) (i + 1) vs

/-! ### Registers -/

/-- Change the registers and nothing else. -/
def State.onRegs (f : Regs → Regs) (s : State) : State := { s with regs := f s.regs }

/-- The registers by name (R30). -/
inductive Reg where
  | cmd
  | status
  | error
  | errInfo
  | inLen
  | loopOfs
  | rate
  | blkOfs
  | blkCtrl
  | hist
  | blockCount
  | sampleCount
  | baseLoopLen
  | loopStart
  | loopLen
  | rounds
  /-- OUT_BLKi. -/
  | outBlk (i : Fin 16)
  /-- EXT80_i. -/
  | ext80 (i : Fin 10)
  /-- An index R30 gives no register (R31). -/
  | reserved
deriving DecidableEq, Repr

/-- The register map from index 0x00 on (R30). -/
def registerMap : List Reg :=
  [.cmd, .status, .error, .errInfo, .inLen, .loopOfs, .rate, .blkOfs] ++
  [.blkCtrl, .hist, .blockCount, .sampleCount, .baseLoopLen, .loopStart, .loopLen, .rounds] ++
  [.outBlk 0, .outBlk 1, .outBlk 2, .outBlk 3, .outBlk 4, .outBlk 5, .outBlk 6, .outBlk 7] ++
  [.outBlk 8, .outBlk 9, .outBlk 10, .outBlk 11, .outBlk 12, .outBlk 13, .outBlk 14, .outBlk 15] ++
  [.ext80 0, .ext80 1, .ext80 2, .ext80 3, .ext80 4, .ext80 5, .ext80 6, .ext80 7, .ext80 8, .ext80 9]

/-- The register at an index; every index past the map is reserved (R31). -/
def regAt (idx : BitVec 8) : Reg := registerMap.getD idx.toNat .reserved

/-- The word a register reads as (R30, R31, R34, R35, R47, R49, R51). -/
def Regs.get (r : Regs) : Reg → Word
  | .cmd => r.cmd
  | .status => r.status.setWidth 32
  | .error => r.error.setWidth 32
  | .errInfo => r.errInfo
  | .inLen => r.inLen
  | .loopOfs => r.loopOfs
  | .rate => r.rate
  | .blkOfs => r.blkOfs
  | .blkCtrl => (BitVec.ofBool r.blkFirst).setWidth 32
  | .hist => r.hist
  | .blockCount => r.blockCount
  | .sampleCount => r.sampleCount
  | .baseLoopLen => r.baseLoopLen
  | .loopStart => r.loopStart
  | .loopLen => r.loopLen
  | .rounds => r.rounds
  | .outBlk i => r.outBlk[i].signExtend 32
  | .ext80 i => (r.ext80.extractLsb' (72 - 8 * i.val) 8).setWidth 32
  | .reserved => 0#32

/-- What a host write of `v` stores: the configuration registers take it at once (R268), BLK_CTRL keeps bit 0 only
(R47); the read-only and the reserved registers ignore it (R31, R32). A write to CMD is a command and is not stored
here (R33, R260). -/
def Regs.set (k : Reg) (v : Word) (r : Regs) : Regs :=
  match k with
  | .inLen => { r with inLen := v }
  | .loopOfs => { r with loopOfs := v }
  | .rate => { r with rate := v }
  | .blkOfs => { r with blkOfs := v }
  | .blkCtrl => { r with blkFirst := v.getLsbD 0 }
  | .hist => { r with hist := v }
  | .cmd => r
  | .status => r
  | .error => r
  | .errInfo => r
  | .blockCount => r
  | .sampleCount => r
  | .baseLoopLen => r
  | .loopStart => r
  | .loopLen => r
  | .rounds => r
  | .outBlk _ => r
  | .ext80 _ => r
  | .reserved => r

/-- The word a host read of register `idx` returns (R30). -/
def Regs.read (r : Regs) (idx : BitVec 8) : Word := r.get (regAt idx)

/-- A host write of `v` to register `idx` other than CMD (R30). -/
def Regs.write (idx : BitVec 8) (v : Word) (r : Regs) : Regs := r.set (regAt idx) v

/-- PREV (R48). -/
def Regs.prev (r : Regs) : Sample := r.hist.extractLsb' 0 16

/-- PREV2 (R48). -/
def Regs.prev2 (r : Regs) : Sample := r.hist.extractLsb' 16 16

/-- HIST with these two samples (R264). -/
def histWord (prev prev2 : Sample) : Word := prev2 ++ prev

/-- OUT_BLKi, OUT_BLK(i+1), ... take the samples of a list as far as both reach (R49, R264). -/
def overwrite (v : Vector Sample 16) : Nat → List Sample → Vector Sample 16
  | _, [] => v
  | i, x :: xs => overwrite (v.setIfInBounds i x) (i + 1) xs

/-- What result register `idx` takes for the exact value `v`. A value that does not fit 32 bits is not stated: a free
value (log 10). -/
def resultWord (draw idx v : Nat) : Word := if v < 2 ^ 32 then BitVec.ofNat 32 v else Config.freeWord draw idx

/-! ### Command start and end (R260, R261) -/

/-- The start of every command: CMD holds the word written, STATUS, ERROR and ERRINFO are cleared (R260). -/
def Regs.beginCommand (w : Word) (r : Regs) : Regs :=
  { r with cmd := w, status := 0#5, error := 0#16, errInfo := 0#32 }

def State.beginCommand (w : Word) (s : State) : State := s.onRegs (Regs.beginCommand w)

/-- The end of every command that did not raise: STATUS.DONE (R261). -/
def State.finish (s : State) : State := s.onRegs (Regs.setFlag .done)

/-- `warn W`, when its condition holds (R310). -/
def State.warnIf (f : Flag) (c : Bool) (s : State) : State := s.onRegs (Regs.setFlagIf f c)

/-- The six CONVERT results cleared (R263). -/
def Regs.clearResults (r : Regs) : Regs :=
  { r with blockCount := 0#32, sampleCount := 0#32, baseLoopLen := 0#32, loopStart := 0#32, loopLen := 0#32,
           rounds := 0#32 }

/-! ### Taking an exception: raising an error (R301, R303)

An error is this hardware's only exception. It saves ERROR and ERRINFO, sets STATUS.ERR and STATUS.DONE and ends the
command. There is no handler inside the core, no vector, no mode and no return: the host is the handler and the next
write to CMD starts afresh (R312), so no operation restores anything. -/

/-- The code of an error (R301). -/
def ErrorKind.code : ErrorKind → Byte
  | .structural => 1#8
  | .loopConvergence => 2#8
  | .allocation => 3#8
  | .loopOffset => 4#8
  | .illegalCommand => 5#8
  | .address => 6#8

def Regs.raise (e : Raise) (r : Regs) : Regs :=
  (Regs.setFlag .done (Regs.setFlag .err { r with error := e.sub ++ e.kind.code, errInfo := e.info }))

/-- `raise E(sub, info)` (R303). -/
def State.raise (e : Raise) (s : State) : State := s.onRegs (Regs.raise e)

/-- How a command ends: with the error it raised, or without one. -/
def State.complete (e : Option Raise) (s : State) : State :=
  match e with
  | some e => s.raise e
  | none => s.finish

/-! ### Sequencing -/

/-- Go on from a next state; a fault or a refusal ends the run. -/
def andThen {α β : Type} (o : Host.Outcome α Fault Refusal) (f : α → Host.Outcome β Fault Refusal) :
    Host.Outcome β Fault Refusal :=
  match o with
  | .next a => f a
  | .fault e => .fault e
  | .refused e => .refused e

end Sys2Proof.Machine
end

