-- ==== Sys2Proof/Machine/Operands.lean ====
section
/-! DEFINITION. The operands and the datapath of a block (spec/41_brr_decoder.md R161 to R176): nibble value,
shift-scale, raw term, halved history, FILTER_TABLE, filter sum, clamp, wraparound correction and doubling. All on
unbounded integers (R6); a 19-bit datapath gives the same results (R181). Also where a block's history comes from. -/

namespace Sys2Proof.Machine

/-! ### The raw term (R164 to R167) -/

/-- t: the nibble scaled by 2^shift, or the quirk of the shifts 13 to 15 (R164, R165, R166). -/
def scaledTerm (shift : BitVec 4) (n : Nibble) : Int :=
  if shift.toNat ≤ 12 then n.toInt * 2 ^ shift.toNat else (n.toInt >>> (3 : Nat)) * 2 ^ 12

/-- raw = t >> 1 (R167). -/
def rawTerm (shift : BitVec 4) (n : Nibble) : Int := scaledTerm shift n >>> (1 : Nat)

/-- A history sample halved by arithmetic shift (R168). -/
def halved (v : Sample) : Int := v.toInt >>> (1 : Nat)

/-! ### FILTER_TABLE (R4, R169 to R173) -/

/-- One row: s = raw + aMul*a + ((aNeg*a) >> aShift) + bMul*b + ((bNeg*b) >> bShift). -/
structure FilterRow where
  aMul : Int
  aScaled : Int
  aShift : Nat
  bMul : Int
  bScaled : Int
  bShift : Nat
deriving DecidableEq, Repr

/-- UNVERIFIED (log 13): FILTER_TABLE, the one place of the filter coefficients (R4, R169). -/
def filterTable (f : BitVec 2) : FilterRow :=
  if f = 0#2 then { aMul := 0, aScaled := 0, aShift := 0, bMul := 0, bScaled := 0, bShift := 0 }
  else if f = 1#2 then { aMul := 1, aScaled := -1, aShift := 4, bMul := 0, bScaled := 0, bShift := 0 }
  else if f = 2#2 then { aMul := 2, aScaled := -3, aShift := 5, bMul := -1, bScaled := 1, bShift := 4 }
  else { aMul := 2, aScaled := -13, aShift := 6, bMul := -1, bScaled := 3, bShift := 4 }

/-- s: the raw term plus the prediction of a filter row from the halved history (R169 to R173). -/
def filterSum (row : FilterRow) (raw a b : Int) : Int :=
  raw + row.aMul * a + ((row.aScaled * a) >>> row.aShift) + row.bMul * b + ((row.bScaled * b) >>> row.bShift)

/-! ### The output stage (R174 to R176) -/

/-- c: the sum clamped to 16 bits (R174). -/
def clampSum (s : Int) : Int := if s < -32768 then -32768 else if 32767 < s then 32767 else s

/-- w: the wraparound correction, after the clamp (R175). -/
def wrapCorrect (c : Int) : Int := if 16383 < c then c - 32768 else if c < -16384 then c + 32768 else c

/-- y = 2w as a 16-bit sample (R176). -/
def outputSample (s : Int) : Sample := BitVec.ofInt 16 (2 * wrapCorrect (clampSum s))

/-- One sample: filter `f`, the block's shift, one nibble and the history (R164 to R176). -/
def decodeSample (f : BitVec 2) (shift : BitVec 4) (n : Nibble) (prev prev2 : Sample) : Sample :=
  outputSample (filterSum (filterTable f) (rawTerm shift n) (halved prev) (halved prev2))

/-! ### Where a block's history comes from -/

/-- The newest history sample of the block being decoded: PREV for DECODE_BLOCK (R264), the internal history for a pass
(R182, R212), the stream's last sample for a probe (R207). -/
def State.blockPrev (s : State) : Sample :=
  match s.client with
  | .command => s.regs.prev
  | .stream => s.hid.hp
  | .probe => s.pcmRead (s.hid.len - 1)

/-- The history sample before it. -/
def State.blockPrev2 (s : State) : Sample :=
  match s.client with
  | .command => s.regs.prev2
  | .stream => s.hid.hpp
  | .probe => s.pcmRead (s.hid.len - 2)

/-- Whether the first-block override applies: BLK_CTRL.FIRST for DECODE_BLOCK (R264), the first block of the CONVERT for
a pass, never for a probe (R162). -/
def State.blockFirst (s : State) : Bool :=
  match s.client with
  | .command => s.regs.blkFirst
  | .stream => s.hid.firstPending
  | .probe => false

end Sys2Proof.Machine
end

