-- ==== Sys2Proof/Machine/Brr.lean ====
section
/-! DEFINITION. The block instructions BRR.F0 to BRR.F3 (spec/41_brr_decoder.md): BlockDecode (R160, R177), what becomes
of its results, and issuing the block at a byte address. -/

namespace Sys2Proof.Machine

/-- The outputs of BlockDecode (R160). -/
structure BlockResult where
  out : List Sample
  prev : Sample
  prev2 : Sample
  warnFirst : Bool
deriving DecidableEq, Repr

/-- The samples of a list of nibbles, one after another, each reading the outputs of the two before it (R163, R176,
R335), and the history after them. -/
def decodeNibbles (f : BitVec 2) (shift : BitVec 4) : List Nibble → Sample → Sample → List Sample × Sample × Sample
  | [], prev, prev2 => ([], prev, prev2)
  | n :: ns, prev, prev2 =>
    let y := decodeSample f shift n prev prev2
    let rest := decodeNibbles f shift ns y prev
    (y :: rest.1, rest.2)

/-- BlockDecode (R160, R177) with the first-block override (R162). -/
def blockDecode (shift : BitVec 4) (f : BitVec 2) (ns : List Nibble) (prev prev2 : Sample) (first : Bool) :
    BlockResult :=
  let r := decodeNibbles (if first then 0#2 else f) (if first then 0#4 else shift) ns prev prev2
  { out := r.1, prev := r.2.1, prev2 := r.2.2, warnFirst := first && (shift != 0#4 || f != 0#2) }

/-- What becomes of a decoded block: DECODE_BLOCK takes it into OUT_BLK and HIST (R264); a pass appends it to the stream
and threads the internal history (R182, R212); a probe keeps the first two samples and nothing else (R207, R337). -/
def retireBlock (r : BlockResult) (s : State) : Result :=
  match s.client with
  | .command =>
    .next ((s.warnIf .firstHdr r.warnFirst).onRegs fun g =>
      { g with outBlk := overwrite g.outBlk 0 r.out, hist := histWord r.prev r.prev2 })
  | .stream =>
    if s.hid.len + r.out.length ≤ s.cap.pcmCap then
      .next { s.warnIf .firstHdr r.warnFirst with
        pcm := storeSamples s.pcm s.hid.len r.out
        hid := { s.hid with
          hp := r.prev, hpp := r.prev2, len := s.hid.len + r.out.length, firstPending := false } }
    else .fault (.pcmOverflow s.hid.len)
  | .probe =>
    .next { s with hid := { s.hid with q0 := r.out.getD 0 s.hid.q0, q1 := r.out.getD 1 s.hid.q1 } }

/-- Decode a block with filter `f` for whoever issues it. -/
def runBlock (shift : BitVec 4) (f : BitVec 2) (ns : List Nibble) (s : State) : Result :=
  retireBlock (blockDecode shift f ns s.blockPrev s.blockPrev2 s.blockFirst) s

/-- BRR.F0 (R170). The loop and end flags do not affect decoding (R105, R106, R161). -/
def execBrrF0 (shift : BitVec 4) (_loop _last : Bool) (nibbles : List Nibble) (s : State) : Result :=
  runBlock shift 0#2 nibbles s

/-- BRR.F1 (R171). -/
def execBrrF1 (shift : BitVec 4) (_loop _last : Bool) (nibbles : List Nibble) (s : State) : Result :=
  runBlock shift 1#2 nibbles s

/-- BRR.F2 (R172). -/
def execBrrF2 (shift : BitVec 4) (_loop _last : Bool) (nibbles : List Nibble) (s : State) : Result :=
  runBlock shift 2#2 nibbles s

/-- BRR.F3 (R173). -/
def execBrrF3 (shift : BitVec 4) (_loop _last : Bool) (nibbles : List Nibble) (s : State) : Result :=
  runBlock shift 3#2 nibbles s

/-- Fetch the block at byte address `a` and run the instruction its filter field selects (R73, R104, R109). -/
def issueBlock (a : Nat) (s : State) : Result :=
  let b := s.fetchBlock a
  if b.filter = 0#2 then execBrrF0 b.shift b.loop b.last b.nibbles s
  else if b.filter = 1#2 then execBrrF1 b.shift b.loop b.last b.nibbles s
  else if b.filter = 2#2 then execBrrF2 b.shift b.loop b.last b.nibbles s
  else execBrrF3 b.shift b.loop b.last b.nibbles s

end Sys2Proof.Machine
end

