-- ==== Sys2Proof/Machine/Validate.lean ====
section
/-! DEFINITION. The block validator and the command VALIDATE (spec/40_block_validator.md, spec/44_host_commands.md
R262). -/

namespace Sys2Proof.Machine

/-- IN_LEN as a number. -/
def State.inLen (s : State) : Nat := s.regs.inLen.toNat

/-- The end-flag scan from block `j` on, `k` blocks of the `n` still to come (R140, R143, R144). -/
def scanEndFlags (s : State) (n : Nat) : Nat → Nat → Except Raise Unit
  | 0, _ => .ok ()
  | k + 1, j =>
    if j + 1 < n ∧ headerEnd (s.brrRead (9 * j)) = true then .error ⟨.structural, 3#8, BitVec.ofNat 32 j⟩
    else if j + 1 = n ∧ headerEnd (s.brrRead (9 * j)) = false then .error ⟨.structural, 4#8, BitVec.ofNat 32 j⟩
    else scanEndFlags s n k (j + 1)

/-- Validate (R140): the block count, or the first failing check's error. -/
def validate (s : State) : Except Raise Nat :=
  if s.cap.brrCap < s.inLen then .error ⟨.address, 1#8, s.regs.inLen⟩
  else if s.inLen % 9 ≠ 0 then .error ⟨.structural, 1#8, s.regs.inLen⟩
  else if s.inLen = 0 then .error ⟨.structural, 2#8, 0#32⟩
  else
    match scanEndFlags s (s.inLen / 9) (s.inLen / 9) 0 with
    | .error e => .error e
    | .ok () => .ok (s.inLen / 9)

/-- The state VALIDATE's checks run in: the command begun and BLOCK_COUNT cleared (R260, R262). -/
def validateStart (ignored : BitVec 24) (s : State) : State :=
  (s.beginCommand (commandWord ignored 1#8)).onRegs fun g => { g with blockCount := 0#32 }

/-- VALIDATE (R262). -/
def execValidate (ignored : BitVec 24) (s : State) : Result :=
  let s1 := validateStart ignored s
  match validate s1 with
  | .error e => .next (s1.raise e)
  | .ok n => .next (s1.onRegs fun g => { g with blockCount := BitVec.ofNat 32 n }).finish

end Sys2Proof.Machine
end

