-- ==== Sys2Proof/Machine/Convert.lean ====
section
/-! DEFINITION. The command CONVERT (spec/44_host_commands.md R263): the loop request, the initial pass
(spec/41_brr_decoder.md R182) and the loop convergence engine (spec/42_loop_convergence.md). -/

namespace Sys2Proof.Machine

/-! ### The loop request (R200 to R204) -/

/-- The answer of ResolveLoopRequest. -/
inductive LoopRequest where
  /-- No loop was requested (R201). -/
  | absent
  /-- A loop was requested on a stream that does not loop (R202). -/
  | dropped
  /-- A loop from block `b` on (R204). -/
  | loop (b : Nat)
deriving DecidableEq, Repr

/-- ResolveLoopRequest (R200) for a stream of `n` blocks. -/
def resolveLoopRequest (n : Nat) (s : State) : Except Raise LoopRequest :=
  let o := s.regs.loopOfs.toInt
  if o = -1 then .ok .absent
  else if headerLoop (s.brrRead (9 * (n - 1))) = false then .ok .dropped
  else if o < 0 then .error ⟨.loopOffset, 1#8, s.regs.loopOfs⟩
  else if (s.inLen : Int) ≤ o then .error ⟨.loopOffset, 2#8, s.regs.loopOfs⟩
  else if o % 9 ≠ 0 then .error ⟨.loopOffset, 3#8, s.regs.loopOfs⟩
  else .ok (.loop (o.toNat / 9))

/-! ### Passes (R182, R212) -/

/-- Change the hidden state and nothing else. -/
def State.onHid (f : Hidden → Hidden) (s : State) : State := { s with hid := f s.hid }

/-- Decode `k` blocks from block `j` on, the cursor on each in turn, as a pass (R182, R184, R212). -/
def runPass : Nat → Nat → State → Result
  | 0, _, s => .next s
  | k + 1, j, s => andThen (issueBlock (9 * j) (s.onHid fun h => { h with cur := j })) (runPass k (j + 1))

/-- Where the initial pass starts: history 0, 0 (R183), an empty stream, its first block still to come. -/
def initialPassStart (n : Nat) (s : State) : State :=
  { s with
    client := .stream
    hid := { s.hid with hp := 0#16, hpp := 0#16, len := 0, n := n, firstPending := true } }

/-- InitialPass (R182). -/
def initialPass (n : Nat) (s : State) : Result := runPass n 0 (initialPassStart n s)

/-- Where a growth pass starts: the stream's last two samples as history (R212). -/
def growthPassStart (s : State) : State :=
  { s with
    client := .stream
    hid := { s.hid with hp := s.pcmRead (s.hid.len - 1), hpp := s.pcmRead (s.hid.len - 2) } }

/-- GrowthPass (R212): one more pass from the loop block on. -/
def growthPass (s : State) : Result := runPass (s.hid.n - s.hid.b) s.hid.b (growthPassStart s)

/-! ### Rounds (R205 to R214) -/

/-- Probe (R207): block b once more from the stream's history, keeping its first two samples. -/
def probe (s : State) : Result :=
  issueBlock (9 * s.hid.b) { s with client := .probe, hid := { s.hid with cur := s.hid.b } }

/-- Whether the pair at `p` equals the probe (R209). -/
def State.matchesProbe (s : State) (p : Nat) : Bool :=
  s.pcmRead p == s.hid.q0 && s.pcmRead (p + 1) == s.hid.q1

/-- The backward search (R208, R210): the candidates below position `pos`, one nominal loop length apart, the most
recent first, down to the first possible loop start; at most `fuel` of them. -/
def searchBack (s : State) : Nat → Nat → Option Nat
  | 0, _ => none
  | fuel + 1, pos =>
    if pos < s.hid.first + s.hid.base then none
    else if s.matchesProbe (pos - s.hid.base) then some (pos - s.hid.base)
    else searchBack s fuel (pos - s.hid.base)

/-- The match position the search accepts, `none` if no candidate matches. A base of at least 1 leaves at most len
candidates. -/
def State.findMatch (s : State) : Option Nat := searchBack s s.hid.len s.hid.len

/-- A match at `p` accepted: the loop descriptor and the other results (R214). -/
def acceptMatch (p : Nat) (s : State) : State :=
  s.onRegs fun g => { g.setFlag .looped with
    sampleCount := resultWord s.draw 0x0B s.hid.len
    loopStart := resultWord s.draw 0x0D p
    loopLen := resultWord s.draw 0x0E (s.hid.len - p)
    baseLoopLen := resultWord s.draw 0x0C s.hid.base
    rounds := BitVec.ofNat 32 s.hid.r }

/-- What the steps of a CONVERT answer: the state they leave and the error they raised, if any. -/
abbrev Conversion := Host.Outcome (State × Option Raise) Fault Refusal

/-- One round: probe, search, and `unmatched` where no candidate matches (R205, R210). -/
def oneRound (unmatched : State → Conversion) (s : State) : Conversion :=
  andThen (probe s) fun s1 =>
    match s1.findMatch with
    | some p => .next (acceptMatch p s1, none)
    | none => unmatched s1

/-- Growing by one pass, or AllocationError where it does not fit (R211). -/
def growThen (again : State → Conversion) (s : State) : Conversion :=
  if s.cap.pcmCap < s.hid.len + s.hid.base then
    .next (s, some ⟨.allocation, 2#8, BitVec.ofNat 32 (s.hid.len + s.hid.base)⟩)
  else andThen (growthPass s) fun s2 => again (s2.onHid fun h => { h with r := h.r + 1 })

/-- A round and, where it finds no match, up to `more` further rounds, each after one growth pass; the last unmatched
round raises LoopConvergenceError (R211, R213, R219). -/
def rounds : Nat → State → Conversion
  | 0, s => oneRound (fun s1 => .next (s1, some ⟨.loopConvergence, 0#8, BitVec.ofNat 32 s1.hid.r⟩)) s
  | more + 1, s => oneRound (growThen (rounds more)) s

/-- Where the rounds start: the loop block and its lengths (R204), round 1. -/
def convergeStart (b : Nat) (s : State) : State :=
  s.onHid fun h => { h with b := b, first := 16 * b, base := 16 * (h.n - b), r := 1 }

/-- Converge (R219): at most MAX_ROUNDS rounds. -/
def converge (b : Nat) (s : State) : Conversion := rounds (Config.maxRounds - 1) (convergeStart b s)

/-! ### The command -/

/-- The state CONVERT's checks run in: the command begun, the six results cleared (R260, R263), and the PCM memory
unspecified from here on until this CONVERT has written it (R77, R340, log 4). -/
def convertStart (ignored : BitVec 24) (s : State) : State :=
  { (s.beginCommand (commandWord ignored 2#8)).onRegs Regs.clearResults with pcm := [], draw := s.draw + 1 }

/-- SAMPLE_COUNT of a CONVERT that analyses no loop (R220). -/
def acceptWhole (n : Nat) (s : State) : State :=
  s.onRegs fun g => { g with sampleCount := resultWord s.draw 0x0B (16 * n) }

/-- BLOCK_COUNT, written last and only where no error was raised (R263). -/
def recordBlockCount (n : Nat) (c : State × Option Raise) : State × Option Raise :=
  match c.2 with
  | none => (c.1.onRegs fun g => { g with blockCount := BitVec.ofNat 32 n }, none)
  | some e => (c.1, some e)

/-- Everything after the loop request: the initial allocation, the initial pass and the loop (R263). -/
def convertStream (n : Nat) (req : LoopRequest) (s : State) : Conversion :=
  if s.cap.pcmCap < 16 * n then .next (s, some ⟨.allocation, 1#8, BitVec.ofNat 32 (16 * n)⟩)
  else
    andThen (initialPass n s) fun s1 =>
      andThen
        (match req with
          | .absent => .next (acceptWhole n s1, none)
          | .dropped => .next (acceptWhole n s1, none)
          | .loop b => converge b s1)
        fun c => .next (recordBlockCount n c)

/-- The steps of CONVERT from its cleared state on (R263). -/
def convertSteps (s : State) : Conversion :=
  match validate s with
  | .error e => .next (s, some e)
  | .ok n =>
    match resolveLoopRequest n s with
    | .error e => .next (s, some e)
    | .ok req => convertStream n req (s.warnIf .loopDrop (req == .dropped))

/-- The hidden state once a CONVERT has ended: any value (R53, I5, log 5). -/
def Hidden.free (draw : Nat) : Hidden where
  hp := Config.freeSample draw 0
  hpp := Config.freeSample draw 1
  len := Config.freeCount draw 0
  n := Config.freeCount draw 1
  b := Config.freeCount draw 2
  first := Config.freeCount draw 3
  base := Config.freeCount draw 4
  r := Config.freeCount draw 5
  q0 := Config.freeSample draw 2
  q1 := Config.freeSample draw 3
  firstPending := Config.freeFlag draw
  cur := Config.freeCount draw 6

/-- The end of a CONVERT: DONE, or the error raised, in which case the whole PCM memory is unspecified (R77, R261,
R304). -/
def convertEnd (c : State × Option Raise) : State :=
  State.complete c.2 { c.1 with
    pcm := if c.2.isSome then [] else c.1.pcm
    hid := Hidden.free c.1.draw
    client := .command }

/-- CONVERT (R263). -/
def execConvert (ignored : BitVec 24) (s : State) : Result :=
  andThen (convertSteps (convertStart ignored s)) fun c => .next (convertEnd c)

end Sys2Proof.Machine
end

