-- ==== Sys2Proof/Machine/DecodeBlock.lean ====
section
/-! DEFINITION. The command DECODE_BLOCK (spec/44_host_commands.md R264): one block, with HIST as its history. -/

namespace Sys2Proof.Machine

/-- The state DECODE_BLOCK's checks and its block run in: the command begun (R260), the block issued by DECODE_BLOCK. -/
def decodeBlockStart (ignored : BitVec 24) (s : State) : State :=
  { s.beginCommand (commandWord ignored 3#8) with client := .command }

/-- DECODE_BLOCK (R264). The sum BLK_OFS + 9 is unbounded. -/
def execDecodeBlock (ignored : BitVec 24) (s : State) : Result :=
  let s1 := decodeBlockStart ignored s
  if s.cap.brrCap < s.regs.inLen.toNat then .next (s1.raise ⟨.address, 1#8, s.regs.inLen⟩)
  else if s.regs.inLen.toNat < s.regs.blkOfs.toNat + 9 then .next (s1.raise ⟨.address, 2#8, s.regs.blkOfs⟩)
  else andThen (issueBlock s.regs.blkOfs.toNat s1) fun s2 => .next s2.finish

end Sys2Proof.Machine
end

