-- ==== Sys2Proof/Machine/Rate.lean ====
section
/-! DEFINITION. The 80-bit extended float encoder and the command ENCODE_RATE (spec/43_ext80_encoder.md,
spec/44_host_commands.md R265). -/

namespace Sys2Proof.Machine

/-- The normalising loop (R240, R242): shift left until the top bit is set, counting; at most `fuel` shifts. -/
def normalize : Nat → BitVec 64 → Nat → BitVec 64 × Nat
  | 0, m, sh => (m, sh)
  | fuel + 1, m, sh => if m.msb then (m, sh) else normalize fuel (m <<< 1) (sh + 1)

/-- sign ++ exponent ++ mantissa (R113, R245). -/
def packExt80 (e : BitVec 15) (m : BitVec 64) : BitVec 80 := 0#1 ++ e ++ m

/-- EncodeRate (R240): the 80 bits for a rate; 0 gives all zeros (R241). A non-zero rate needs at most 63 shifts. -/
def encodeRate (rate : Word) : BitVec 80 :=
  if rate = 0#32 then 0#80
  else
    let r := normalize 64 (rate.setWidth 64) 0
    packExt80 (BitVec.ofNat 15 (16383 + 63 - r.2)) r.1

/-- ENCODE_RATE (R265). -/
def execEncodeRate (ignored : BitVec 24) (s : State) : Result :=
  let s1 := s.beginCommand (commandWord ignored 4#8)
  .next (s1.onRegs fun g => { g with ext80 := encodeRate g.rate }).finish

end Sys2Proof.Machine
end

