-- ==== Sys2Proof/Machine/Dispatch.lean ====
section
/-! DEFINITION. The meaning of every instruction: one arm per constructor of `Instr`. -/

namespace Sys2Proof.Machine

def exec (i : Instr) (s : State) : Host.Outcome State Fault Refusal :=
  match i with
  -- the block instructions
  | .brrF0 shift loop last nibbles => Sys2Proof.Machine.execBrrF0 shift loop last nibbles s
  | .brrF1 shift loop last nibbles => Sys2Proof.Machine.execBrrF1 shift loop last nibbles s
  | .brrF2 shift loop last nibbles => Sys2Proof.Machine.execBrrF2 shift loop last nibbles s
  | .brrF3 shift loop last nibbles => Sys2Proof.Machine.execBrrF3 shift loop last nibbles s
  -- the host commands
  | .validate ignored => Sys2Proof.Machine.execValidate ignored s
  | .convert ignored => Sys2Proof.Machine.execConvert ignored s
  | .decodeBlock ignored => Sys2Proof.Machine.execDecodeBlock ignored s
  | .encodeRate ignored => Sys2Proof.Machine.execEncodeRate ignored s

end Sys2Proof.Machine
end

