-- ==== Sys2Proof/Machine/HostPort.lean ====
section
/-! DEFINITION. The host's side of the core: issuing a command by a write to CMD (spec/44_host_commands.md R260), the
other accesses (spec/20_memory.md R70, R82), reset (spec/70_reset_and_hazards.md R330 to R332), the host programs of
spec/30_encoding.md R116, and placing an instruction where the next step runs it. -/

namespace Sys2Proof.Machine

/-- A write to CMD whose code is no command: IllegalCommand (R112, R260, R266). -/
def illegalCommand (w : Word) (s : State) : State :=
  (s.beginCommand w).raise ⟨.illegalCommand, 0#8, (commandCode w).setWidth 32⟩

/-- A write of `w` to CMD: decode the command word and run it (R33, R260). -/
def runCommand (w : Word) (s : State) : Result :=
  match decode (.command w) with
  | .ok i => exec i s
  | .error _ => .next (illegalCommand w s)

/-- What a host read returns goes to the end of the list of responses. -/
def State.respond (r : HostResp) (s : State) : State := { s with resp := s.resp ++ [r] }

/-- Reset (R330): every register takes its reset value; the memories keep what they hold (R332); the hidden state is
unspecified and never read (R331, log 5). The host's accesses still to come and the parameters are not the core's. -/
def resetCore (s : State) : State :=
  { s with regs := Regs.reset, hid := Hidden.reset, client := .command }

/-- One access of the host. An address that does not exist faults (log 7). -/
def hostAccess (op : HostOp) (s : State) : Result :=
  match op with
  | .regWrite idx v => if idx = 0#8 then runCommand v s else .next (s.onRegs (Regs.write idx v))
  | .regRead idx => .next (s.respond (.word (s.regs.read idx)))
  | .brrWrite a v => if a < s.cap.brrCap then .next (s.brrWrite a v) else .fault (.brrAddress a)
  | .brrRead a => if a < s.cap.brrCap then .next (s.respond (.byte (s.brrRead a))) else .fault (.brrAddress a)
  | .pcmRead i => if i < s.cap.pcmCap then .next (s.respond (.sample (s.pcmRead i))) else .fault (.pcmAddress (2 * i))
  | .pcmReadByte a => if a < 2 * s.cap.pcmCap then .next (s.respond (.byte (s.pcmByte a))) else .fault (.pcmAddress a)
  | .reset => .next (resetCore s)

/-- One step: the next access of the host, or nothing where there is none (R318, R333). -/
def hostStep (s : State) : Result :=
  match s.host with
  | [] => .next s
  | op :: rest => hostAccess op { s with host := rest }

/-! ### Host programs (R116) -/

/-- The four commands by name. -/
inductive CommandName where
  | validate
  | convert
  | decodeBlock
  | encodeRate
deriving DecidableEq, Repr

/-- The code of a command (R111). -/
def CommandName.code : CommandName → Word
  | .validate => 1#32
  | .convert => 2#32
  | .decodeBlock => 3#32
  | .encodeRate => 4#32

/-- A line of a host program: `mem brr[a] = …`, `wr REG, value`, `rd REG`, `cmd NAME`. -/
inductive HostLine where
  | mem (a : Nat) (bytes : List Byte)
  | wr (idx : BitVec 8) (value : Int)
  | rd (idx : BitVec 8)
  | cmd (name : CommandName)
deriving DecidableEq, Repr

/-- Loading consecutive bytes. -/
def loadOps : Nat → List Byte → List HostOp
  | _, [] => []
  | a, v :: vs => .brrWrite a v :: loadOps (a + 1) vs

/-- The accesses a line stands for; a negative value is its two's complement, `cmd` is a write of the code to CMD. DESIGN
CHOICE (log 20): a `wr` value that does not fit 32 bits is taken modulo 2^32; R116 gives it no meaning. -/
def HostLine.ops : HostLine → List HostOp
  | .mem a bytes => loadOps a bytes
  | .wr idx value => [.regWrite idx (BitVec.ofInt 32 value)]
  | .rd idx => [.regRead idx]
  | .cmd name => [.regWrite 0#8 name.code]

/-- The accesses of a host program. -/
def programOps (lines : List HostLine) : List HostOp := lines.flatMap HostLine.ops

/-! ### Placing an instruction for the next step (log 12) -/

/-- The state whose next step runs this encoded instruction. A command word: the host's next access writes it to CMD. A
block: its nine bytes stand at the start of the BRR input, and the host's next access is DECODE_BLOCK of that block, as
written in its header (BLK_CTRL.FIRST = 0). -/
def placeCode (c : Code) (s : State) : State :=
  match c with
  | .command w => { s with host := .regWrite 0#8 w :: s.host }
  | .block bytes =>
    let s1 := s.brrLoad 0 bytes
    { s1.onRegs (fun g => { g with inLen := 9#32, blkOfs := 0#32, blkFirst := false }) with
      host := .regWrite 0#8 3#32 :: s.host }

end Sys2Proof.Machine
end

