-- ==== Sys2Proof/Machine/Step.lean ====
section
/-! DEFINITION. The step of the machine and the placing of an opcode-table word. -/

namespace Sys2Proof.Machine

/-- One step of the machine: one access of the host (log 1). -/
def step (s : State) : Host.Outcome State Fault Refusal := hostStep s

/-- The state whose next step runs the instruction of an opcode-table word (log 12). -/
def State.withFetchWord (s : State) (nbits w : Nat) : State := placeCode (tableCode nbits w) s

end Sys2Proof.Machine
end

