-- ==== Sys2Proof/Safety.lean ====
section
/-! DEFINITION. The terms in which claims are made: what a claim calls unchanged, a valid stream (spec/40_block_validator.md
R141 to R145), the history a sample is decoded from (spec/41_brr_decoder.md R176), a pass over the blocks as a pure
function (R182), and the invariant of the machine. -/

namespace Sys2Proof.Machine

/-! ### What stays as it was -/

/-- Every byte of both memories reads as before. -/
def sameMemory (s t : State) : Prop :=
  (∀ a, t.brrRead a = s.brrRead a) ∧ ∀ a, t.pcmByte a = s.pcmByte a

/-- The parameters, the host's accesses still to come and the responses already given are as before. -/
def sameOutside (s t : State) : Prop := t.cap = s.cap ∧ t.host = s.host ∧ t.resp = s.resp

/-- Both memories and everything outside the core are as before. With a claim about the registers this is a frame over
everything the host can observe; the hidden state of R52 is unspecified between commands (R331). -/
def keepsRest (s t : State) : Prop := sameMemory s t ∧ sameOutside s t

/-- The BRR memory and everything outside the core are as before: the frame of a CONVERT, which writes the PCM memory. -/
def keepsBrr (s t : State) : Prop := (∀ a, t.brrRead a = s.brrRead a) ∧ sameOutside s t

/-- The registers after a command written as `w` has ended with these STATUS, ERROR and ERRINFO values, beside what it
did to the others. -/
def endedRegs (w : Word) (status : BitVec 5) (error : BitVec 16) (info : Word) (r : Regs) : Regs :=
  { r with cmd := w, status := status, error := error, errInfo := info }

/-! ### Streams -/

/-- The block count of the input. -/
def State.blocks (s : State) : Nat := s.inLen / 9

/-- A stream the validator accepts: it fits the BRR memory, is a positive multiple of 9 bytes long, and the end flag
stands on the last block and only there (R141 to R145, R148). -/
def validStream (s : State) : Prop :=
  s.inLen ≤ s.cap.brrCap ∧ s.inLen % 9 = 0 ∧ 0 < s.inLen ∧
    ∀ j < s.blocks, headerEnd (s.brrRead (9 * j)) = decide (j + 1 = s.blocks)

/-- The loop flag of the stream's last block (R106, R202). -/
def State.lastLoopFlag (s : State) : Bool := headerLoop (s.brrRead (9 * (s.blocks - 1)))

/-- Whether the header of the block at byte `a` has a shift or a filter that is not 0: what the first-block override
warns of (R162). -/
def State.headerOverridden (s : State) (a : Nat) : Bool :=
  headerShift (s.brrRead a) != 0#4 || headerFilter (s.brrRead a) != 0#2

/-! ### The history of a sample (R176) -/

/-- The newest history sample when sample `i` of `out` is decoded: the sample before it, or `prev`. -/
def newestAt (out : List Sample) (prev : Sample) : Nat → Sample
  | 0 => prev
  | i + 1 => out.getD i 0#16

/-- The history sample before that one. -/
def olderAt (out : List Sample) (prev prev2 : Sample) : Nat → Sample
  | 0 => prev2
  | i + 1 => newestAt out prev i

/-- y: the output of a filter sum `s`, clamped, wrapped and doubled (R174 to R176). -/
def outputValue (s : Int) : Int := 2 * wrapCorrect (clampSum s)

/-- Every value the datapath computes for one sample, in the order of R177: the nibble, its quirk, the scaled and the raw
term, the halved history, each product and each shifted product of the filter, the partial sums, s, c, w and y (R164 to
R176). -/
def datapathValues (f : BitVec 2) (shift : BitVec 4) (n : Nibble) (prev prev2 : Sample) : List Int :=
  let row := filterTable f
  let raw := rawTerm shift n
  let a := halved prev
  let b := halved prev2
  let s := filterSum row raw a b
  [n.toInt, n.toInt >>> (3 : Nat), scaledTerm shift n, raw, a, b] ++
  [row.aMul * a, row.aScaled * a, (row.aScaled * a) >>> row.aShift] ++
  [row.bMul * b, row.bScaled * b, (row.bScaled * b) >>> row.bShift] ++
  [raw + row.aMul * a, raw + row.aMul * a + ((row.aScaled * a) >>> row.aShift)] ++
  [raw + row.aMul * a + ((row.aScaled * a) >>> row.aShift) + row.bMul * b] ++
  [s, clampSum s, wrapCorrect (clampSum s), outputValue s]

/-- The block instruction with these fields: BRR.F0, BRR.F1, BRR.F2 or BRR.F3 as `f` is 0, 1, 2 or 3 (R104). -/
def blockInstr (f : BitVec 2) (shift : BitVec 4) (loop last : Bool) (ns : List Nibble) : Instr :=
  (Block.mk shift f loop last ns).toInstr

/-! ### A pass as a pure function (R182, R212) -/

/-- The samples of `k` blocks from block `j` on, threaded from one history, and the history after them; `first` says
whether the first of them is overridden. -/
def passDecode (s : State) : Nat → Nat → Sample → Sample → Bool → List Sample × Sample × Sample
  | 0, _, prev, prev2, _ => ([], prev, prev2)
  | k + 1, j, prev, prev2, first =>
    let b := s.fetchBlock (9 * j)
    let r := blockDecode b.shift b.filter b.nibbles prev prev2 first
    let rest := passDecode s k (j + 1) r.prev r.prev2 false
    (r.out ++ rest.1, rest.2)

/-- The stream the initial pass gives (R182, R183). -/
def initialStream (s : State) : List Sample := (passDecode s s.blocks 0 0#16 0#16 true).1

/-- The probe pair after a stream that ends in `prev2`, `prev`: the first two samples of block `b` decoded from that
history, without the override (R207). -/
def probePair (s : State) (b : Nat) (prev prev2 : Sample) : Sample × Sample :=
  let k := s.fetchBlock (9 * b)
  let out := (blockDecode k.shift k.filter k.nibbles prev prev2 false).out
  (out.getD 0 0#16, out.getD 1 0#16)

/-- The stream after `m` growth passes, which is the stream of round m + 1 (R206, R212): each pass decodes the blocks from
block `b` on, from the stream's last two samples, without the override. -/
def roundStream (s : State) (b : Nat) : Nat → List Sample
  | 0 => initialStream s
  | m + 1 =>
    let st := roundStream s b m
    st ++ (passDecode s (s.blocks - b) b (st.getD (st.length - 1) 0#16) (st.getD (st.length - 2) 0#16) false).1

/-- Candidate `k` of the stream `st` holds the probe pair (R207, R208, R209): `k` nominal loop lengths before the stream's
end stand the first two samples block `b` would give next. -/
def candidateMatches (s : State) (b : Nat) (st : List Sample) (k : Nat) : Prop :=
  (st.getD (st.length - k * (16 * (s.blocks - b))) 0#16, st.getD (st.length - k * (16 * (s.blocks - b)) + 1) 0#16) =
    probePair s b (st.getD (st.length - 1) 0#16) (st.getD (st.length - 2) 0#16)

/-- No candidate of round `r` matches. -/
def roundFails (s : State) (b r : Nat) : Prop :=
  ∀ k, 1 ≤ k → k ≤ r → ¬ candidateMatches s b (roundStream s b (r - 1)) k

/-- The rounds of a loop from block `b` end in round `r` at candidate `k`: no earlier round has a match, round r's stream
fits the PCM memory, and `k` is its nearest match (R205, R208 to R211, R213). -/
def loopResolves (s : State) (b r k : Nat) : Prop :=
  1 ≤ r ∧ r ≤ 64 ∧ (∀ r', 1 ≤ r' → r' < r → roundFails s b r') ∧ (roundStream s b (r - 1)).length ≤ s.cap.pcmCap ∧
    1 ≤ k ∧ k ≤ r ∧ candidateMatches s b (roundStream s b (r - 1)) k ∧
    ∀ k', 1 ≤ k' → k' < k → ¬ candidateMatches s b (roundStream s b (r - 1)) k'

/-- The rounds of a loop from block `b` end after round `r` < 64 because the next stream does not fit the PCM memory: no
round up to `r` has a match (R211). -/
def loopOutgrows (s : State) (b r : Nat) : Prop :=
  1 ≤ r ∧ r < 64 ∧ (∀ r', 1 ≤ r' → r' ≤ r → roundFails s b r') ∧ (roundStream s b (r - 1)).length ≤ s.cap.pcmCap ∧
    s.cap.pcmCap < (roundStream s b r).length

/-- None of the 64 rounds of a loop from block `b` has a match, and all their streams fit the PCM memory (R213). -/
def loopExhausts (s : State) (b : Nat) : Prop :=
  (∀ r, 1 ≤ r → r ≤ 64 → roundFails s b r) ∧ (roundStream s b 63).length ≤ s.cap.pcmCap

/-- The length of the stream a CONVERT ends with when its ROUNDS is `r`: the initial pass, and one nominal loop length for
each round after the first (R185, R206). -/
def streamLength (s : State) (r : Nat) : Nat := 16 * s.blocks + (r - 1) * (16 * (s.blocks - s.regs.loopOfs.toNat / 9))

/-! ### Commands -/

/-- The host commands. -/
def isCommand : Instr → Bool
  | .brrF0 _ _ _ _ => false
  | .brrF1 _ _ _ _ => false
  | .brrF2 _ _ _ _ => false
  | .brrF3 _ _ _ _ => false
  | .validate _ => true
  | .convert _ => true
  | .decodeBlock _ => true
  | .encodeRate _ => true

/-- ERROR.CODE (R35). -/
def Regs.errorCode (r : Regs) : Byte := r.error.extractLsb' 0 8

/-- ERROR.SUB (R35). -/
def Regs.errorSub (r : Regs) : Byte := r.error.extractLsb' 8 8

/-- The register indices a host write never changes: the read-only registers of R32. -/
def readOnlyIndex (k : Nat) : Bool :=
  decide (1 ≤ k ∧ k ≤ 3) || decide (0x0A ≤ k ∧ k < 0x2A)

/-- The (SUB, CODE) pairs of R302, as ERROR holds them. -/
def errorWords : List (BitVec 16) :=
  [0x0101#16, 0x0201#16, 0x0301#16, 0x0401#16, 0x0002#16, 0x0103#16, 0x0203#16, 0x0104#16, 0x0204#16, 0x0304#16,
    0x0005#16, 0x0106#16, 0x0206#16]

/-! ### What commands answer -/

/-- What VALIDATE and CONVERT do when the validator raises `error` with `info`: BLOCK_COUNT, or the six CONVERT results,
are 0 and nothing else but the error registers changes. -/
def validatorRaises (s : State) (error : BitVec 16) (info : Word) : Prop :=
  ∀ g : BitVec 24,
    (∃ t, exec (.validate g) s = .next t ∧
      t.regs = endedRegs (g ++ 0x01#8) 0x03#5 error info { s.regs with blockCount := 0#32 } ∧ keepsRest s t) ∧
    (∃ t, exec (.convert g) s = .next t ∧
      t.regs = endedRegs (g ++ 0x02#8) 0x03#5 error info
        { s.regs with blockCount := 0#32, sampleCount := 0#32, baseLoopLen := 0#32, loopStart := 0#32, loopLen := 0#32,
                      rounds := 0#32 } ∧ keepsBrr s t)

/-- What a block instruction issued by DECODE_BLOCK without the override leaves (R163, R168, R176): each sample is
`sum raw a b` clamped, wrapped and doubled, with raw from its own nibble and a and b the halved history; HIST holds the
last two samples; no other register, no flag and no byte of memory changes. -/
def decodesWith (sum : Int → Int → Int → Int) (i : Instr) (shift : BitVec 4) (ns : List Nibble) (s : State) : Prop :=
  ∃ t, exec i s = .next t ∧
    (∀ (k : Nat) (hk : k < 16), (t.regs.outBlk[k]).toInt =
      outputValue (sum (rawTerm shift (ns.getD k 0#4)) ((newestAt t.regs.outBlk.toList s.regs.prev k).toInt >>> (1 : Nat))
        ((olderAt t.regs.outBlk.toList s.regs.prev s.regs.prev2 k).toInt >>> (1 : Nat)))) ∧
    t.regs = { s.regs with outBlk := t.regs.outBlk, hist := t.regs.outBlk[14] ++ t.regs.outBlk[15] } ∧
    keepsRest s t

/-- What CONVERT does when it raises `error` with `info` and these warnings: the six results are 0, no other register
changes, and the BRR memory stays. -/
def convertRaises (s : State) (status : BitVec 5) (error : BitVec 16) (info : Word) : Prop :=
  ∀ g : BitVec 24, ∃ t, exec (.convert g) s = .next t ∧
    t.regs = endedRegs (g ++ 0x02#8) status error info
      { s.regs with blockCount := 0#32, sampleCount := 0#32, baseLoopLen := 0#32, loopStart := 0#32, loopLen := 0#32,
                    rounds := 0#32 } ∧ keepsBrr s t

/-- The loop request of a valid stream is a loop from block `b` on (R204). -/
def requestsLoop (s : State) (b : Nat) : Prop :=
  validStream s ∧ s.lastLoopFlag = true ∧ s.regs.loopOfs.toInt = 9 * (b : Int) ∧ b < s.inLen / 9

/-! ### The invariant -/

/-- What holds of the machine between steps: the parameters are in range; both memories are in canonical form and inside
their sizes; ERROR, ERRINFO and the flags agree about the last command's error; DONE is clear only while no command has
completed; ROUNDS is within its bound and the sign of the extended float is 0. -/
structure State.Inv (s : State) : Prop where
  /-- R3: 9 <= BRR_CAP <= 2^32 - 1 and PCM_CAP >= 16. -/
  capacity : s.cap.ok = true
  /-- The BRR memory is in canonical form. -/
  brr_wf : Memory.wf s.brr = true
  /-- R70: the BRR memory has BRR_CAP bytes. -/
  brr_size : Memory.below s.cap.brrCap s.brr = true
  /-- The PCM memory is in canonical form. -/
  pcm_wf : Memory.wf s.pcm = true
  /-- R70: the PCM memory has PCM_CAP samples. -/
  pcm_size : Memory.below (2 * s.cap.pcmCap) s.pcm = true
  /-- R35, R301, R302: ERROR names a listed error exactly when ERR is set. -/
  err_listed : s.regs.flag .err = true → s.regs.error ∈ errorWords
  /-- R35, R36: ERROR and ERRINFO are 0 if the last command raised none. -/
  no_err : s.regs.flag .err = false → s.regs.error = 0#16 ∧ s.regs.errInfo = 0#32
  /-- R303: LOOPED is 0 after a raise. -/
  err_not_looped : s.regs.flag .err = true → s.regs.flag .looped = false
  /-- R261: DONE is 0 only before the first command after reset, when no flag is set. -/
  done_first : s.regs.flag .done = false → s.regs.status = 0#5
  /-- R45: at most 64 rounds. -/
  rounds_bound : s.regs.rounds.toNat ≤ 64
  /-- R244: the sign bit of the extended float is 0. -/
  ext80_sign : s.regs.ext80.msb = false

end Sys2Proof.Machine
end

