-- ==== Sys2Proof/WellFormed.lean ====
section
/-! DEFINITION. Which terms of `Instr` are instructions of the hardware: a block holds exactly 16 nibbles (R101, R110).
Every other field is as wide as its place in the encoding, so its type is its check. -/

namespace Sys2Proof

/-- The nibbles of a block instruction; `none` for a command. -/
def Instr.nibbles? : Instr → Option (List Nibble)
  | .brrF0 _ _ _ ns => some ns
  | .brrF1 _ _ _ ns => some ns
  | .brrF2 _ _ _ ns => some ns
  | .brrF3 _ _ _ ns => some ns
  | .validate _ => none
  | .convert _ => none
  | .decodeBlock _ => none
  | .encodeRate _ => none

/-- A block instruction is well formed when it holds SAMPLES_PER_BLOCK nibbles (R101); every command is. -/
def Instr.wellFormed (i : Instr) : Bool :=
  match i.nibbles? with
  | some ns => ns.length == Config.samplesPerBlock
  | none => true

end Sys2Proof
end

