-- ==== Sys2Proof/Certificates/Slice0/Obligations.lean ====
section
/-! DEFINITION. The statements for the provers, from the numbered rules of spec/. Every command statement is about the
command's own transition (`exec`); the statements about `step` say how the host's accesses reach it. -/

open Sys2Proof Sys2Proof.Machine

/-! ## Encoding -/

/-- 30_encoding.md: decoding the encoding of a well-formed instruction gives it back. -/
def Obligations.DecodeInvertsEncode : Prop :=
  ∀ i : Instr, i.wellFormed = true → decode (encode i) = .ok i

/-- 30_encoding.md (R109, R110, R111): an encoded word has one meaning, and that instruction is well formed. -/
def Obligations.EncodeInvertsDecode : Prop :=
  ∀ (c : Code) (i : Instr), decode c = .ok i → encode i = c ∧ i.wellFormed = true

/-- R107, with the header fields of R102 and the opcode patterns of R109: block byte 1 + i div 2 holds nibble i, the high
nibble first; the masked header selects the instruction, and every header selects one. -/
def Obligations.BlockFieldsDecode : Prop :=
  ∀ (h : Byte) (payload : List Byte), payload.length = 8 →
    ∃ ns : List Nibble, ns.length = 16 ∧
      (∀ i < 16, ns.getD i 0#4 =
        if i % 2 = 0 then ((h :: payload).getD (1 + i / 2) 0#8).extractLsb' 4 4
        else ((h :: payload).getD (1 + i / 2) 0#8).extractLsb' 0 4) ∧
      (h &&& 0x0C#8 = 0x00#8 ∨ h &&& 0x0C#8 = 0x04#8 ∨ h &&& 0x0C#8 = 0x08#8 ∨ h &&& 0x0C#8 = 0x0C#8) ∧
      (h &&& 0x0C#8 = 0x00#8 → decode (.block (h :: payload)) =
        .ok (.brrF0 (h.extractLsb' 4 4) (h.getLsbD 1) (h.getLsbD 0) ns)) ∧
      (h &&& 0x0C#8 = 0x04#8 → decode (.block (h :: payload)) =
        .ok (.brrF1 (h.extractLsb' 4 4) (h.getLsbD 1) (h.getLsbD 0) ns)) ∧
      (h &&& 0x0C#8 = 0x08#8 → decode (.block (h :: payload)) =
        .ok (.brrF2 (h.extractLsb' 4 4) (h.getLsbD 1) (h.getLsbD 0) ns)) ∧
      (h &&& 0x0C#8 = 0x0C#8 → decode (.block (h :: payload)) =
        .ok (.brrF3 (h.extractLsb' 4 4) (h.getLsbD 1) (h.getLsbD 0) ns))

/-- R110, R111, R112: a block is exactly nine bytes; CMD[7:0] selects the command and CMD[31:8] is carried; every other
code is rejected by name. -/
def Obligations.OtherWordsRejected : Prop :=
  (∀ bytes : List Byte, bytes.length ≠ 9 → decode (.block bytes) = .error (.blockLength bytes.length)) ∧
  (∀ g : BitVec 24,
    decode (.command (g ++ 0x01#8)) = .ok (.validate g) ∧ decode (.command (g ++ 0x02#8)) = .ok (.convert g) ∧
    decode (.command (g ++ 0x03#8)) = .ok (.decodeBlock g) ∧ decode (.command (g ++ 0x04#8)) = .ok (.encodeRate g)) ∧
  (∀ (g : BitVec 24) (code : Byte), code ≠ 0x01#8 → code ≠ 0x02#8 → code ≠ 0x03#8 → code ≠ 0x04#8 →
    decode (.command (g ++ code)) = .error (.illegalCommand code))

/-- Words written out from the encodings of R115 (its example) and of R111. -/
def Obligations.WrittenOutWordsDecode : Prop :=
  decode (.block [0x0b#8, 0x02#8, 0x02#8, 0x02#8, 0x02#8, 0x02#8, 0x02#8, 0x02#8, 0x02#8]) =
    .ok (.brrF2 0#4 true true
      [0#4, 2#4, 0#4, 2#4, 0#4, 2#4, 0#4, 2#4, 0#4, 2#4, 0#4, 2#4, 0#4, 2#4, 0#4, 2#4]) ∧
  decode (.block [0x67#8, 0xf1#8, 0xf1#8, 0xf1#8, 0xf1#8, 0xf1#8, 0xf1#8, 0xf1#8, 0xf1#8]) =
    .ok (.brrF1 6#4 true true
      [15#4, 1#4, 15#4, 1#4, 15#4, 1#4, 15#4, 1#4, 15#4, 1#4, 15#4, 1#4, 15#4, 1#4, 15#4, 1#4]) ∧
  decode (.command 0x12345604#32) = .ok (.encodeRate 0x123456#24) ∧
  decode (.command 0x00000007#32) = .error (.illegalCommand 0x07#8)

/-! ## Reset and the host's accesses -/

/-- R330 with R55 and R332: reset gives every register the reset value of R30's table (all 0 but LOOP_OFS) and changes
neither memory; State.reset has the same register values. -/
def Obligations.ResetSetsRegisters : Prop :=
  (∀ idx : BitVec 8, State.reset.regs.read idx = if idx = 0x05#8 then 0xFFFFFFFF#32 else 0#32) ∧
  ∀ (s : State) (rest : List HostOp), s.host = .reset :: rest →
    ∃ t, step s = .next t ∧
      (∀ idx : BitVec 8, t.regs.read idx = if idx = 0x05#8 then 0xFFFFFFFF#32 else 0#32) ∧
      sameMemory s t ∧ t.cap = s.cap ∧ t.host = rest ∧ t.resp = s.resp

/-- R31: reserved registers read 0 and ignore writes, and the bits a field table marks "read 0" read 0. -/
def Obligations.ReservedRegistersReadZero : Prop :=
  (∀ (r : Regs) (idx : BitVec 8), 0x2A ≤ idx.toNat → r.read idx = 0#32) ∧
  (∀ (s : State) (rest : List HostOp) (idx : BitVec 8) (v : Word), 0x2A ≤ idx.toNat →
    s.host = .regWrite idx v :: rest → step s = .next { s with host := rest }) ∧
  (∀ r : Regs, (r.read 0x01#8).extractLsb' 5 27 = 0#27 ∧ (r.read 0x02#8).extractLsb' 16 16 = 0#16 ∧
    (r.read 0x08#8).extractLsb' 1 31 = 0#31) ∧
  (∀ (r : Regs) (idx : BitVec 8), 0x20 ≤ idx.toNat → idx.toNat < 0x2A → (r.read idx).extractLsb' 8 24 = 0#24)

/-- R32: a host write to a read-only register changes nothing, and no access of the host changes a read-only register
unless it starts a command (or is a reset, R330). -/
def Obligations.ReadOnlyRegistersIgnoreHost : Prop :=
  (∀ (s : State) (rest : List HostOp) (idx : BitVec 8) (v : Word), readOnlyIndex idx.toNat = true →
    s.host = .regWrite idx v :: rest → step s = .next { s with host := rest }) ∧
  (∀ (s t : State) (op : HostOp) (rest : List HostOp) (idx : BitVec 8), s.host = op :: rest →
    (∀ w, op ≠ .regWrite 0x00#8 w) → op ≠ .reset → step s = .next t → readOnlyIndex idx.toNat = true →
    t.regs.read idx = s.regs.read idx)

/-- R268: the configuration registers take a host write at once and with no side effect; no command writes one of them,
except that DECODE_BLOCK writes HIST; and no other access of the host changes one (but a reset, R330). -/
def Obligations.ConfigurationRegistersKeepWrites : Prop :=
  (∀ (s : State) (rest : List HostOp) (idx : BitVec 8) (v : Word), 0x04 ≤ idx.toNat → idx.toNat ≤ 0x09 →
    s.host = .regWrite idx v :: rest →
    ∃ t, step s = .next t ∧ t.regs.read idx = (if idx = 0x08#8 then v &&& 1#32 else v) ∧
      (∀ k : BitVec 8, k ≠ idx → t.regs.read k = s.regs.read k) ∧
      sameMemory s t ∧ t.cap = s.cap ∧ t.host = rest ∧ t.resp = s.resp) ∧
  (∀ (s t : State) (i : Instr), isCommand i = true → exec i s = .next t →
    t.regs.inLen = s.regs.inLen ∧ t.regs.loopOfs = s.regs.loopOfs ∧ t.regs.rate = s.regs.rate ∧
    t.regs.blkOfs = s.regs.blkOfs ∧ t.regs.blkFirst = s.regs.blkFirst ∧
    ((∀ g, i ≠ .decodeBlock g) → t.regs.hist = s.regs.hist)) ∧
  (∀ (s t : State) (idx : BitVec 8), 0x04 ≤ idx.toNat → idx.toNat ≤ 0x09 → step s = .next t →
    t.regs.read idx ≠ s.regs.read idx →
    (∃ v rest, s.host = .regWrite idx v :: rest) ∨
    (idx = 0x09#8 ∧ ∃ (g : BitVec 24) (rest : List HostOp), s.host = .regWrite 0x00#8 (g ++ 0x03#8) :: rest) ∨
    ∃ rest, s.host = .reset :: rest)

/-- 10_state.md §1 (R33, first and third sentences): a write to CMD is stored whole, with its ignored bits, by whichever
command it starts, and no other access changes CMD but a reset, which clears it. -/
def Obligations.CmdHoldsLastWrite : Prop :=
  (∀ (s t : State) (w : Word) (rest : List HostOp), s.host = .regWrite 0x00#8 w :: rest → step s = .next t →
    t.regs.read 0x00#8 = w) ∧
  (∀ (s t : State), step s = .next t → t.regs.read 0x00#8 ≠ s.regs.read 0x00#8 →
    (∃ w rest, s.host = .regWrite 0x00#8 w :: rest) ∨ ∃ rest, s.host = .reset :: rest ∧ t.regs.read 0x00#8 = 0#32)

/-- R318: between commands, with no access of the host to carry out, the core holds everything and does nothing. -/
def Obligations.IdleCoreDoesNothing : Prop :=
  ∀ s : State, s.host = [] → step s = .next s

/-- 20_memory.md §5 (R82): a read by the host returns the value and has no side effect. That a PCM read below PCM_CAP
completes also past SAMPLE_COUNT or after a raise, where R77 and R340 give the host nothing to read, is the model's choice
(log 8); the value it returns there is free. -/
def Obligations.HostReadsHaveNoSideEffect : Prop :=
  ∀ (s : State) (rest : List HostOp),
    (∀ idx, s.host = .regRead idx :: rest →
      step s = .next { s with host := rest, resp := s.resp ++ [.word (s.regs.read idx)] }) ∧
    (∀ a, s.host = .brrRead a :: rest → a < s.cap.brrCap →
      step s = .next { s with host := rest, resp := s.resp ++ [.byte (s.brrRead a)] }) ∧
    (∀ i, s.host = .pcmRead i :: rest → i < s.cap.pcmCap →
      step s = .next { s with host := rest, resp := s.resp ++ [.sample (s.pcmRead i)] }) ∧
    (∀ a, s.host = .pcmReadByte a :: rest → a < 2 * s.cap.pcmCap →
      step s = .next { s with host := rest, resp := s.resp ++ [.byte (s.pcmByte a)] })

/-- 20_memory.md §1, §7 (R70, R87): a byte the host writes to the BRR memory is there for every later read, and nothing
else changes. -/
def Obligations.HostLoadsBrrMemory : Prop :=
  ∀ (s : State) (a : Nat) (v : Byte) (rest : List HostOp), s.host = .brrWrite a v :: rest → a < s.cap.brrCap →
    ∃ t, step s = .next t ∧ t.brrRead a = v ∧ (∀ b, b ≠ a → t.brrRead b = s.brrRead b) ∧
      (∀ b, t.pcmByte b = s.pcmByte b) ∧ t.regs = s.regs ∧ t.cap = s.cap ∧ t.host = rest ∧ t.resp = s.resp

/-- 20_memory.md §4 (R79): sample i occupies bytes 2i and 2i + 1, the most significant byte at 2i. -/
def Obligations.PcmByteViewIsBigEndian : Prop :=
  ∀ (s : State) (i : Nat), (s.pcmRead i).toNat = 256 * (s.pcmByte (2 * i)).toNat + (s.pcmByte (2 * i + 1)).toNat

/-- The model's choice (logs 7 and 9): the faults. A host access to an address that R70 does not give, and a block that
would be appended past PCM_CAP (which R74 forbids). -/
def Obligations.FaultsAreOutsideTheMemories : Prop :=
  (∀ (s : State) (rest : List HostOp),
    (∀ a v, s.host = .brrWrite a v :: rest → s.cap.brrCap ≤ a → step s = .fault (.brrAddress a)) ∧
    (∀ a, s.host = .brrRead a :: rest → s.cap.brrCap ≤ a → step s = .fault (.brrAddress a)) ∧
    (∀ i, s.host = .pcmRead i :: rest → s.cap.pcmCap ≤ i → step s = .fault (.pcmAddress (2 * i))) ∧
    (∀ a, s.host = .pcmReadByte a :: rest → 2 * s.cap.pcmCap ≤ a → step s = .fault (.pcmAddress a))) ∧
  (∀ (s : State) (f : BitVec 2) (shift : BitVec 4) (loop last : Bool) (ns : List Nibble), ns.length = 16 →
    s.client = .stream → s.cap.pcmCap < s.hid.len + 16 →
    exec (blockInstr f shift loop last ns) s = .fault (.pcmOverflow s.hid.len))

/-! ## A step runs the decoded instruction -/

/-- 44_host_commands.md (R260): a write to CMD runs the command its word decodes to. -/
def Obligations.StepRunsDecodedCommand : Prop :=
  ∀ (s : State) (w : Word) (rest : List HostOp) (i : Instr), s.host = .regWrite 0x00#8 w :: rest →
    decode (.command w) = .ok i → step s = exec i { s with host := rest }

/-- 44_host_commands.md (R264), 30_encoding.md (R104): DECODE_BLOCK runs the instruction the nine bytes at BLK_OFS decode
to, from the state with the command begun (CMD written, STATUS, ERROR and ERRINFO cleared), and then sets DONE. -/
def Obligations.DecodeBlockRunsDecodedBlock : Prop :=
  ∀ (s : State) (g : BitVec 24) (i : Instr), s.inLen ≤ s.cap.brrCap → s.regs.blkOfs.toNat + 9 ≤ s.inLen →
    decode (.block ((List.range 9).map fun k => s.brrRead (s.regs.blkOfs.toNat + k))) = .ok i →
    exec (.decodeBlock g) s =
      andThen (exec i { s with regs := endedRegs (g ++ 0x03#8) 0#5 0#16 0#32 s.regs, client := .command })
        fun t => .next (t.onRegs fun r => { r with status := r.status ||| 0x01#5 })

/-- 41_brr_decoder.md (R182, R184), 42_loop_convergence.md (R207, R212): a pass puts the cursor on each block in turn and
runs the instruction that block decodes to; a probe runs the loop block's. -/
def Obligations.PassesAndProbesRunDecodedBlocks : Prop :=
  (∀ (k j : Nat) (s : State) (i : Instr),
    decode (.block ((List.range 9).map fun m => s.brrRead (9 * j + m))) = .ok i →
    runPass (k + 1) j s = andThen (exec i { s with hid := { s.hid with cur := j } }) (runPass k (j + 1))) ∧
  (∀ (s : State) (i : Instr), decode (.block ((List.range 9).map fun m => s.brrRead (9 * s.hid.b + m))) = .ok i →
    probe s = exec i { s with client := .probe, hid := { s.hid with cur := s.hid.b } })

/-! ## Commands in general -/

/-- R266: a CMD write whose code is no command raises IllegalCommand and changes nothing but CMD, STATUS, ERROR and
ERRINFO. -/
def Obligations.IllegalCommandRaises : Prop :=
  ∀ (s : State) (g : BitVec 24) (code : Byte) (rest : List HostOp), s.host = .regWrite 0x00#8 (g ++ code) :: rest →
    code ≠ 0x01#8 → code ≠ 0x02#8 → code ≠ 0x03#8 → code ≠ 0x04#8 →
    ∃ t, step s = .next t ∧ t.regs = endedRegs (g ++ code) 0x03#5 0x0005#16 (code.setWidth 32) s.regs ∧
      sameMemory s t ∧ t.cap = s.cap ∧ t.host = rest ∧ t.resp = s.resp

/-- R261: every command ends with DONE = 1, ERR is 1 exactly when it raised (ERROR.CODE is not 0), also after a write of
an illegal code; DONE, once set, falls only by a reset. -/
def Obligations.CommandsEndDone : Prop :=
  (∀ (s t : State) (i : Instr), isCommand i = true → exec i s = .next t →
    t.regs.flag .done = true ∧ (t.regs.flag .err = true ↔ t.regs.errorCode ≠ 0#8)) ∧
  (∀ (s t : State) (w : Word) (rest : List HostOp), s.host = .regWrite 0x00#8 w :: rest → step s = .next t →
    t.regs.flag .done = true ∧ (t.regs.flag .err = true ↔ t.regs.errorCode ≠ 0#8)) ∧
  (∀ s t : State, step s = .next t → s.regs.flag .done = true → t.regs.flag .done = false →
    ∃ rest, s.host = .reset :: rest)

/-- 44_host_commands.md, 41_brr_decoder.md (R180): every command completes from every state; none faults or refuses. -/
def Obligations.EveryCommandCompletes : Prop :=
  ∀ (s : State) (i : Instr), isCommand i = true → ∃ t, exec i s = .next t

/-- 60_exceptions.md (R301, R302, R305, R307): the errors each command can end with, as ERROR holds them, with the
ERRINFO of a convergence failure; SinkWriteError is never among them. -/
def Obligations.RaisedErrorsAreListed : Prop :=
  ∀ (s t : State) (g : BitVec 24),
    (exec (.validate g) s = .next t →
      t.regs.error ∈ [0x0000#16, 0x0106#16, 0x0101#16, 0x0201#16, 0x0301#16, 0x0401#16]) ∧
    (exec (.convert g) s = .next t →
      t.regs.error ∈ [0x0000#16, 0x0106#16, 0x0101#16, 0x0201#16, 0x0301#16, 0x0401#16, 0x0104#16, 0x0204#16, 0x0304#16,
        0x0103#16, 0x0203#16, 0x0002#16] ∧ (t.regs.error = 0x0002#16 → t.regs.errInfo = 64#32)) ∧
    (exec (.decodeBlock g) s = .next t → t.regs.error ∈ [0x0000#16, 0x0106#16, 0x0206#16]) ∧
    (exec (.encodeRate g) s = .next t → t.regs.error = 0x0000#16)

/-! ## VALIDATE and the validator -/

/-- R145: when every check passes, VALIDATE leaves BLOCK_COUNT = IN_LEN div 9 >= 1. -/
def Obligations.ValidateCountsBlocks : Prop :=
  ∀ (s : State) (g : BitVec 24), validStream s →
    1 ≤ s.inLen / 9 ∧
    ∃ t, exec (.validate g) s = .next t ∧
      t.regs = endedRegs (g ++ 0x01#8) 0x01#5 0#16 0#32
        { s.regs with blockCount := BitVec.ofNat 32 (s.inLen / 9) } ∧
      keepsRest s t

/-- R148: IN_LEN > BRR_CAP raises AddressError(1, IN_LEN) before any other check. -/
def Obligations.OversizedInputRaises : Prop :=
  ∀ s : State, s.cap.brrCap < s.inLen → validatorRaises s 0x0106#16 s.regs.inLen

/-- R141: a length that is no multiple of 9 raises StructuralError(1, IN_LEN), whatever bytes the input holds. -/
def Obligations.LengthErrorRaises : Prop :=
  ∀ s : State, s.inLen ≤ s.cap.brrCap → s.inLen % 9 ≠ 0 → validatorRaises s 0x0101#16 s.regs.inLen

/-- R142: an empty input raises StructuralError(2, 0). -/
def Obligations.EmptyInputRaises : Prop :=
  ∀ s : State, s.inLen = 0 → validatorRaises s 0x0201#16 0#32

/-- R143: an end flag on a block before the last raises StructuralError(3, j) for the lowest such j. -/
def Obligations.EarlyEndFlagRaises : Prop :=
  ∀ (s : State) (j : Nat), s.inLen ≤ s.cap.brrCap → s.inLen % 9 = 0 → j + 1 < s.inLen / 9 →
    headerEnd (s.brrRead (9 * j)) = true → (∀ m < j, headerEnd (s.brrRead (9 * m)) = false) →
    validatorRaises s 0x0301#16 (BitVec.ofNat 32 j)

/-- R144: no end flag on the last block, with no earlier violation, raises StructuralError(4, n - 1). -/
def Obligations.MissingEndFlagRaises : Prop :=
  ∀ s : State, s.inLen ≤ s.cap.brrCap → s.inLen % 9 = 0 → 0 < s.inLen →
    (∀ m < s.inLen / 9, headerEnd (s.brrRead (9 * m)) = false) →
    validatorRaises s 0x0401#16 (BitVec.ofNat 32 (s.inLen / 9 - 1))

/-! ## The block instructions -/

/-- R170: BRR.F0, s = raw, which lies in [-16384, 14336]; the clamp and the correction never act, so the output is
2 x raw. -/
def Obligations.BrrF0Decodes : Prop :=
  ∀ (shift : BitVec 4) (loop last : Bool) (ns : List Nibble) (s : State), ns.length = 16 → s.client = .command →
    s.regs.blkFirst = false →
    decodesWith (fun raw _ _ => raw) (.brrF0 shift loop last ns) shift ns s ∧
    ∀ n : Nibble, -16384 ≤ rawTerm shift n ∧ rawTerm shift n ≤ 14336 ∧
      outputValue (rawTerm shift n) = 2 * rawTerm shift n

/-- R171: BRR.F1, s = raw + a + ((-a) >> 4). -/
def Obligations.BrrF1Decodes : Prop :=
  ∀ (shift : BitVec 4) (loop last : Bool) (ns : List Nibble) (s : State), ns.length = 16 → s.client = .command →
    s.regs.blkFirst = false →
    decodesWith (fun raw a _ => raw + a + ((-a) >>> (4 : Nat))) (.brrF1 shift loop last ns) shift ns s

/-- R172: BRR.F2, s = raw + 2a + ((-3a) >> 5) - b + (b >> 4), and the extreme values of s. -/
def Obligations.BrrF2Decodes : Prop :=
  ∀ (shift : BitVec 4) (loop last : Bool) (ns : List Nibble) (s : State), ns.length = 16 → s.client = .command →
    s.regs.blkFirst = false →
    decodesWith (fun raw a b => raw + 2 * a + ((-3 * a) >>> (5 : Nat)) - b + (b >>> (4 : Nat)))
      (.brrF2 shift loop last ns) shift ns s ∧
    ∀ (n : Nibble) (a b : Int), -16384 ≤ a → a ≤ 16383 → -16384 ≤ b → b ≤ 16383 →
      -62976 ≤ rawTerm shift n + 2 * a + ((-3 * a) >>> (5 : Nat)) - b + (b >>> (4 : Nat)) ∧
      rawTerm shift n + 2 * a + ((-3 * a) >>> (5 : Nat)) - b + (b >>> (4 : Nat)) ≤ 60926

/-- R173: BRR.F3, s = raw + 2a + ((-13a) >> 6) - b + ((3b) >> 4), and the range of s. -/
def Obligations.BrrF3Decodes : Prop :=
  ∀ (shift : BitVec 4) (loop last : Bool) (ns : List Nibble) (s : State), ns.length = 16 → s.client = .command →
    s.regs.blkFirst = false →
    decodesWith (fun raw a b => raw + 2 * a + ((-13 * a) >>> (6 : Nat)) - b + ((3 * b) >>> (4 : Nat)))
      (.brrF3 shift loop last ns) shift ns s ∧
    ∀ (n : Nibble) (a b : Int), -16384 ≤ a → a ≤ 16383 → -16384 ≤ b → b ≤ 16383 →
      -59136 ≤ rawTerm shift n + 2 * a + ((-13 * a) >>> (6 : Nat)) - b + ((3 * b) >>> (4 : Nat)) ∧
      rawTerm shift n + 2 * a + ((-13 * a) >>> (6 : Nat)) - b + ((3 * b) >>> (4 : Nat)) ≤ 57086

/-- 41_brr_decoder.md §1 (R162): with BLK_CTRL.FIRST = 1 every block instruction decodes with filter 0 and shift 0, and
W_FIRSTHDR is set exactly when its shift or filter is not 0 (no other flag changes). -/
def Obligations.FirstBlockOverridesHeader : Prop :=
  ∀ (f : BitVec 2) (shift : BitVec 4) (loop last : Bool) (ns : List Nibble) (s : State), ns.length = 16 →
    s.client = .command → s.regs.blkFirst = true →
    ∃ t, exec (blockInstr f shift loop last ns) s = .next t ∧
      (∀ (k : Nat) (hk : k < 16), (t.regs.outBlk[k]).toInt = 2 * rawTerm 0#4 (ns.getD k 0#4)) ∧
      t.regs = { s.regs with
        outBlk := t.regs.outBlk
        hist := t.regs.outBlk[14] ++ t.regs.outBlk[15]
        status := if shift = 0#4 ∧ f = 0#2 then s.regs.status else s.regs.status ||| 0x08#5 } ∧
      keepsRest s t

/-- 41_brr_decoder.md §4, §5 (R176, R182), 42_loop_convergence.md (R212): a block instruction issued by a pass appends its
16 samples to the stream and threads the internal history; every byte of memory outside them, every register and every
flag but W_FIRSTHDR stay. That len grows by 16 with each block, where R182 and R212 set it once at the end of the pass, is
the model's choice (log 19). -/
def Obligations.PassBlockExtendsStream : Prop :=
  ∀ (f : BitVec 2) (shift : BitVec 4) (loop last : Bool) (ns : List Nibble) (s : State), ns.length = 16 →
    s.client = .stream → s.hid.len + 16 ≤ s.cap.pcmCap →
    ∃ (t : State) (r : BlockResult), exec (blockInstr f shift loop last ns) s = .next t ∧
      r = blockDecode shift f ns s.hid.hp s.hid.hpp s.hid.firstPending ∧ r.out.length = 16 ∧
      (∀ i < 16, t.pcmRead (s.hid.len + i) = r.out.getD i 0#16) ∧
      (∀ a, a < 2 * s.hid.len ∨ 2 * (s.hid.len + 16) ≤ a → t.pcmByte a = s.pcmByte a) ∧
      t.hid = { s.hid with
        hp := r.out.getD 15 0#16, hpp := r.out.getD 14 0#16, len := s.hid.len + 16, firstPending := false } ∧
      t.regs = { s.regs with status :=
        if s.hid.firstPending = true ∧ (shift ≠ 0#4 ∨ f ≠ 0#2) then s.regs.status ||| 0x08#5 else s.regs.status } ∧
      keepsBrr s t

/-- 42_loop_convergence.md §2 (R207): a block instruction issued by a probe decodes from the stream's last two samples
without the override, keeps its first two samples as the probe pair, and changes no register, no flag, no byte of memory
and nothing else of the stream's history. -/
def Obligations.ProbeBlockKeepsStream : Prop :=
  ∀ (f : BitVec 2) (shift : BitVec 4) (loop last : Bool) (ns : List Nibble) (s : State), ns.length = 16 →
    s.client = .probe →
    ∃ (t : State) (r : BlockResult), exec (blockInstr f shift loop last ns) s = .next t ∧
      r = blockDecode shift f ns (s.pcmRead (s.hid.len - 1)) (s.pcmRead (s.hid.len - 2)) false ∧
      t.hid = { s.hid with q0 := r.out.getD 0 0#16, q1 := r.out.getD 1 0#16 } ∧
      t.regs = s.regs ∧ keepsRest s t

/-- R165, R166, R167: the scaled term and the raw term of every shift and nibble. -/
def Obligations.RawTermOfEveryShift : Prop :=
  ∀ (shift : BitVec 4) (n : Nibble),
    (shift.toNat ≤ 12 → scaledTerm shift n = n.toInt * 2 ^ shift.toNat ∧ -32768 ≤ scaledTerm shift n ∧
      scaledTerm shift n ≤ 28672) ∧
    (13 ≤ shift.toNat → scaledTerm shift n = if n.toInt < 0 then -4096 else 0) ∧
    rawTerm shift n = Int.fdiv (scaledTerm shift n) 2 ∧ -16384 ≤ rawTerm shift n ∧ rawTerm shift n ≤ 14336

/-- 41_brr_decoder.md §4 (R178, R179): every output is even and in [-32768, 32766], and clamp, correction and doubling
together are the low 16 bits of the doubled clamped value. -/
def Obligations.OutputStageIsDoubledClamp : Prop :=
  ∀ s : Int,
    (outputSample s).toInt = outputValue s ∧ outputValue s % 2 = 0 ∧ -32768 ≤ outputValue s ∧ outputValue s ≤ 32766 ∧
    outputSample s = BitVec.ofInt 16 (2 * max (-32768) (min 32767 s))

/-- 41_brr_decoder.md §4 (R181): over all nibbles, shifts and histories, the scaled term, the products 3a and 13a and the
filter sum stay in the ranges R181 gives, and every intermediate of a sample lies in [-2^18, 2^18), which a signed datapath
of 19 bits holds. -/
def Obligations.DatapathFitsNineteenBits : Prop :=
  ∀ (f : BitVec 2) (shift : BitVec 4) (n : Nibble) (prev prev2 : Sample),
    -62976 ≤ filterSum (filterTable f) (rawTerm shift n) (halved prev) (halved prev2) ∧
    filterSum (filterTable f) (rawTerm shift n) (halved prev) (halved prev2) ≤ 60926 ∧
    -32768 ≤ scaledTerm shift n ∧ scaledTerm shift n ≤ 28672 ∧
    -212992 ≤ 3 * halved prev ∧ 3 * halved prev ≤ 212979 ∧ -212992 ≤ 13 * halved prev ∧ 13 * halved prev ≤ 212979 ∧
    ∀ v ∈ datapathValues f shift n prev prev2, -2 ^ 18 ≤ v ∧ v < 2 ^ 18

/-! ## DECODE_BLOCK -/

/-- 44_host_commands.md (R264), 60_exceptions.md (R302): AddressError(1) for an input larger than the BRR memory, then
AddressError(2) for a block past the input, the sum taken unbounded; OUT_BLK and HIST stay. -/
def Obligations.DecodeBlockAddressErrors : Prop :=
  ∀ (s : State) (g : BitVec 24),
    (s.cap.brrCap < s.inLen →
      ∃ t, exec (.decodeBlock g) s = .next t ∧
        t.regs = endedRegs (g ++ 0x03#8) 0x03#5 0x0106#16 s.regs.inLen s.regs ∧ keepsRest s t) ∧
    (s.inLen ≤ s.cap.brrCap → s.inLen < s.regs.blkOfs.toNat + 9 →
      ∃ t, exec (.decodeBlock g) s = .next t ∧
        t.regs = endedRegs (g ++ 0x03#8) 0x03#5 0x0206#16 s.regs.blkOfs s.regs ∧ keepsRest s t)

/-- 44_host_commands.md (R264): DECODE_BLOCK of a block inside the input, at any byte offset: OUT_BLK and HIST take
BlockDecode of the nine bytes with HIST's samples as history, W_FIRSTHDR its warning; nothing else changes. -/
def Obligations.DecodeBlockWritesResult : Prop :=
  ∀ (s : State) (g : BitVec 24), s.inLen ≤ s.cap.brrCap → s.regs.blkOfs.toNat + 9 ≤ s.inLen →
    ∃ (t : State) (r : BlockResult), exec (.decodeBlock g) s = .next t ∧
      r = blockDecode (headerShift (s.brrRead s.regs.blkOfs.toNat)) (headerFilter (s.brrRead s.regs.blkOfs.toNat))
        (payloadNibbles ((List.range 8).map fun k => s.brrRead (s.regs.blkOfs.toNat + 1 + k)))
        (s.regs.hist.extractLsb' 0 16) (s.regs.hist.extractLsb' 16 16) s.regs.blkFirst ∧
      (∀ (k : Nat) (hk : k < 16), t.regs.outBlk[k] = r.out.getD k 0#16) ∧
      t.regs = endedRegs (g ++ 0x03#8) (if r.warnFirst then 0x09#5 else 0x01#5) 0#16 0#32
        { s.regs with outBlk := t.regs.outBlk, hist := r.out.getD 14 0#16 ++ r.out.getD 15 0#16 } ∧
      keepsRest s t

/-- 70_reset_and_hazards.md (R341), 44_host_commands.md (R264, its derived corner case): DECODE_BLOCK of block j, with
FIRST = 1 only for j = 0 and HIST as the decodes of the blocks before left it, gives the samples j of CONVERT's initial
pass and leaves HIST ready for block j + 1. -/
def Obligations.DecodeBlockChainIsInitialPass : Prop :=
  ∀ (s : State) (g : BitVec 24) (j : Nat), s.inLen ≤ s.cap.brrCap → s.regs.blkOfs.toNat = 9 * j → j < s.inLen / 9 →
    s.regs.blkFirst = decide (j = 0) →
    s.regs.hist = (passDecode s j 0 0#16 0#16 true).2.2 ++ (passDecode s j 0 0#16 0#16 true).2.1 →
    ∃ t, exec (.decodeBlock g) s = .next t ∧
      (∀ (k : Nat) (hk : k < 16), t.regs.outBlk[k] = (initialStream s).getD (16 * j + k) 0#16) ∧
      t.regs.hist = (passDecode s (j + 1) 0 0#16 0#16 true).2.2 ++ (passDecode s (j + 1) 0 0#16 0#16 true).2.1

/-! ## CONVERT -/

/-- R220 with R201 and R202: a CONVERT of a valid stream that analyses no loop, either because none was requested (no
warning of it) or because the last block does not loop (W_LOOPDROP, the offset not checked), ends with the whole initial
stream in the PCM memory and no loop results. A SAMPLE_COUNT that does not fit 32 bits is a free value (log 10). -/
def Obligations.ConvertWithoutLoop : Prop :=
  ∀ (s : State) (g : BitVec 24), validStream s → 16 * (s.inLen / 9) ≤ s.cap.pcmCap →
    (s.regs.loopOfs = 0xFFFFFFFF#32 ∨ s.lastLoopFlag = false) →
    ∃ t, exec (.convert g) s = .next t ∧
      t.regs = endedRegs (g ++ 0x02#8)
        (0x01#5 ||| (if s.headerOverridden 0 then 0x08#5 else 0#5) |||
          (if s.regs.loopOfs = 0xFFFFFFFF#32 then 0#5 else 0x10#5)) 0#16 0#32
        { s.regs with
          blockCount := BitVec.ofNat 32 (s.inLen / 9)
          sampleCount := t.regs.sampleCount
          baseLoopLen := 0#32
          loopStart := 0#32
          loopLen := 0#32
          rounds := 0#32 } ∧
      (16 * (s.inLen / 9) < 2 ^ 32 → t.regs.sampleCount.toNat = 16 * (s.inLen / 9)) ∧
      (∀ i < 16 * (s.inLen / 9), t.pcmRead i = (initialStream s).getD i 0#16) ∧
      keepsBrr s t

/-- R203: on a looping stream an offset that is negative (other than -1), past the input or no multiple of 9 raises
LoopOffsetError(1), (2) or (3), in this order, with the LOOP_OFS value, before any block is decoded. -/
def Obligations.LoopOffsetErrorsRaise : Prop :=
  ∀ s : State, validStream s → s.lastLoopFlag = true → s.regs.loopOfs ≠ 0xFFFFFFFF#32 →
    (s.regs.loopOfs.toInt < 0 → convertRaises s 0x03#5 0x0104#16 s.regs.loopOfs) ∧
    (0 ≤ s.regs.loopOfs.toInt → (s.inLen : Int) ≤ s.regs.loopOfs.toInt →
      convertRaises s 0x03#5 0x0204#16 s.regs.loopOfs) ∧
    (0 ≤ s.regs.loopOfs.toInt → s.regs.loopOfs.toInt < s.inLen → s.regs.loopOfs.toInt % 9 ≠ 0 →
      convertRaises s 0x03#5 0x0304#16 s.regs.loopOfs)

/-- 44_host_commands.md (R263), 60_exceptions.md (R302, R305): a valid stream whose initial pass does not fit the PCM
memory raises AllocationError(1, 16 x n); no block is decoded, so W_FIRSTHDR is not set. -/
def Obligations.InitialAllocationErrorRaises : Prop :=
  ∀ s : State, s.cap.pcmCap < 16 * (s.inLen / 9) →
    ((∃ b, requestsLoop s b) ∨ (validStream s ∧ s.regs.loopOfs = 0xFFFFFFFF#32) →
      convertRaises s 0x03#5 0x0103#16 (BitVec.ofNat 32 (16 * (s.inLen / 9)))) ∧
    (validStream s ∧ s.regs.loopOfs ≠ 0xFFFFFFFF#32 ∧ s.lastLoopFlag = false →
      convertRaises s 0x13#5 0x0103#16 (BitVec.ofNat 32 (16 * (s.inLen / 9))))

/-- 42_loop_convergence.md §2 (R218, R214): when the probe after the initial pass equals the first two samples of the
loop block, CONVERT resolves in round 1 with LOOP_LEN = base and LOOP_START = first. -/
def Obligations.FirstRoundLoopResolves : Prop :=
  ∀ (s : State) (g : BitVec 24) (b : Nat), requestsLoop s b → 16 * (s.inLen / 9) ≤ s.cap.pcmCap →
    16 * (s.inLen / 9) < 2 ^ 32 →
    probePair s b ((initialStream s).getD (16 * (s.inLen / 9) - 1) 0#16)
        ((initialStream s).getD (16 * (s.inLen / 9) - 2) 0#16) =
      ((initialStream s).getD (16 * b) 0#16, (initialStream s).getD (16 * b + 1) 0#16) →
    ∃ t, exec (.convert g) s = .next t ∧
      t.regs = endedRegs (g ++ 0x02#8) (0x05#5 ||| (if s.headerOverridden 0 then 0x08#5 else 0#5)) 0#16 0#32
        { s.regs with
          blockCount := BitVec.ofNat 32 (s.inLen / 9)
          sampleCount := BitVec.ofNat 32 (16 * (s.inLen / 9))
          baseLoopLen := BitVec.ofNat 32 (16 * (s.inLen / 9 - b))
          loopStart := BitVec.ofNat 32 (16 * b)
          loopLen := BitVec.ofNat 32 (16 * (s.inLen / 9 - b))
          rounds := 1#32 } ∧
      (∀ i < 16 * (s.inLen / 9), t.pcmRead i = (initialStream s).getD i 0#16) ∧
      keepsBrr s t

/-- 42_loop_convergence.md (R211, R213, R219), 60_exceptions.md (R302, R305): what an unresolved loop raises, and when.
Rounds that find no match raise AllocationError(2), with the length of the first stream that does not fit the PCM memory,
or LoopConvergenceError, with 64, after 64 rounds whose streams fit; these errors are raised in no other case; and an
analysed loop that raises neither resolves. -/
def Obligations.UnresolvedLoopErrors : Prop :=
  (∀ (s : State) (b r : Nat), requestsLoop s b → loopOutgrows s b r →
    convertRaises s (0x03#5 ||| (if s.headerOverridden 0 then 0x08#5 else 0#5)) 0x0203#16
      (BitVec.ofNat 32 (roundStream s b r).length)) ∧
  (∀ (s : State) (b : Nat), requestsLoop s b → loopExhausts s b →
    convertRaises s (0x03#5 ||| (if s.headerOverridden 0 then 0x08#5 else 0#5)) 0x0002#16 64#32) ∧
  (∀ (s : State) (g : BitVec 24) (b : Nat), requestsLoop s b → 16 * (s.inLen / 9) ≤ s.cap.pcmCap →
    ∃ t, exec (.convert g) s = .next t ∧
      ((t.regs.flag .looped = true ∧ t.regs.flag .err = false) ∨
        (t.regs.flag .looped = false ∧ (t.regs.error = 0x0203#16 ∨ t.regs.error = 0x0002#16)))) ∧
  ∀ (s t : State) (g : BitVec 24), exec (.convert g) s = .next t →
    (t.regs.error = 0x0203#16 → ∃ b r : Nat, requestsLoop s b ∧ 1 ≤ r ∧ r < 64 ∧
      (∀ r', 1 ≤ r' → r' ≤ r → roundFails s b r') ∧
      (roundStream s b (r - 1)).length ≤ s.cap.pcmCap ∧ s.cap.pcmCap < (roundStream s b r).length ∧
      t.regs.errInfo = BitVec.ofNat 32 (roundStream s b r).length) ∧
    (t.regs.error = 0x0002#16 → ∃ b : Nat, requestsLoop s b ∧ (∀ r, 1 ≤ r → r ≤ 64 → roundFails s b r) ∧
      (roundStream s b 63).length ≤ s.cap.pcmCap ∧ t.regs.errInfo = 64#32)

/-- 44_host_commands.md (R263, R267), 60_exceptions.md (R304, R311): a CONVERT that raised leaves its six results and
LOOPED 0; whatever the outcome it writes neither HIST, BLK_OFS, BLK_CTRL, OUT_BLK, EXT80 nor the other registers, nor the
BRR memory. -/
def Obligations.ConvertFrame : Prop :=
  ∀ (s t : State) (g : BitVec 24), exec (.convert g) s = .next t →
    (t.regs.flag .err = true →
      t.regs.blockCount = 0#32 ∧ t.regs.sampleCount = 0#32 ∧ t.regs.baseLoopLen = 0#32 ∧ t.regs.loopStart = 0#32 ∧
      t.regs.loopLen = 0#32 ∧ t.regs.rounds = 0#32 ∧ t.regs.flag .looped = false) ∧
    t.regs = { s.regs with
      cmd := g ++ 0x02#8, status := t.regs.status, error := t.regs.error, errInfo := t.regs.errInfo,
      blockCount := t.regs.blockCount, sampleCount := t.regs.sampleCount, baseLoopLen := t.regs.baseLoopLen,
      loopStart := t.regs.loopStart, loopLen := t.regs.loopLen, rounds := t.regs.rounds } ∧
    keepsBrr s t

/-- 42_loop_convergence.md (R206, R214, R215): the laws of a resolved loop, for PCM memories whose lengths fit the
registers: LOOP_LEN is k times the nominal length with 1 <= k <= ROUNDS <= 64, the loop ends at the stream's end and
starts no earlier than the loop block, and the stream is the initial pass and ROUNDS - 1 growth passes. -/
def Obligations.ResolvedLoopLaws : Prop :=
  ∀ (s t : State) (g : BitVec 24), s.cap.pcmCap < 2 ^ 32 → exec (.convert g) s = .next t →
    t.regs.flag .looped = true →
    ∃ b k : Nat, requestsLoop s b ∧ 1 ≤ k ∧ k ≤ t.regs.rounds.toNat ∧ t.regs.rounds.toNat ≤ 64 ∧
      t.regs.blockCount.toNat = s.inLen / 9 ∧
      t.regs.baseLoopLen.toNat = 16 * (s.inLen / 9 - b) ∧
      t.regs.loopLen.toNat = k * t.regs.baseLoopLen.toNat ∧
      t.regs.loopStart.toNat + t.regs.loopLen.toNat = t.regs.sampleCount.toNat ∧
      16 * b ≤ t.regs.loopStart.toNat ∧
      t.regs.sampleCount.toNat = 16 * (s.inLen / 9) + (t.regs.rounds.toNat - 1) * t.regs.baseLoopLen.toNat ∧
      t.regs.sampleCount.toNat ≤ s.cap.pcmCap

/-- 42_loop_convergence.md (R205 to R214, R216, R219): a loop resolves at its first match, and only there. When round r is
the first with a match and candidate k its nearest one, CONVERT resolves with their results (a stream whose length does not
fit 32 bits apart, log 10). Conversely the PCM memory of a resolved loop holds the stream of round ROUNDS, in which the
candidate LOOP_LEN before the end equals the probe of the loop block and no nearer one does; in every earlier round no
candidate did. -/
def Obligations.ResolvedLoopIsFirstMatch : Prop :=
  (∀ (s : State) (g : BitVec 24) (b r k : Nat), requestsLoop s b → loopResolves s b r k →
    (roundStream s b (r - 1)).length < 2 ^ 32 →
    ∃ t, exec (.convert g) s = .next t ∧
      t.regs = endedRegs (g ++ 0x02#8) (0x05#5 ||| (if s.headerOverridden 0 then 0x08#5 else 0#5)) 0#16 0#32
        { s.regs with
          blockCount := BitVec.ofNat 32 (s.inLen / 9)
          sampleCount := BitVec.ofNat 32 (roundStream s b (r - 1)).length
          baseLoopLen := BitVec.ofNat 32 (16 * (s.inLen / 9 - b))
          loopStart := BitVec.ofNat 32 ((roundStream s b (r - 1)).length - k * (16 * (s.inLen / 9 - b)))
          loopLen := BitVec.ofNat 32 (k * (16 * (s.inLen / 9 - b)))
          rounds := BitVec.ofNat 32 r } ∧
      (∀ i < (roundStream s b (r - 1)).length, t.pcmRead i = (roundStream s b (r - 1)).getD i 0#16) ∧
      keepsBrr s t) ∧
  ∀ (s t : State) (g : BitVec 24), s.cap.pcmCap < 2 ^ 32 → exec (.convert g) s = .next t →
    t.regs.flag .looped = true →
    ∃ (b k : Nat) (st : List Sample), requestsLoop s b ∧ st = roundStream s b (t.regs.rounds.toNat - 1) ∧
      t.regs.sampleCount.toNat = st.length ∧ (∀ i < st.length, t.pcmRead i = st.getD i 0#16) ∧
      1 ≤ k ∧ k ≤ t.regs.rounds.toNat ∧ t.regs.loopLen.toNat = k * (16 * (s.inLen / 9 - b)) ∧
      t.regs.loopStart.toNat = st.length - k * (16 * (s.inLen / 9 - b)) ∧
      candidateMatches s b st k ∧ (∀ k', 1 ≤ k' → k' < k → ¬ candidateMatches s b st k') ∧
      ∀ r, 1 ≤ r → r < t.regs.rounds.toNat → roundFails s b r

/-- 41_brr_decoder.md §5 (R182, R185), 20_memory.md (R76): after any CONVERT that succeeds, the PCM memory begins with
the pure decode of the blocks in order, threaded from history 0, 0 with the override on block 0: growth rewrites none of
it. -/
def Obligations.SuccessfulConvertHoldsInitialStream : Prop :=
  ∀ (s t : State) (g : BitVec 24), exec (.convert g) s = .next t → t.regs.flag .err = false →
    (initialStream s).length = 16 * (s.inLen / 9) ∧
    ∀ i < 16 * (s.inLen / 9), t.pcmRead i = (initialStream s).getD i 0#16

/-- 44_host_commands.md (R269): a command reads nothing but its operands: from two states that agree on them, it leaves the
same results, flags, ERROR and ERRINFO, and CONVERT the same stream, whatever else the two states hold, whatever commands
ran before in them and whatever CMD[31:8] says. The model's draw counter, which every CONVERT advances, is asked to agree
only where a free value stands: bytes of the PCM memory past the stream or after a raise (log 4), and the lengths of a
stream that does not fit 32 bits (log 10). -/
def Obligations.CommandsReadOnlyTheirOperands : Prop :=
  ∀ (s1 s2 : State) (g1 g2 : BitVec 24), s1.brr = s2.brr → s1.cap = s2.cap → s1.regs.inLen = s2.regs.inLen →
    (∀ t1 t2, exec (.validate g1) s1 = .next t1 → exec (.validate g2) s2 = .next t2 →
      t1.regs.status = t2.regs.status ∧ t1.regs.error = t2.regs.error ∧ t1.regs.errInfo = t2.regs.errInfo ∧
      t1.regs.blockCount = t2.regs.blockCount) ∧
    (∀ t1 t2, s1.regs.loopOfs = s2.regs.loopOfs →
      exec (.convert g1) s1 = .next t1 → exec (.convert g2) s2 = .next t2 →
      t1.regs.status = t2.regs.status ∧ t1.regs.error = t2.regs.error ∧ t1.regs.errInfo = t2.regs.errInfo ∧
      t1.regs.blockCount = t2.regs.blockCount ∧ t1.regs.rounds = t2.regs.rounds ∧
      (s1.draw = s2.draw ∨ t1.regs.flag .err = true ∨ streamLength s1 t1.regs.rounds.toNat < 2 ^ 32 →
        t1.regs.sampleCount = t2.regs.sampleCount ∧ t1.regs.baseLoopLen = t2.regs.baseLoopLen ∧
        t1.regs.loopStart = t2.regs.loopStart ∧ t1.regs.loopLen = t2.regs.loopLen) ∧
      (∀ a, s1.draw = s2.draw ∨ (t1.regs.flag .err = false ∧ a < 2 * streamLength s1 t1.regs.rounds.toNat) →
        t1.pcmByte a = t2.pcmByte a)) ∧
    (∀ t1 t2, s1.regs.blkOfs = s2.regs.blkOfs → s1.regs.blkFirst = s2.regs.blkFirst → s1.regs.hist = s2.regs.hist →
      exec (.decodeBlock g1) s1 = .next t1 → exec (.decodeBlock g2) s2 = .next t2 →
      t1.regs.status = t2.regs.status ∧ t1.regs.error = t2.regs.error ∧ t1.regs.errInfo = t2.regs.errInfo ∧
      (t1.regs.flag .err = false → t1.regs.outBlk = t2.regs.outBlk) ∧ t1.regs.hist = t2.regs.hist) ∧
    (∀ t1 t2, s1.regs.rate = s2.regs.rate →
      exec (.encodeRate g1) s1 = .next t1 → exec (.encodeRate g2) s2 = .next t2 →
      t1.regs.status = t2.regs.status ∧ t1.regs.error = t2.regs.error ∧ t1.regs.errInfo = t2.regs.errInfo ∧
      t1.regs.ext80 = t2.regs.ext80)

/-! ## ENCODE_RATE -/

/-- 43_ext80_encoder.md (R242, R243, R245): for a rate r >= 1 the exponent is 16383 + msb(r) and the mantissa
r x 2^(63 - msb(r)); nothing but EXT80 and the command registers changes. Where sign, exponent and mantissa stand in EXT80
rests on the spec's general knowledge G1 and G2 (log 16). -/
def Obligations.EncodeRateNormalizes : Prop :=
  ∀ (s : State) (g : BitVec 24), s.regs.rate ≠ 0#32 →
    16383 ≤ 16383 + Nat.log2 s.regs.rate.toNat ∧ 16383 + Nat.log2 s.regs.rate.toNat ≤ 16414 ∧
    ∃ t, exec (.encodeRate g) s = .next t ∧
      t.regs = endedRegs (g ++ 0x04#8) 0x01#5 0#16 0#32
        { s.regs with ext80 :=
          0#1 ++ BitVec.ofNat 15 (16383 + Nat.log2 s.regs.rate.toNat) ++
            BitVec.ofNat 64 (s.regs.rate.toNat * 2 ^ (63 - Nat.log2 s.regs.rate.toNat)) } ∧
      t.regs.ext80.getLsbD 63 = true ∧
      keepsRest s t

/-- 43_ext80_encoder.md (R241): a rate of 0 gives ten zero bytes, which rests on the spec's general knowledge G3
(log 16). -/
def Obligations.EncodeRateZero : Prop :=
  ∀ (s : State) (g : BitVec 24), s.regs.rate = 0#32 →
    ∃ t, exec (.encodeRate g) s = .next t ∧
      t.regs = endedRegs (g ++ 0x04#8) 0x01#5 0#16 0#32 { s.regs with ext80 := 0#80 } ∧ keepsRest s t

/-- 43_ext80_encoder.md (R246): for r >= 1 mantissa x 2^(exponent - 16383 - 63) is r exactly. Where the mantissa and the
exponent are read rests on the spec's general knowledge G2 (log 16). -/
def Obligations.EncodedRateIsExact : Prop :=
  ∀ (s t : State) (g : BitVec 24), exec (.encodeRate g) s = .next t → s.regs.rate ≠ 0#32 →
    (t.regs.ext80.extractLsb' 0 64).toNat =
      s.regs.rate.toNat * 2 ^ (16383 + 63 - (t.regs.ext80.extractLsb' 64 15).toNat)

/-- 43_ext80_encoder.md (R247): a larger rate gives a larger 80-bit pattern, 0 the least. That the exponent stands above
the mantissa and that rate 0 is all zeros rests on the spec's general knowledge G2 and G3 (log 16). -/
def Obligations.EncodedRatesKeepOrder : Prop :=
  ∀ (s1 s2 t1 t2 : State) (g1 g2 : BitVec 24), exec (.encodeRate g1) s1 = .next t1 →
    exec (.encodeRate g2) s2 = .next t2 → s1.regs.rate.toNat < s2.regs.rate.toNat →
    t1.regs.ext80.toNat < t2.regs.ext80.toNat

/-- 30_encoding.md §6, 20_memory.md §4 (R114, R80): EXT80_i holds bits 79 - 8i to 72 - 8i, most significant byte first;
OUT_BLKi reads as the sign extension of its sample (R49). -/
def Obligations.ResultRegisterViews : Prop :=
  ∀ r : Regs,
    (∀ i < 10, (r.read (BitVec.ofNat 8 (0x20 + i))).toNat = r.ext80.toNat / 256 ^ (9 - i) % 256) ∧
    (∀ (i : Nat) (hi : i < 16), (r.read (BitVec.ofNat 8 (0x10 + i))).toInt = (r.outBlk[i]).toInt)

/-! ## Rules about the whole machine -/

/-- R72: the core never writes the BRR input memory: only a host write of a byte changes it, and only that byte. -/
def Obligations.OnlyHostWritesBrrMemory : Prop :=
  (∀ (s t : State) (i : Instr), exec i s = .next t → ∀ a, t.brrRead a = s.brrRead a) ∧
  (∀ (s t : State) (a : Nat), step s = .next t → t.brrRead a ≠ s.brrRead a →
    ∃ v rest, s.host = .brrWrite a v :: rest)

/-- 20_memory.md §3 (R77), 10_state.md (R49, R51): only CONVERT touches the PCM memory; only DECODE_BLOCK writes OUT_BLK
and only ENCODE_RATE writes EXT80 (a reset clears the two). -/
def Obligations.ResultsHaveOneWriter : Prop :=
  ∀ s t : State, step s = .next t →
    (∀ a, t.pcmByte a ≠ s.pcmByte a → ∃ (g : BitVec 24) (rest : List HostOp), s.host = .regWrite 0x00#8 (g ++ 0x02#8) :: rest) ∧
    (t.regs.outBlk ≠ s.regs.outBlk → (∃ (g : BitVec 24) (rest : List HostOp),
      s.host = .regWrite 0x00#8 (g ++ 0x03#8) :: rest) ∨ ∃ rest, s.host = .reset :: rest) ∧
    (t.regs.ext80 ≠ s.regs.ext80 → (∃ (g : BitVec 24) (rest : List HostOp),
      s.host = .regWrite 0x00#8 (g ++ 0x04#8) :: rest) ∨ ∃ rest, s.host = .reset :: rest)

/-- The invariant holds at reset. -/
def Obligations.ResetMeetsInvariant : Prop := State.reset.Inv

/-- The invariant of Safety.lean is kept by every step: both memories stay in canonical form and inside their sizes, the
flags and the error registers agree (R35, R36, R261, R301, R303), ROUNDS stays within 64 (R45) and the sign of the
extended float 0 (R244). -/
def Obligations.EveryStepKeepsInvariant : Prop :=
  ∀ s t : State, s.Inv → step s = .next t → t.Inv
end

