-- ==== Sys2Proof/Laws/State.lean ====
section
/-! SUPPORT. One lemma per field per update of State and of its registers, each true by rfl, so that no later proof
unfolds a record update. -/

namespace Sys2Proof.Machine


/-! ### `Regs.setFlag` -/

@[simp] theorem Regs.setFlag_cmd (f : Flag) (r : Regs) : (r.setFlag f).cmd = r.cmd := rfl
@[simp] theorem Regs.setFlag_status (f : Flag) (r : Regs) : (r.setFlag f).status = r.status ||| f.mask := rfl
@[simp] theorem Regs.setFlag_error (f : Flag) (r : Regs) : (r.setFlag f).error = r.error := rfl
@[simp] theorem Regs.setFlag_errInfo (f : Flag) (r : Regs) : (r.setFlag f).errInfo = r.errInfo := rfl
@[simp] theorem Regs.setFlag_inLen (f : Flag) (r : Regs) : (r.setFlag f).inLen = r.inLen := rfl
@[simp] theorem Regs.setFlag_loopOfs (f : Flag) (r : Regs) : (r.setFlag f).loopOfs = r.loopOfs := rfl
@[simp] theorem Regs.setFlag_rate (f : Flag) (r : Regs) : (r.setFlag f).rate = r.rate := rfl
@[simp] theorem Regs.setFlag_blkOfs (f : Flag) (r : Regs) : (r.setFlag f).blkOfs = r.blkOfs := rfl
@[simp] theorem Regs.setFlag_blkFirst (f : Flag) (r : Regs) : (r.setFlag f).blkFirst = r.blkFirst := rfl
@[simp] theorem Regs.setFlag_hist (f : Flag) (r : Regs) : (r.setFlag f).hist = r.hist := rfl
@[simp] theorem Regs.setFlag_blockCount (f : Flag) (r : Regs) : (r.setFlag f).blockCount = r.blockCount := rfl
@[simp] theorem Regs.setFlag_sampleCount (f : Flag) (r : Regs) : (r.setFlag f).sampleCount = r.sampleCount := rfl
@[simp] theorem Regs.setFlag_baseLoopLen (f : Flag) (r : Regs) : (r.setFlag f).baseLoopLen = r.baseLoopLen := rfl
@[simp] theorem Regs.setFlag_loopStart (f : Flag) (r : Regs) : (r.setFlag f).loopStart = r.loopStart := rfl
@[simp] theorem Regs.setFlag_loopLen (f : Flag) (r : Regs) : (r.setFlag f).loopLen = r.loopLen := rfl
@[simp] theorem Regs.setFlag_rounds (f : Flag) (r : Regs) : (r.setFlag f).rounds = r.rounds := rfl
@[simp] theorem Regs.setFlag_outBlk (f : Flag) (r : Regs) : (r.setFlag f).outBlk = r.outBlk := rfl
@[simp] theorem Regs.setFlag_ext80 (f : Flag) (r : Regs) : (r.setFlag f).ext80 = r.ext80 := rfl

/-! ### `Regs.beginCommand` -/

@[simp] theorem Regs.beginCommand_cmd (w : Word) (r : Regs) : (r.beginCommand w).cmd = w := rfl
@[simp] theorem Regs.beginCommand_status (w : Word) (r : Regs) : (r.beginCommand w).status = 0#5 := rfl
@[simp] theorem Regs.beginCommand_error (w : Word) (r : Regs) : (r.beginCommand w).error = 0#16 := rfl
@[simp] theorem Regs.beginCommand_errInfo (w : Word) (r : Regs) : (r.beginCommand w).errInfo = 0#32 := rfl
@[simp] theorem Regs.beginCommand_inLen (w : Word) (r : Regs) : (r.beginCommand w).inLen = r.inLen := rfl
@[simp] theorem Regs.beginCommand_loopOfs (w : Word) (r : Regs) : (r.beginCommand w).loopOfs = r.loopOfs := rfl
@[simp] theorem Regs.beginCommand_rate (w : Word) (r : Regs) : (r.beginCommand w).rate = r.rate := rfl
@[simp] theorem Regs.beginCommand_blkOfs (w : Word) (r : Regs) : (r.beginCommand w).blkOfs = r.blkOfs := rfl
@[simp] theorem Regs.beginCommand_blkFirst (w : Word) (r : Regs) : (r.beginCommand w).blkFirst = r.blkFirst := rfl
@[simp] theorem Regs.beginCommand_hist (w : Word) (r : Regs) : (r.beginCommand w).hist = r.hist := rfl
@[simp] theorem Regs.beginCommand_blockCount (w : Word) (r : Regs) : (r.beginCommand w).blockCount = r.blockCount := rfl
@[simp] theorem Regs.beginCommand_sampleCount (w : Word) (r : Regs) : (r.beginCommand w).sampleCount = r.sampleCount := rfl
@[simp] theorem Regs.beginCommand_baseLoopLen (w : Word) (r : Regs) : (r.beginCommand w).baseLoopLen = r.baseLoopLen := rfl
@[simp] theorem Regs.beginCommand_loopStart (w : Word) (r : Regs) : (r.beginCommand w).loopStart = r.loopStart := rfl
@[simp] theorem Regs.beginCommand_loopLen (w : Word) (r : Regs) : (r.beginCommand w).loopLen = r.loopLen := rfl
@[simp] theorem Regs.beginCommand_rounds (w : Word) (r : Regs) : (r.beginCommand w).rounds = r.rounds := rfl
@[simp] theorem Regs.beginCommand_outBlk (w : Word) (r : Regs) : (r.beginCommand w).outBlk = r.outBlk := rfl
@[simp] theorem Regs.beginCommand_ext80 (w : Word) (r : Regs) : (r.beginCommand w).ext80 = r.ext80 := rfl

/-! ### `Regs.clearResults` -/

@[simp] theorem Regs.clearResults_cmd (r : Regs) : (r.clearResults).cmd = r.cmd := rfl
@[simp] theorem Regs.clearResults_status (r : Regs) : (r.clearResults).status = r.status := rfl
@[simp] theorem Regs.clearResults_error (r : Regs) : (r.clearResults).error = r.error := rfl
@[simp] theorem Regs.clearResults_errInfo (r : Regs) : (r.clearResults).errInfo = r.errInfo := rfl
@[simp] theorem Regs.clearResults_inLen (r : Regs) : (r.clearResults).inLen = r.inLen := rfl
@[simp] theorem Regs.clearResults_loopOfs (r : Regs) : (r.clearResults).loopOfs = r.loopOfs := rfl
@[simp] theorem Regs.clearResults_rate (r : Regs) : (r.clearResults).rate = r.rate := rfl
@[simp] theorem Regs.clearResults_blkOfs (r : Regs) : (r.clearResults).blkOfs = r.blkOfs := rfl
@[simp] theorem Regs.clearResults_blkFirst (r : Regs) : (r.clearResults).blkFirst = r.blkFirst := rfl
@[simp] theorem Regs.clearResults_hist (r : Regs) : (r.clearResults).hist = r.hist := rfl
@[simp] theorem Regs.clearResults_blockCount (r : Regs) : (r.clearResults).blockCount = 0#32 := rfl
@[simp] theorem Regs.clearResults_sampleCount (r : Regs) : (r.clearResults).sampleCount = 0#32 := rfl
@[simp] theorem Regs.clearResults_baseLoopLen (r : Regs) : (r.clearResults).baseLoopLen = 0#32 := rfl
@[simp] theorem Regs.clearResults_loopStart (r : Regs) : (r.clearResults).loopStart = 0#32 := rfl
@[simp] theorem Regs.clearResults_loopLen (r : Regs) : (r.clearResults).loopLen = 0#32 := rfl
@[simp] theorem Regs.clearResults_rounds (r : Regs) : (r.clearResults).rounds = 0#32 := rfl
@[simp] theorem Regs.clearResults_outBlk (r : Regs) : (r.clearResults).outBlk = r.outBlk := rfl
@[simp] theorem Regs.clearResults_ext80 (r : Regs) : (r.clearResults).ext80 = r.ext80 := rfl

/-! ### `Regs.raise` -/

@[simp] theorem Regs.raise_cmd (e : Raise) (r : Regs) : (r.raise e).cmd = r.cmd := rfl
@[simp] theorem Regs.raise_status (e : Raise) (r : Regs) : (r.raise e).status = r.status ||| Flag.mask .err ||| Flag.mask .done := rfl
@[simp] theorem Regs.raise_error (e : Raise) (r : Regs) : (r.raise e).error = e.sub ++ e.kind.code := rfl
@[simp] theorem Regs.raise_errInfo (e : Raise) (r : Regs) : (r.raise e).errInfo = e.info := rfl
@[simp] theorem Regs.raise_inLen (e : Raise) (r : Regs) : (r.raise e).inLen = r.inLen := rfl
@[simp] theorem Regs.raise_loopOfs (e : Raise) (r : Regs) : (r.raise e).loopOfs = r.loopOfs := rfl
@[simp] theorem Regs.raise_rate (e : Raise) (r : Regs) : (r.raise e).rate = r.rate := rfl
@[simp] theorem Regs.raise_blkOfs (e : Raise) (r : Regs) : (r.raise e).blkOfs = r.blkOfs := rfl
@[simp] theorem Regs.raise_blkFirst (e : Raise) (r : Regs) : (r.raise e).blkFirst = r.blkFirst := rfl
@[simp] theorem Regs.raise_hist (e : Raise) (r : Regs) : (r.raise e).hist = r.hist := rfl
@[simp] theorem Regs.raise_blockCount (e : Raise) (r : Regs) : (r.raise e).blockCount = r.blockCount := rfl
@[simp] theorem Regs.raise_sampleCount (e : Raise) (r : Regs) : (r.raise e).sampleCount = r.sampleCount := rfl
@[simp] theorem Regs.raise_baseLoopLen (e : Raise) (r : Regs) : (r.raise e).baseLoopLen = r.baseLoopLen := rfl
@[simp] theorem Regs.raise_loopStart (e : Raise) (r : Regs) : (r.raise e).loopStart = r.loopStart := rfl
@[simp] theorem Regs.raise_loopLen (e : Raise) (r : Regs) : (r.raise e).loopLen = r.loopLen := rfl
@[simp] theorem Regs.raise_rounds (e : Raise) (r : Regs) : (r.raise e).rounds = r.rounds := rfl
@[simp] theorem Regs.raise_outBlk (e : Raise) (r : Regs) : (r.raise e).outBlk = r.outBlk := rfl
@[simp] theorem Regs.raise_ext80 (e : Raise) (r : Regs) : (r.raise e).ext80 = r.ext80 := rfl

/-! ### `Regs.setFlagIf` -/

@[simp] theorem Regs.setFlagIf_true (f : Flag) (r : Regs) : r.setFlagIf f true = r.setFlag f := rfl
@[simp] theorem Regs.setFlagIf_false (f : Flag) (r : Regs) : r.setFlagIf f false = r := rfl
@[simp] theorem Regs.setFlagIf_cmd (f : Flag) (c : Bool) (r : Regs) : (r.setFlagIf f c).cmd = r.cmd := by
  cases c <;> rfl
@[simp] theorem Regs.setFlagIf_error (f : Flag) (c : Bool) (r : Regs) : (r.setFlagIf f c).error = r.error := by
  cases c <;> rfl
@[simp] theorem Regs.setFlagIf_errInfo (f : Flag) (c : Bool) (r : Regs) : (r.setFlagIf f c).errInfo = r.errInfo := by
  cases c <;> rfl
@[simp] theorem Regs.setFlagIf_inLen (f : Flag) (c : Bool) (r : Regs) : (r.setFlagIf f c).inLen = r.inLen := by
  cases c <;> rfl
@[simp] theorem Regs.setFlagIf_loopOfs (f : Flag) (c : Bool) (r : Regs) : (r.setFlagIf f c).loopOfs = r.loopOfs := by
  cases c <;> rfl
@[simp] theorem Regs.setFlagIf_rate (f : Flag) (c : Bool) (r : Regs) : (r.setFlagIf f c).rate = r.rate := by
  cases c <;> rfl
@[simp] theorem Regs.setFlagIf_blkOfs (f : Flag) (c : Bool) (r : Regs) : (r.setFlagIf f c).blkOfs = r.blkOfs := by
  cases c <;> rfl
@[simp] theorem Regs.setFlagIf_blkFirst (f : Flag) (c : Bool) (r : Regs) : (r.setFlagIf f c).blkFirst = r.blkFirst := by
  cases c <;> rfl
@[simp] theorem Regs.setFlagIf_hist (f : Flag) (c : Bool) (r : Regs) : (r.setFlagIf f c).hist = r.hist := by
  cases c <;> rfl
@[simp] theorem Regs.setFlagIf_blockCount (f : Flag) (c : Bool) (r : Regs) : (r.setFlagIf f c).blockCount = r.blockCount := by
  cases c <;> rfl
@[simp] theorem Regs.setFlagIf_sampleCount (f : Flag) (c : Bool) (r : Regs) : (r.setFlagIf f c).sampleCount = r.sampleCount := by
  cases c <;> rfl
@[simp] theorem Regs.setFlagIf_baseLoopLen (f : Flag) (c : Bool) (r : Regs) : (r.setFlagIf f c).baseLoopLen = r.baseLoopLen := by
  cases c <;> rfl
@[simp] theorem Regs.setFlagIf_loopStart (f : Flag) (c : Bool) (r : Regs) : (r.setFlagIf f c).loopStart = r.loopStart := by
  cases c <;> rfl
@[simp] theorem Regs.setFlagIf_loopLen (f : Flag) (c : Bool) (r : Regs) : (r.setFlagIf f c).loopLen = r.loopLen := by
  cases c <;> rfl
@[simp] theorem Regs.setFlagIf_rounds (f : Flag) (c : Bool) (r : Regs) : (r.setFlagIf f c).rounds = r.rounds := by
  cases c <;> rfl
@[simp] theorem Regs.setFlagIf_outBlk (f : Flag) (c : Bool) (r : Regs) : (r.setFlagIf f c).outBlk = r.outBlk := by
  cases c <;> rfl
@[simp] theorem Regs.setFlagIf_ext80 (f : Flag) (c : Bool) (r : Regs) : (r.setFlagIf f c).ext80 = r.ext80 := by
  cases c <;> rfl

/-! ### `State.onRegs` -/

@[simp] theorem State.onRegs_regs (f : Regs → Regs) (s : State) : (s.onRegs f).regs = f s.regs := rfl
@[simp] theorem State.onRegs_hid (f : Regs → Regs) (s : State) : (s.onRegs f).hid = s.hid := rfl
@[simp] theorem State.onRegs_brr (f : Regs → Regs) (s : State) : (s.onRegs f).brr = s.brr := rfl
@[simp] theorem State.onRegs_pcm (f : Regs → Regs) (s : State) : (s.onRegs f).pcm = s.pcm := rfl
@[simp] theorem State.onRegs_cap (f : Regs → Regs) (s : State) : (s.onRegs f).cap = s.cap := rfl
@[simp] theorem State.onRegs_client (f : Regs → Regs) (s : State) : (s.onRegs f).client = s.client := rfl
@[simp] theorem State.onRegs_draw (f : Regs → Regs) (s : State) : (s.onRegs f).draw = s.draw := rfl
@[simp] theorem State.onRegs_host (f : Regs → Regs) (s : State) : (s.onRegs f).host = s.host := rfl
@[simp] theorem State.onRegs_resp (f : Regs → Regs) (s : State) : (s.onRegs f).resp = s.resp := rfl

/-! ### `State.onHid` -/

@[simp] theorem State.onHid_regs (f : Hidden → Hidden) (s : State) : (s.onHid f).regs = s.regs := rfl
@[simp] theorem State.onHid_hid (f : Hidden → Hidden) (s : State) : (s.onHid f).hid = f s.hid := rfl
@[simp] theorem State.onHid_brr (f : Hidden → Hidden) (s : State) : (s.onHid f).brr = s.brr := rfl
@[simp] theorem State.onHid_pcm (f : Hidden → Hidden) (s : State) : (s.onHid f).pcm = s.pcm := rfl
@[simp] theorem State.onHid_cap (f : Hidden → Hidden) (s : State) : (s.onHid f).cap = s.cap := rfl
@[simp] theorem State.onHid_client (f : Hidden → Hidden) (s : State) : (s.onHid f).client = s.client := rfl
@[simp] theorem State.onHid_draw (f : Hidden → Hidden) (s : State) : (s.onHid f).draw = s.draw := rfl
@[simp] theorem State.onHid_host (f : Hidden → Hidden) (s : State) : (s.onHid f).host = s.host := rfl
@[simp] theorem State.onHid_resp (f : Hidden → Hidden) (s : State) : (s.onHid f).resp = s.resp := rfl

/-! ### `State.beginCommand` -/

@[simp] theorem State.beginCommand_regs (w : Word) (s : State) : (s.beginCommand w).regs = s.regs.beginCommand w := rfl
@[simp] theorem State.beginCommand_hid (w : Word) (s : State) : (s.beginCommand w).hid = s.hid := rfl
@[simp] theorem State.beginCommand_brr (w : Word) (s : State) : (s.beginCommand w).brr = s.brr := rfl
@[simp] theorem State.beginCommand_pcm (w : Word) (s : State) : (s.beginCommand w).pcm = s.pcm := rfl
@[simp] theorem State.beginCommand_cap (w : Word) (s : State) : (s.beginCommand w).cap = s.cap := rfl
@[simp] theorem State.beginCommand_client (w : Word) (s : State) : (s.beginCommand w).client = s.client := rfl
@[simp] theorem State.beginCommand_draw (w : Word) (s : State) : (s.beginCommand w).draw = s.draw := rfl
@[simp] theorem State.beginCommand_host (w : Word) (s : State) : (s.beginCommand w).host = s.host := rfl
@[simp] theorem State.beginCommand_resp (w : Word) (s : State) : (s.beginCommand w).resp = s.resp := rfl

/-! ### `State.finish` -/

@[simp] theorem State.finish_regs (s : State) : (s.finish).regs = s.regs.setFlag .done := rfl
@[simp] theorem State.finish_hid (s : State) : (s.finish).hid = s.hid := rfl
@[simp] theorem State.finish_brr (s : State) : (s.finish).brr = s.brr := rfl
@[simp] theorem State.finish_pcm (s : State) : (s.finish).pcm = s.pcm := rfl
@[simp] theorem State.finish_cap (s : State) : (s.finish).cap = s.cap := rfl
@[simp] theorem State.finish_client (s : State) : (s.finish).client = s.client := rfl
@[simp] theorem State.finish_draw (s : State) : (s.finish).draw = s.draw := rfl
@[simp] theorem State.finish_host (s : State) : (s.finish).host = s.host := rfl
@[simp] theorem State.finish_resp (s : State) : (s.finish).resp = s.resp := rfl

/-! ### `State.raise` -/

@[simp] theorem State.raise_regs (e : Raise) (s : State) : (s.raise e).regs = s.regs.raise e := rfl
@[simp] theorem State.raise_hid (e : Raise) (s : State) : (s.raise e).hid = s.hid := rfl
@[simp] theorem State.raise_brr (e : Raise) (s : State) : (s.raise e).brr = s.brr := rfl
@[simp] theorem State.raise_pcm (e : Raise) (s : State) : (s.raise e).pcm = s.pcm := rfl
@[simp] theorem State.raise_cap (e : Raise) (s : State) : (s.raise e).cap = s.cap := rfl
@[simp] theorem State.raise_client (e : Raise) (s : State) : (s.raise e).client = s.client := rfl
@[simp] theorem State.raise_draw (e : Raise) (s : State) : (s.raise e).draw = s.draw := rfl
@[simp] theorem State.raise_host (e : Raise) (s : State) : (s.raise e).host = s.host := rfl
@[simp] theorem State.raise_resp (e : Raise) (s : State) : (s.raise e).resp = s.resp := rfl

/-! ### `State.warnIf` -/

@[simp] theorem State.warnIf_regs (f : Flag) (c : Bool) (s : State) : (s.warnIf f c).regs = s.regs.setFlagIf f c := rfl
@[simp] theorem State.warnIf_hid (f : Flag) (c : Bool) (s : State) : (s.warnIf f c).hid = s.hid := rfl
@[simp] theorem State.warnIf_brr (f : Flag) (c : Bool) (s : State) : (s.warnIf f c).brr = s.brr := rfl
@[simp] theorem State.warnIf_pcm (f : Flag) (c : Bool) (s : State) : (s.warnIf f c).pcm = s.pcm := rfl
@[simp] theorem State.warnIf_cap (f : Flag) (c : Bool) (s : State) : (s.warnIf f c).cap = s.cap := rfl
@[simp] theorem State.warnIf_client (f : Flag) (c : Bool) (s : State) : (s.warnIf f c).client = s.client := rfl
@[simp] theorem State.warnIf_draw (f : Flag) (c : Bool) (s : State) : (s.warnIf f c).draw = s.draw := rfl
@[simp] theorem State.warnIf_host (f : Flag) (c : Bool) (s : State) : (s.warnIf f c).host = s.host := rfl
@[simp] theorem State.warnIf_resp (f : Flag) (c : Bool) (s : State) : (s.warnIf f c).resp = s.resp := rfl

/-! ### `State.brrWrite` -/

@[simp] theorem State.brrWrite_regs (a : Nat) (v : Byte) (s : State) : (s.brrWrite a v).regs = s.regs := rfl
@[simp] theorem State.brrWrite_hid (a : Nat) (v : Byte) (s : State) : (s.brrWrite a v).hid = s.hid := rfl
@[simp] theorem State.brrWrite_brr (a : Nat) (v : Byte) (s : State) : (s.brrWrite a v).brr = Memory.set s.brr a v := rfl
@[simp] theorem State.brrWrite_pcm (a : Nat) (v : Byte) (s : State) : (s.brrWrite a v).pcm = s.pcm := rfl
@[simp] theorem State.brrWrite_cap (a : Nat) (v : Byte) (s : State) : (s.brrWrite a v).cap = s.cap := rfl
@[simp] theorem State.brrWrite_client (a : Nat) (v : Byte) (s : State) : (s.brrWrite a v).client = s.client := rfl
@[simp] theorem State.brrWrite_draw (a : Nat) (v : Byte) (s : State) : (s.brrWrite a v).draw = s.draw := rfl
@[simp] theorem State.brrWrite_host (a : Nat) (v : Byte) (s : State) : (s.brrWrite a v).host = s.host := rfl
@[simp] theorem State.brrWrite_resp (a : Nat) (v : Byte) (s : State) : (s.brrWrite a v).resp = s.resp := rfl

/-! ### `State.respond` -/

@[simp] theorem State.respond_regs (r : HostResp) (s : State) : (s.respond r).regs = s.regs := rfl
@[simp] theorem State.respond_hid (r : HostResp) (s : State) : (s.respond r).hid = s.hid := rfl
@[simp] theorem State.respond_brr (r : HostResp) (s : State) : (s.respond r).brr = s.brr := rfl
@[simp] theorem State.respond_pcm (r : HostResp) (s : State) : (s.respond r).pcm = s.pcm := rfl
@[simp] theorem State.respond_cap (r : HostResp) (s : State) : (s.respond r).cap = s.cap := rfl
@[simp] theorem State.respond_client (r : HostResp) (s : State) : (s.respond r).client = s.client := rfl
@[simp] theorem State.respond_draw (r : HostResp) (s : State) : (s.respond r).draw = s.draw := rfl
@[simp] theorem State.respond_host (r : HostResp) (s : State) : (s.respond r).host = s.host := rfl
@[simp] theorem State.respond_resp (r : HostResp) (s : State) : (s.respond r).resp = s.resp ++ [r] := rfl

/-! ### `validateStart` -/

@[simp] theorem validateStart_regs (g : BitVec 24) (s : State) : (validateStart g s).regs = { s.regs.beginCommand (commandWord g 1#8) with blockCount := 0#32 } := rfl
@[simp] theorem validateStart_hid (g : BitVec 24) (s : State) : (validateStart g s).hid = s.hid := rfl
@[simp] theorem validateStart_brr (g : BitVec 24) (s : State) : (validateStart g s).brr = s.brr := rfl
@[simp] theorem validateStart_pcm (g : BitVec 24) (s : State) : (validateStart g s).pcm = s.pcm := rfl
@[simp] theorem validateStart_cap (g : BitVec 24) (s : State) : (validateStart g s).cap = s.cap := rfl
@[simp] theorem validateStart_client (g : BitVec 24) (s : State) : (validateStart g s).client = s.client := rfl
@[simp] theorem validateStart_draw (g : BitVec 24) (s : State) : (validateStart g s).draw = s.draw := rfl
@[simp] theorem validateStart_host (g : BitVec 24) (s : State) : (validateStart g s).host = s.host := rfl
@[simp] theorem validateStart_resp (g : BitVec 24) (s : State) : (validateStart g s).resp = s.resp := rfl

/-! ### `decodeBlockStart` -/

@[simp] theorem decodeBlockStart_regs (g : BitVec 24) (s : State) : (decodeBlockStart g s).regs = s.regs.beginCommand (commandWord g 3#8) := rfl
@[simp] theorem decodeBlockStart_hid (g : BitVec 24) (s : State) : (decodeBlockStart g s).hid = s.hid := rfl
@[simp] theorem decodeBlockStart_brr (g : BitVec 24) (s : State) : (decodeBlockStart g s).brr = s.brr := rfl
@[simp] theorem decodeBlockStart_pcm (g : BitVec 24) (s : State) : (decodeBlockStart g s).pcm = s.pcm := rfl
@[simp] theorem decodeBlockStart_cap (g : BitVec 24) (s : State) : (decodeBlockStart g s).cap = s.cap := rfl
@[simp] theorem decodeBlockStart_client (g : BitVec 24) (s : State) : (decodeBlockStart g s).client = .command := rfl
@[simp] theorem decodeBlockStart_draw (g : BitVec 24) (s : State) : (decodeBlockStart g s).draw = s.draw := rfl
@[simp] theorem decodeBlockStart_host (g : BitVec 24) (s : State) : (decodeBlockStart g s).host = s.host := rfl
@[simp] theorem decodeBlockStart_resp (g : BitVec 24) (s : State) : (decodeBlockStart g s).resp = s.resp := rfl

/-! ### `convertStart` -/

@[simp] theorem convertStart_regs (g : BitVec 24) (s : State) : (convertStart g s).regs = (s.regs.beginCommand (commandWord g 2#8)).clearResults := rfl
@[simp] theorem convertStart_hid (g : BitVec 24) (s : State) : (convertStart g s).hid = s.hid := rfl
@[simp] theorem convertStart_brr (g : BitVec 24) (s : State) : (convertStart g s).brr = s.brr := rfl
@[simp] theorem convertStart_pcm (g : BitVec 24) (s : State) : (convertStart g s).pcm = [] := rfl
@[simp] theorem convertStart_cap (g : BitVec 24) (s : State) : (convertStart g s).cap = s.cap := rfl
@[simp] theorem convertStart_client (g : BitVec 24) (s : State) : (convertStart g s).client = s.client := rfl
@[simp] theorem convertStart_draw (g : BitVec 24) (s : State) : (convertStart g s).draw = s.draw + 1 := rfl
@[simp] theorem convertStart_host (g : BitVec 24) (s : State) : (convertStart g s).host = s.host := rfl
@[simp] theorem convertStart_resp (g : BitVec 24) (s : State) : (convertStart g s).resp = s.resp := rfl

/-! ### Where a pass and the rounds start -/

@[simp] theorem initialPassStart_regs (n : Nat) (s : State) : (initialPassStart n s).regs = s.regs := rfl
@[simp] theorem initialPassStart_brr (n : Nat) (s : State) : (initialPassStart n s).brr = s.brr := rfl
@[simp] theorem initialPassStart_pcm (n : Nat) (s : State) : (initialPassStart n s).pcm = s.pcm := rfl
@[simp] theorem initialPassStart_cap (n : Nat) (s : State) : (initialPassStart n s).cap = s.cap := rfl
@[simp] theorem initialPassStart_client (n : Nat) (s : State) : (initialPassStart n s).client = .stream := rfl
@[simp] theorem initialPassStart_draw (n : Nat) (s : State) : (initialPassStart n s).draw = s.draw := rfl
@[simp] theorem initialPassStart_host (n : Nat) (s : State) : (initialPassStart n s).host = s.host := rfl
@[simp] theorem initialPassStart_resp (n : Nat) (s : State) : (initialPassStart n s).resp = s.resp := rfl
@[simp] theorem initialPassStart_hid_hp (n : Nat) (s : State) :
    (initialPassStart n s).hid.hp = 0#16 := rfl
@[simp] theorem initialPassStart_hid_hpp (n : Nat) (s : State) :
    (initialPassStart n s).hid.hpp = 0#16 := rfl
@[simp] theorem initialPassStart_hid_len (n : Nat) (s : State) :
    (initialPassStart n s).hid.len = 0 := rfl
@[simp] theorem initialPassStart_hid_n (n : Nat) (s : State) :
    (initialPassStart n s).hid.n = n := rfl
@[simp] theorem initialPassStart_hid_b (n : Nat) (s : State) :
    (initialPassStart n s).hid.b = s.hid.b := rfl
@[simp] theorem initialPassStart_hid_first (n : Nat) (s : State) :
    (initialPassStart n s).hid.first = s.hid.first := rfl
@[simp] theorem initialPassStart_hid_base (n : Nat) (s : State) :
    (initialPassStart n s).hid.base = s.hid.base := rfl
@[simp] theorem initialPassStart_hid_r (n : Nat) (s : State) :
    (initialPassStart n s).hid.r = s.hid.r := rfl
@[simp] theorem initialPassStart_hid_q0 (n : Nat) (s : State) :
    (initialPassStart n s).hid.q0 = s.hid.q0 := rfl
@[simp] theorem initialPassStart_hid_q1 (n : Nat) (s : State) :
    (initialPassStart n s).hid.q1 = s.hid.q1 := rfl
@[simp] theorem initialPassStart_hid_firstPending (n : Nat) (s : State) :
    (initialPassStart n s).hid.firstPending = true := rfl
@[simp] theorem initialPassStart_hid_cur (n : Nat) (s : State) :
    (initialPassStart n s).hid.cur = s.hid.cur := rfl

@[simp] theorem growthPassStart_regs (s : State) : (growthPassStart s).regs = s.regs := rfl
@[simp] theorem growthPassStart_brr (s : State) : (growthPassStart s).brr = s.brr := rfl
@[simp] theorem growthPassStart_pcm (s : State) : (growthPassStart s).pcm = s.pcm := rfl
@[simp] theorem growthPassStart_cap (s : State) : (growthPassStart s).cap = s.cap := rfl
@[simp] theorem growthPassStart_client (s : State) : (growthPassStart s).client = .stream := rfl
@[simp] theorem growthPassStart_draw (s : State) : (growthPassStart s).draw = s.draw := rfl
@[simp] theorem growthPassStart_host (s : State) : (growthPassStart s).host = s.host := rfl
@[simp] theorem growthPassStart_resp (s : State) : (growthPassStart s).resp = s.resp := rfl
@[simp] theorem growthPassStart_hid_hp (s : State) :
    (growthPassStart s).hid.hp = s.pcmRead (s.hid.len - 1) := rfl
@[simp] theorem growthPassStart_hid_hpp (s : State) :
    (growthPassStart s).hid.hpp = s.pcmRead (s.hid.len - 2) := rfl
@[simp] theorem growthPassStart_hid_len (s : State) :
    (growthPassStart s).hid.len = s.hid.len := rfl
@[simp] theorem growthPassStart_hid_n (s : State) :
    (growthPassStart s).hid.n = s.hid.n := rfl
@[simp] theorem growthPassStart_hid_b (s : State) :
    (growthPassStart s).hid.b = s.hid.b := rfl
@[simp] theorem growthPassStart_hid_first (s : State) :
    (growthPassStart s).hid.first = s.hid.first := rfl
@[simp] theorem growthPassStart_hid_base (s : State) :
    (growthPassStart s).hid.base = s.hid.base := rfl
@[simp] theorem growthPassStart_hid_r (s : State) :
    (growthPassStart s).hid.r = s.hid.r := rfl
@[simp] theorem growthPassStart_hid_q0 (s : State) :
    (growthPassStart s).hid.q0 = s.hid.q0 := rfl
@[simp] theorem growthPassStart_hid_q1 (s : State) :
    (growthPassStart s).hid.q1 = s.hid.q1 := rfl
@[simp] theorem growthPassStart_hid_firstPending (s : State) :
    (growthPassStart s).hid.firstPending = s.hid.firstPending := rfl
@[simp] theorem growthPassStart_hid_cur (s : State) :
    (growthPassStart s).hid.cur = s.hid.cur := rfl

@[simp] theorem convergeStart_regs (b : Nat) (s : State) : (convergeStart b s).regs = s.regs := rfl
@[simp] theorem convergeStart_brr (b : Nat) (s : State) : (convergeStart b s).brr = s.brr := rfl
@[simp] theorem convergeStart_pcm (b : Nat) (s : State) : (convergeStart b s).pcm = s.pcm := rfl
@[simp] theorem convergeStart_cap (b : Nat) (s : State) : (convergeStart b s).cap = s.cap := rfl
@[simp] theorem convergeStart_client (b : Nat) (s : State) : (convergeStart b s).client = s.client := rfl
@[simp] theorem convergeStart_draw (b : Nat) (s : State) : (convergeStart b s).draw = s.draw := rfl
@[simp] theorem convergeStart_host (b : Nat) (s : State) : (convergeStart b s).host = s.host := rfl
@[simp] theorem convergeStart_resp (b : Nat) (s : State) : (convergeStart b s).resp = s.resp := rfl
@[simp] theorem convergeStart_hid_hp (b : Nat) (s : State) :
    (convergeStart b s).hid.hp = s.hid.hp := rfl
@[simp] theorem convergeStart_hid_hpp (b : Nat) (s : State) :
    (convergeStart b s).hid.hpp = s.hid.hpp := rfl
@[simp] theorem convergeStart_hid_len (b : Nat) (s : State) :
    (convergeStart b s).hid.len = s.hid.len := rfl
@[simp] theorem convergeStart_hid_n (b : Nat) (s : State) :
    (convergeStart b s).hid.n = s.hid.n := rfl
@[simp] theorem convergeStart_hid_b (b : Nat) (s : State) :
    (convergeStart b s).hid.b = b := rfl
@[simp] theorem convergeStart_hid_first (b : Nat) (s : State) :
    (convergeStart b s).hid.first = 16 * b := rfl
@[simp] theorem convergeStart_hid_base (b : Nat) (s : State) :
    (convergeStart b s).hid.base = 16 * (s.hid.n - b) := rfl
@[simp] theorem convergeStart_hid_r (b : Nat) (s : State) :
    (convergeStart b s).hid.r = 1 := rfl
@[simp] theorem convergeStart_hid_q0 (b : Nat) (s : State) :
    (convergeStart b s).hid.q0 = s.hid.q0 := rfl
@[simp] theorem convergeStart_hid_q1 (b : Nat) (s : State) :
    (convergeStart b s).hid.q1 = s.hid.q1 := rfl
@[simp] theorem convergeStart_hid_firstPending (b : Nat) (s : State) :
    (convergeStart b s).hid.firstPending = s.hid.firstPending := rfl
@[simp] theorem convergeStart_hid_cur (b : Nat) (s : State) :
    (convergeStart b s).hid.cur = s.hid.cur := rfl

/-! ### `resetCore` -/

@[simp] theorem resetCore_regs (s : State) : (resetCore s).regs = Regs.reset := rfl
@[simp] theorem resetCore_hid (s : State) : (resetCore s).hid = Hidden.reset := rfl
@[simp] theorem resetCore_brr (s : State) : (resetCore s).brr = s.brr := rfl
@[simp] theorem resetCore_pcm (s : State) : (resetCore s).pcm = s.pcm := rfl
@[simp] theorem resetCore_cap (s : State) : (resetCore s).cap = s.cap := rfl
@[simp] theorem resetCore_client (s : State) : (resetCore s).client = .command := rfl
@[simp] theorem resetCore_draw (s : State) : (resetCore s).draw = s.draw := rfl
@[simp] theorem resetCore_host (s : State) : (resetCore s).host = s.host := rfl
@[simp] theorem resetCore_resp (s : State) : (resetCore s).resp = s.resp := rfl

/-! ### Flags and the end of a command -/

/-- The bit each flag stands at (R34). -/
theorem Flag.mask_eq (f : Flag) : f.mask = match f with
    | .done => 0x01#5
    | .err => 0x02#5
    | .looped => 0x04#5
    | .firstHdr => 0x08#5
    | .loopDrop => 0x10#5 := by
  cases f <;> decide

/-- What raising an error writes (R303). -/
theorem Regs.raise_eq (e : Raise) (r : Regs) : r.raise e =
    { r with status := r.status ||| 0x03#5, error := e.sub ++ e.kind.code, errInfo := e.info } := by
  simp only [Regs.raise, Regs.setFlag, BitVec.or_assoc]
  rfl

/-- CODE and SUB of an ERROR value (R35). -/
theorem error_code (sub code : BitVec 8) : (sub ++ code : BitVec 16).extractLsb' 0 8 = code := by
  apply BitVec.eq_of_getLsbD_eq
  intro i hi
  simp only [BitVec.getLsbD_extractLsb', BitVec.getLsbD_append]
  simp [hi]

theorem error_sub (sub code : BitVec 8) : (sub ++ code : BitVec 16).extractLsb' 8 8 = sub := by
  apply BitVec.eq_of_getLsbD_eq
  intro i hi
  simp only [BitVec.getLsbD_extractLsb', BitVec.getLsbD_append]
  simp [hi, show ¬ 8 + i < 8 by omega]

/-- What the end of a command that raised nothing writes (R261). -/
theorem Regs.finish_eq (r : Regs) : r.setFlag .done = { r with status := r.status ||| 0x01#5 } := rfl

/-! ### Sequencing -/

@[simp] theorem andThen_next {α β : Type} (a : α) (f : α → Host.Outcome β Fault Refusal) :
    andThen (.next a) f = f a := rfl

@[simp] theorem andThen_fault {α β : Type} (e : Fault) (f : α → Host.Outcome β Fault Refusal) :
    andThen (.fault e) f = .fault e := rfl

@[simp] theorem andThen_refused {α β : Type} (e : Refusal) (f : α → Host.Outcome β Fault Refusal) :
    andThen (.refused e) f = .refused e := rfl

/-- A sequence answers a next state exactly when both of its parts do. -/
theorem andThen_eq_next {α β : Type} (o : Host.Outcome α Fault Refusal) (f : α → Host.Outcome β Fault Refusal) (b : β) :
    andThen o f = .next b ↔ ∃ a, o = .next a ∧ f a = .next b := by
  cases o <;> simp

end Sys2Proof.Machine
end

