-- ==== Sys2Proof/Laws/Memory.lean ====
section
/-! SUPPORT. The sparse memories: a read after a write, the canonical form and the size kept by every operation, and
what the stream's stores leave. -/

namespace Sys2Proof.Machine

/-! ### One byte -/

@[simp] theorem Memory.get?_set_same (m : List Host.Cell) (a : Nat) (v : Byte) :
    Memory.get? (Memory.set m a v) a = some v := by
  induction m with
  | nil => simp [Memory.set, Memory.get?]
  | cons c m ih =>
    simp only [Memory.set]
    split
    · simp [Memory.get?]
    · split
      · simp [Memory.get?]
      · simp [Memory.get?, *]

theorem Memory.get?_set_ne (m : List Host.Cell) {a b : Nat} (v : Byte) (h : b ≠ a) :
    Memory.get? (Memory.set m a v) b = Memory.get? m b := by
  induction m with
  | nil => simp [Memory.set, Memory.get?, h]
  | cons c m ih =>
    simp only [Memory.set]
    split
    · simp [Memory.get?, h]
    · split
      · rename_i h2
        have : b ≠ c.1 := h2 ▸ h
        simp [Memory.get?, h, this]
      · simp [Memory.get?, ih]

/-! ### The canonical form -/

theorem Memory.risingFrom_set {lo : Nat} {m : List Host.Cell} {a : Nat} (v : Byte) (h : Memory.risingFrom lo m = true)
    (ha : lo ≤ a) : Memory.risingFrom lo (Memory.set m a v) = true := by
  induction m generalizing lo with
  | nil => simp [Memory.set, Memory.risingFrom, ha]
  | cons c m ih =>
    simp only [Memory.risingFrom, Bool.and_eq_true, decide_eq_true_eq] at h
    simp only [Memory.set]
    split
    · simp only [Memory.risingFrom, Bool.and_eq_true, decide_eq_true_eq]
      exact ⟨ha, by omega, h.2⟩
    · split
      · rename_i h2
        simp only [Memory.risingFrom, Bool.and_eq_true, decide_eq_true_eq]
        exact ⟨ha, h2 ▸ h.2⟩
      · simp only [Memory.risingFrom, Bool.and_eq_true, decide_eq_true_eq]
        exact ⟨h.1, ih h.2 (by omega)⟩

/-- A write keeps the canonical form. -/
theorem Memory.wf_set {m : List Host.Cell} (a : Nat) (v : Byte) (h : Memory.wf m = true) :
    Memory.wf (Memory.set m a v) = true :=
  Memory.risingFrom_set v h (Nat.zero_le a)

/-- A write inside the memory keeps every listed address inside it. -/
theorem Memory.below_set {m : List Host.Cell} {size a : Nat} (v : Byte) (h : Memory.below size m = true)
    (ha : a < size) : Memory.below size (Memory.set m a v) = true := by
  induction m with
  | nil => simp [Memory.set, Memory.below, ha]
  | cons c m ih =>
    have hc : c.1 < size ∧ Memory.below size m = true := by simpa [Memory.below] using h
    simp only [Memory.set]
    split
    · simpa [Memory.below, ha] using h
    · split
      · simpa [Memory.below, ha] using hc.2
      · have := ih hc.2
        simpa [Memory.below, hc.1] using this

/-! ### Samples -/

theorem storeSample_get?_hi (m : List Host.Cell) (i : Nat) (v : Sample) :
    Memory.get? (storeSample m i v) (2 * i) = some (v.extractLsb' 8 8) := by
  rw [storeSample, Memory.get?_set_ne _ _ (by omega), Memory.get?_set_same]

theorem storeSample_get?_lo (m : List Host.Cell) (i : Nat) (v : Sample) :
    Memory.get? (storeSample m i v) (2 * i + 1) = some (v.extractLsb' 0 8) := by
  rw [storeSample, Memory.get?_set_same]

/-- A stored sample changes its own two bytes only. -/
theorem storeSample_get?_ne (m : List Host.Cell) {i a : Nat} (v : Sample) (h0 : a ≠ 2 * i) (h1 : a ≠ 2 * i + 1) :
    Memory.get? (storeSample m i v) a = Memory.get? m a := by
  rw [storeSample, Memory.get?_set_ne _ _ h1, Memory.get?_set_ne _ _ h0]

/-- Consecutive stores change the bytes of their own samples only. -/
theorem storeSamples_get?_outside (vs : List Sample) (m : List Host.Cell) (i a : Nat)
    (h : a < 2 * i ∨ 2 * (i + vs.length) ≤ a) : Memory.get? (storeSamples m i vs) a = Memory.get? m a := by
  induction vs generalizing m i with
  | nil => rfl
  | cons v vs ih =>
    simp only [List.length_cons] at h
    rw [storeSamples, ih _ _ (by omega), storeSample_get?_ne _ _ (by omega) (by omega)]

/-- The two bytes of a sample put together again. -/
theorem sample_of_bytes (v : Sample) : v.extractLsb' 8 8 ++ v.extractLsb' 0 8 = v := by
  apply BitVec.eq_of_getLsbD_eq
  intro i hi
  simp only [BitVec.getLsbD_append, BitVec.getLsbD_extractLsb']
  by_cases h : i < 8
  · simp [h]
  · simp [h, show i - 8 < 8 by omega, show 8 + (i - 8) = i by omega]

/-- Each of the consecutive stores can be read back. -/
theorem storeSamples_get?_inside (vs : List Sample) (m : List Host.Cell) (i k : Nat) (h : k < vs.length) :
    Memory.get? (storeSamples m i vs) (2 * (i + k)) = some (vs[k].extractLsb' 8 8) ∧
    Memory.get? (storeSamples m i vs) (2 * (i + k) + 1) = some (vs[k].extractLsb' 0 8) := by
  induction vs generalizing m i k with
  | nil => simp at h
  | cons v vs ih =>
    cases k with
    | zero =>
      simp only [storeSamples, Nat.add_zero, List.getElem_cons_zero]
      rw [storeSamples_get?_outside _ _ _ _ (by omega), storeSamples_get?_outside _ _ _ _ (by omega),
        storeSample_get?_hi, storeSample_get?_lo]
      exact ⟨rfl, rfl⟩
    | succ k =>
      have := ih (storeSample m i v) (i + 1) k (by simpa using h)
      simpa [storeSamples, Nat.add_assoc, Nat.add_comm 1 k] using this

theorem storeSamples_wf {m : List Host.Cell} (i : Nat) (vs : List Sample) (h : Memory.wf m = true) :
    Memory.wf (storeSamples m i vs) = true := by
  induction vs generalizing m i with
  | nil => exact h
  | cons v vs ih => exact ih _ (Memory.wf_set _ _ (Memory.wf_set _ _ h))

theorem storeSamples_below {m : List Host.Cell} {cap : Nat} (i : Nat) (vs : List Sample)
    (h : Memory.below (2 * cap) m = true) (hi : i + vs.length ≤ cap) :
    Memory.below (2 * cap) (storeSamples m i vs) = true := by
  induction vs generalizing m i with
  | nil => exact h
  | cons v vs ih =>
    simp only [List.length_cons] at hi
    exact ih (m := storeSample m i v) _ (Memory.below_set _ (Memory.below_set _ h (by omega)) (by omega)) (by omega)

/-! ### The memories of a state -/

/-- Loading bytes changes the BRR memory only. -/
theorem State.brrLoad_eq (vs : List Byte) (a : Nat) (s : State) :
    ∃ m, s.brrLoad a vs = { s with brr := m } ∧ (Memory.wf s.brr = true → Memory.wf m = true) := by
  induction vs generalizing a s with
  | nil => exact ⟨s.brr, rfl, id⟩
  | cons v vs ih =>
    obtain ⟨m, h, hwf⟩ := ih (a + 1) (s.brrWrite a v)
    exact ⟨m, h, fun w => hwf (Memory.wf_set a v w)⟩

theorem State.brrRead_brrWrite_same (s : State) (a : Nat) (v : Byte) : (s.brrWrite a v).brrRead a = v := by
  simp [State.brrRead]

theorem State.brrRead_brrWrite_ne (s : State) {a b : Nat} (v : Byte) (h : b ≠ a) :
    (s.brrWrite a v).brrRead b = s.brrRead b := by
  simp [State.brrRead, Memory.get?_set_ne _ _ h]

/-- The BRR memory alone decides what BrrRead answers. -/
theorem State.brrRead_congr {s t : State} (h : t.brr = s.brr) (a : Nat) : t.brrRead a = s.brrRead a := by
  simp [State.brrRead, h]

/-- The PCM memory and the draw counter alone decide what a PCM read answers. -/
theorem State.pcmByte_congr {s t : State} (h : t.pcm = s.pcm) (hd : t.draw = s.draw) (a : Nat) :
    t.pcmByte a = s.pcmByte a := by
  simp [State.pcmByte, h, hd]

theorem State.pcmRead_congr {s t : State} (h : t.pcm = s.pcm) (hd : t.draw = s.draw) (i : Nat) :
    t.pcmRead i = s.pcmRead i := by
  simp [State.pcmRead, State.pcmByte_congr h hd]

/-- A stored stream reads back sample by sample. -/
theorem State.pcmRead_storeSamples_inside {s t : State} {i k : Nat} {vs : List Sample}
    (h : t.pcm = storeSamples s.pcm i vs) (hk : k < vs.length) : t.pcmRead (i + k) = vs[k] := by
  obtain ⟨h1, h2⟩ := storeSamples_get?_inside vs s.pcm i k hk
  simp only [State.pcmRead, State.pcmByte, h, h1, h2, Option.getD_some]
  exact sample_of_bytes _

/-- The samples outside the stored ones read as before. -/
theorem State.pcmRead_storeSamples_outside {s t : State} {i j : Nat} {vs : List Sample}
    (h : t.pcm = storeSamples s.pcm i vs) (hd : t.draw = s.draw) (hj : j < i ∨ i + vs.length ≤ j) :
    t.pcmRead j = s.pcmRead j := by
  simp only [State.pcmRead, State.pcmByte, h, hd]
  rw [storeSamples_get?_outside _ _ _ _ (by omega), storeSamples_get?_outside _ _ _ _ (by omega)]

end Sys2Proof.Machine
end

