-- ==== Sys2Proof/Laws/Block.lean ====
section
/-! SUPPORT. What decoding a block gives and what issuing one can do: the one lemma per shared operation that later
proofs cite. -/

namespace Sys2Proof.Machine

/-! ### Fetching -/

theorem payloadNibbles_length (ps : List Byte) : (payloadNibbles ps).length = 2 * ps.length := by
  induction ps with
  | nil => rfl
  | cons p ps ih => simp only [payloadNibbles, List.length_cons, ih]; omega

/-- A fetched block has 16 nibbles. -/
@[simp] theorem fetchBlock_nibbles_length (s : State) (a : Nat) : (s.fetchBlock a).nibbles.length = 16 := by
  simp [State.fetchBlock, blockOf, payloadNibbles_length, State.fetchBytes]

/-- The BRR memory alone decides what a fetch gives. -/
theorem State.fetchBlock_congr {s t : State} (h : t.brr = s.brr) (a : Nat) : t.fetchBlock a = s.fetchBlock a := by
  simp [State.fetchBlock, State.fetchBytes, State.brrRead, h]

/-- Nine fetched bytes decode to the fetched block's instruction. -/
theorem decode_fetchBytes (s : State) (a : Nat) :
    decode (.block (s.fetchBytes a)) = .ok (s.fetchBlock a).toInstr := rfl

/-! ### BlockDecode -/

@[simp] theorem decodeNibbles_length (f : BitVec 2) (shift : BitVec 4) (ns : List Nibble) (prev prev2 : Sample) :
    (decodeNibbles f shift ns prev prev2).1.length = ns.length := by
  induction ns generalizing prev prev2 with
  | nil => rfl
  | cons n ns ih => simp [decodeNibbles, ih]

@[simp] theorem blockDecode_length (shift : BitVec 4) (f : BitVec 2) (ns : List Nibble) (prev prev2 : Sample)
    (first : Bool) : (blockDecode shift f ns prev prev2 first).out.length = ns.length := by
  simp [blockDecode]

theorem newestAt_cons (y : Sample) (out : List Sample) (prev : Sample) (i : Nat) :
    newestAt (y :: out) prev (i + 1) = newestAt out y i := by
  cases i <;> simp [newestAt]

theorem olderAt_cons (y : Sample) (out : List Sample) (prev prev2 : Sample) (i : Nat) :
    olderAt (y :: out) prev prev2 (i + 1) = olderAt out y prev i := by
  cases i with
  | zero => rfl
  | succ i => simp [olderAt, newestAt_cons]

/-- Each sample is decoded from its own nibble and the two samples before it (R176, R335). -/
theorem decodeNibbles_get (f : BitVec 2) (shift : BitVec 4) (ns : List Nibble) (prev prev2 : Sample) (i : Nat)
    (hi : i < ns.length) :
    (decodeNibbles f shift ns prev prev2).1.getD i 0#16 =
      decodeSample f shift ns[i] (newestAt (decodeNibbles f shift ns prev prev2).1 prev i)
        (olderAt (decodeNibbles f shift ns prev prev2).1 prev prev2 i) := by
  induction ns generalizing prev prev2 i with
  | nil => simp at hi
  | cons n ns ih =>
    cases i with
    | zero => rfl
    | succ i =>
      simp only [decodeNibbles, List.getD_cons_succ, List.getElem_cons_succ, newestAt_cons, olderAt_cons]
      exact ih _ _ i (by simpa using hi)

/-- The history after the nibbles is the last two samples (R176). -/
theorem decodeNibbles_history (f : BitVec 2) (shift : BitVec 4) (ns : List Nibble) (prev prev2 : Sample) :
    (decodeNibbles f shift ns prev prev2).2 =
      (newestAt (decodeNibbles f shift ns prev prev2).1 prev ns.length,
        olderAt (decodeNibbles f shift ns prev prev2).1 prev prev2 ns.length) := by
  induction ns generalizing prev prev2 with
  | nil => rfl
  | cons n ns ih =>
    simp only [decodeNibbles, List.length_cons, newestAt_cons, olderAt_cons]
    exact ih _ _

/-- The history after a block of 16 nibbles is its last two samples (R176). -/
theorem blockDecode_history (shift : BitVec 4) (f : BitVec 2) (ns : List Nibble) (prev prev2 : Sample) (first : Bool)
    (hn : ns.length = 16) :
    (blockDecode shift f ns prev prev2 first).prev = (blockDecode shift f ns prev prev2 first).out.getD 15 0#16 ∧
    (blockDecode shift f ns prev prev2 first).prev2 = (blockDecode shift f ns prev prev2 first).out.getD 14 0#16 := by
  simp only [blockDecode]
  generalize (if first = true then 0#2 else f) = f'
  generalize (if first = true then 0#4 else shift) = s'
  have h := decodeNibbles_history f' s' ns prev prev2
  rw [hn] at h
  rw [h]
  exact ⟨rfl, rfl⟩

/-- The output stage loses nothing: its value fits a sample (R178). -/
theorem outputSample_toInt (s : Int) : (outputSample s).toInt = outputValue s := by
  have h : -32768 ≤ outputValue s ∧ outputValue s ≤ 32766 := by
    unfold outputValue wrapCorrect clampSum; split_ifs <;> omega
  show (BitVec.ofInt 16 (outputValue s)).toInt = _
  rw [BitVec.toInt_ofInt]
  exact Int.bmod_eq_of_le (by omega) (by omega)

/-! ### Issuing a block -/

/-- The four block instructions differ in their filter alone. -/
theorem exec_blockInstr (f : BitVec 2) (shift : BitVec 4) (loop last : Bool) (ns : List Nibble) (s : State) :
    exec (blockInstr f shift loop last ns) s = runBlock shift f ns s := by
  have hf : f = 0#2 ∨ f = 1#2 ∨ f = 2#2 ∨ f = 3#2 := by
    revert f; decide
  rcases hf with rfl | rfl | rfl | rfl <;> rfl

/-- Issuing runs the instruction the fetched bytes decode to. -/
theorem issueBlock_eq_exec (a : Nat) (s : State) : issueBlock a s = exec (s.fetchBlock a).toInstr s := by
  simp only [issueBlock, Block.toInstr]
  split_ifs <;> rfl

theorem issueBlock_eq (a : Nat) (s : State) :
    issueBlock a s = runBlock (s.fetchBlock a).shift (s.fetchBlock a).filter (s.fetchBlock a).nibbles s := by
  rw [issueBlock_eq_exec]
  exact exec_blockInstr _ _ _ _ _ _

/-- The decode a block issued in state `s` makes. -/
def State.issued (s : State) (shift : BitVec 4) (f : BitVec 2) (ns : List Nibble) : BlockResult :=
  blockDecode shift f ns s.blockPrev s.blockPrev2 s.blockFirst

/-- A block issued by DECODE_BLOCK writes OUT_BLK, HIST and the warning (R264). -/
theorem runBlock_command {s : State} (h : s.client = .command) (shift : BitVec 4) (f : BitVec 2) (ns : List Nibble) :
    runBlock shift f ns s = .next { s with
      regs := { s.regs.setFlagIf .firstHdr (s.issued shift f ns).warnFirst with
        outBlk := overwrite s.regs.outBlk 0 (s.issued shift f ns).out
        hist := histWord (s.issued shift f ns).prev (s.issued shift f ns).prev2 } } := by
  unfold runBlock retireBlock State.issued
  rw [h]
  simp only [State.onRegs, State.warnIf, Regs.setFlagIf_outBlk, h]

/-- A block issued by a pass is appended to the stream (R182, R212), where there is room. -/
theorem runBlock_stream {s : State} (h : s.client = .stream) (shift : BitVec 4) (f : BitVec 2) (ns : List Nibble)
    (room : s.hid.len + ns.length ≤ s.cap.pcmCap) :
    runBlock shift f ns s = .next { s with
      regs := s.regs.setFlagIf .firstHdr (s.issued shift f ns).warnFirst
      pcm := storeSamples s.pcm s.hid.len (s.issued shift f ns).out
      hid := { s.hid with
        hp := (s.issued shift f ns).prev
        hpp := (s.issued shift f ns).prev2
        len := s.hid.len + ns.length
        firstPending := false } } := by
  unfold runBlock retireBlock State.issued
  rw [h]
  simp only [blockDecode_length, room, if_true, State.onRegs, State.warnIf, h]

/-- A block issued by a probe leaves its first two samples and nothing else (R207, R337). -/
theorem runBlock_probe {s : State} (h : s.client = .probe) (shift : BitVec 4) (f : BitVec 2) (ns : List Nibble) :
    runBlock shift f ns s = .next { s with
      hid := { s.hid with
        q0 := (s.issued shift f ns).out.getD 0 s.hid.q0
        q1 := (s.issued shift f ns).out.getD 1 s.hid.q1 } } := by
  unfold runBlock retireBlock State.issued
  rw [h]

/-! ### Register writes of a block -/

theorem overwrite_get (vs : List Sample) (v : Vector Sample 16) (i k : Nat) (hk : k < 16) :
    (overwrite v i vs)[k] = if i ≤ k ∧ k < i + vs.length then vs.getD (k - i) 0#16 else v[k] := by
  induction vs generalizing v i with
  | nil => simp [overwrite]
  | cons x xs ih =>
    rw [overwrite, ih]
    by_cases h1 : i + 1 ≤ k ∧ k < i + 1 + xs.length
    · obtain ⟨m, rfl⟩ : ∃ m, k = i + 1 + m := ⟨k - (i + 1), by omega⟩
      have e1 : i + 1 + m - (i + 1) = m := by omega
      have e2 : i + 1 + m - i = m + 1 := by omega
      have h3 : i ≤ i + 1 + m ∧ i + 1 + m < i + (x :: xs).length := by
        simp only [List.length_cons]; omega
      simp only [h1, h3, and_self, if_true, e1, e2, List.getD_cons_succ]
    · rw [if_neg h1]
      by_cases h2 : k = i
      · subst h2
        simp
      · have h3 : ¬(i ≤ k ∧ k < i + (x :: xs).length) := by
          simp only [List.length_cons]; omega
        rw [if_neg h3, Vector.getElem_setIfInBounds, if_neg (by omega)]

/-- Sixteen samples fill OUT_BLK0 to OUT_BLK15. -/
theorem overwrite_full {vs : List Sample} (v : Vector Sample 16) (h : vs.length = 16) (k : Nat) (hk : k < 16) :
    (overwrite v 0 vs)[k] = vs.getD k 0#16 := by
  rw [overwrite_get, if_pos (by omega), Nat.sub_zero]

end Sys2Proof.Machine
end

