-- ==== Sys2Proof/Laws/Rate.lean ====
section
/-! SUPPORT. What the rate encoder gives: the normalising loop, the mantissa's range and the parts of the 80 bits (R240 to
R245). -/

namespace Sys2Proof.Machine

/-- The loop shifts by as much as the top bit of a non-zero value is below bit 63. -/
theorem normalize_eq (fuel : Nat) (m : BitVec 64) (sh : Nat) (hm : m.toNat ≠ 0) (hf : 63 - Nat.log2 m.toNat < fuel) :
    normalize fuel m sh =
      (BitVec.ofNat 64 (m.toNat * 2 ^ (63 - Nat.log2 m.toNat)), sh + (63 - Nat.log2 m.toNat)) := by
  induction fuel generalizing m sh with
  | zero => omega
  | succ fuel ih =>
    have hlt : m.toNat < 2 ^ 64 := m.isLt
    have hlog : Nat.log2 m.toNat < 64 := (Nat.log2_lt hm).2 hlt
    rw [normalize]
    by_cases hb : m.msb = true
    · rw [if_pos hb]
      have h63 : 2 ^ 63 ≤ m.toNat := by
        rw [BitVec.msb_eq_decide] at hb; simpa using hb
      have : 63 ≤ Nat.log2 m.toNat := (Nat.le_log2 hm).2 h63
      have e : 63 - Nat.log2 m.toNat = 0 := by omega
      rw [e]; simp
    · rw [if_neg hb]
      have h63 : m.toNat < 2 ^ 63 := by
        rw [BitVec.msb_eq_decide] at hb; simpa using hb
      have hlog' : Nat.log2 m.toNat < 63 := (Nat.log2_lt hm).2 h63
      have hd : (m <<< 1).toNat = 2 * m.toNat := by
        rw [BitVec.toNat_shiftLeft, Nat.shiftLeft_eq, Nat.mod_eq_of_lt (by omega)]; omega
      have hl2 : Nat.log2 (2 * m.toNat) = Nat.log2 m.toNat + 1 := Nat.log2_two_mul hm
      rw [ih (m <<< 1) (sh + 1) (by omega) (by rw [hd, hl2]; omega), hd, hl2]
      have e : 63 - Nat.log2 m.toNat = (63 - (Nat.log2 m.toNat + 1)) + 1 := by omega
      rw [e, Nat.pow_succ]
      refine Prod.ext ?_ ?_
      · simp only; congr 1; ring
      · simp only; omega

/-- EncodeRate of a rate that is not 0 (R242, R243, R245). -/
theorem encodeRate_eq {r : Word} (h : r ≠ 0#32) :
    encodeRate r = packExt80 (BitVec.ofNat 15 (16383 + Nat.log2 r.toNat))
      (BitVec.ofNat 64 (r.toNat * 2 ^ (63 - Nat.log2 r.toNat))) := by
  have hn : r.toNat ≠ 0 := fun e => h (BitVec.eq_of_toNat_eq e)
  have hl : Nat.log2 r.toNat < 32 := (Nat.log2_lt hn).2 r.isLt
  have hz : (r.setWidth 64).toNat = r.toNat := by
    rw [BitVec.toNat_setWidth, Nat.mod_eq_of_lt]
    have := r.isLt; omega
  simp only [encodeRate, h, if_false]
  rw [normalize_eq 64 _ 0 (by rw [hz]; exact hn) (by omega), hz,
    show 16383 + 63 - (0 + (63 - Nat.log2 r.toNat)) = 16383 + Nat.log2 r.toNat by omega]

/-- The mantissa has its top bit set and fits 64 bits (R242). -/
theorem mantissa_range {r : Word} (h : r ≠ 0#32) :
    2 ^ 63 ≤ r.toNat * 2 ^ (63 - Nat.log2 r.toNat) ∧ r.toNat * 2 ^ (63 - Nat.log2 r.toNat) < 2 ^ 64 := by
  have hn : r.toNat ≠ 0 := fun e => h (BitVec.eq_of_toNat_eq e)
  have hl : Nat.log2 r.toNat < 32 := (Nat.log2_lt hn).2 r.isLt
  have e1 : 2 ^ Nat.log2 r.toNat * 2 ^ (63 - Nat.log2 r.toNat) = 2 ^ 63 := by rw [← Nat.pow_add]; congr 1; omega
  have e2 : 2 ^ (Nat.log2 r.toNat + 1) * 2 ^ (63 - Nat.log2 r.toNat) = 2 ^ 64 := by
    rw [← Nat.pow_add]; congr 1; omega
  constructor
  · rw [← e1]; exact Nat.mul_le_mul_right _ (Nat.log2_self_le hn)
  · rw [← e2]; exact Nat.mul_lt_mul_of_pos_right Nat.lt_log2_self (Nat.two_pow_pos _)

theorem packExt80_mantissa (e : BitVec 15) (m : BitVec 64) : (packExt80 e m).extractLsb' 0 64 = m := by
  apply BitVec.eq_of_getLsbD_eq
  intro i hi
  simp only [packExt80, BitVec.getLsbD_extractLsb', BitVec.getLsbD_append]
  simp [hi]

theorem packExt80_exponent (e : BitVec 15) (m : BitVec 64) : (packExt80 e m).extractLsb' 64 15 = e := by
  apply BitVec.eq_of_getLsbD_eq
  intro i hi
  simp only [packExt80, BitVec.getLsbD_extractLsb', BitVec.getLsbD_append]
  simp [hi, show ¬ 64 + i < 64 by omega]

theorem packExt80_toNat (e : BitVec 15) (m : BitVec 64) :
    (packExt80 e m).toNat = e.toNat * 2 ^ 64 + m.toNat := by
  simp only [packExt80, BitVec.toNat_append, Nat.shiftLeft_eq]
  rw [Nat.mul_comm _ (2 ^ 64), ← Nat.two_pow_add_eq_or_of_lt (i := 64) m.isLt]
  simp [Nat.mul_comm]

theorem packExt80_sign (e : BitVec 15) (m : BitVec 64) : (packExt80 e m).msb = false := by
  simp only [packExt80]
  rw [BitVec.msb_eq_getLsbD_last]
  simp only [BitVec.getLsbD_append]
  simp

/-- The sign of an encoded rate is 0 (R244). -/
theorem encodeRate_sign (r : Word) : (encodeRate r).msb = false := by
  unfold encodeRate
  split
  · decide
  · exact packExt80_sign _ _

end Sys2Proof.Machine
end

