-- ==== Sys2Proof/Laws/Validate.lean ====
section
/-! SUPPORT. What the validator answers: the end-flag scan and the checks in their order (R140 to R148). -/

namespace Sys2Proof.Machine

/-- The end flag block `j` of `n` must carry. -/
def endFlagRight (s : State) (n j : Nat) : Prop := headerEnd (s.brrRead (9 * j)) = decide (j + 1 = n)

/-- The scan accepts when every block from `j` on carries the end flag it must (R145). -/
theorem scanEndFlags_ok {s : State} {n : Nat} (k j : Nat) (h : ∀ i, j ≤ i → i < j + k → endFlagRight s n i) :
    scanEndFlags s n k j = .ok () := by
  induction k generalizing j with
  | zero => rfl
  | succ k ih =>
    have hj := h j (le_refl j) (by omega)
    unfold endFlagRight at hj
    rw [scanEndFlags, if_neg, if_neg, ih (j + 1) fun i h1 h2 => h i (by omega) (by omega)]
    · rintro ⟨h1, h2⟩
      simp [h2, h1] at hj
    · rintro ⟨h1, h2⟩
      rw [h2] at hj
      have : j + 1 = n := by simpa using hj.symm
      omega

/-- The scan reports the first block whose end flag is wrong (R143, R144). -/
theorem scanEndFlags_first {s : State} {n : Nat} (k j i : Nat) (hji : j ≤ i) (hik : i < j + k) (hin : i < n)
    (hbad : ¬ endFlagRight s n i) (hmin : ∀ m, j ≤ m → m < i → endFlagRight s n m) :
    scanEndFlags s n k j =
      .error ⟨.structural, if i + 1 = n then 4#8 else 3#8, BitVec.ofNat 32 i⟩ := by
  induction k generalizing j with
  | zero => omega
  | succ k ih =>
    by_cases e : j = i
    · subst e
      unfold endFlagRight at hbad
      by_cases hl : j + 1 = n
      · have : headerEnd (s.brrRead (9 * j)) = false := by
          simpa [hl] using hbad
        rw [scanEndFlags, if_neg (by omega), if_pos ⟨hl, this⟩, if_pos hl]
      · have : headerEnd (s.brrRead (9 * j)) = true := by
          simpa [hl] using hbad
        rw [scanEndFlags, if_pos ⟨by omega, this⟩, if_neg hl]
    · have hj := hmin j (le_refl j) (by omega)
      unfold endFlagRight at hj
      rw [scanEndFlags, if_neg, if_neg]
      · exact ih (j + 1) (by omega) (by omega) fun m h1 h2 => hmin m (by omega) h2
      · rintro ⟨h1, h2⟩
        simp [h2, h1] at hj
      · rintro ⟨h1, h2⟩
        rw [h2] at hj
        have : j + 1 = n := by simpa using hj.symm
        omega

/-- Whatever the scan reports, it is one of the two end-flag errors and carries a block index. -/
theorem scanEndFlags_error {s : State} {n : Nat} (k j : Nat) {e : Raise} (h : scanEndFlags s n k j = .error e) :
    e.kind = .structural ∧ (e.sub = 3#8 ∨ e.sub = 4#8) := by
  induction k generalizing j with
  | zero => simp [scanEndFlags] at h
  | succ k ih =>
    rw [scanEndFlags] at h
    split at h
    · cases h; simp
    · split at h
      · cases h; simp
      · exact ih _ h

/-- The scan accepts only streams whose end flags are right. -/
theorem scanEndFlags_ok_inv {s : State} {n : Nat} (k j : Nat) (h : scanEndFlags s n k j = .ok ()) (i : Nat)
    (hji : j ≤ i) (hik : i < j + k) (hin : i < n) : endFlagRight s n i := by
  induction k generalizing j with
  | zero => omega
  | succ k ih =>
    rw [scanEndFlags] at h
    split at h
    · cases h
    · rename_i h1
      split at h
      · cases h
      · rename_i h2
        by_cases e : j = i
        · subst e
          unfold endFlagRight
          by_cases hl : j + 1 = n
          · simpa [hl] using h2
          · have : j + 1 < n := by omega
            simpa [hl, this] using h1
        · exact ih _ h (by omega) (by omega)

/-- The validator accepts exactly the valid streams, and answers their block count (R145). -/
theorem validate_ok_iff (s : State) (n : Nat) : validate s = .ok n ↔ validStream s ∧ n = s.blocks := by
  unfold validate validStream State.blocks
  by_cases h1 : s.cap.brrCap < s.inLen
  · rw [if_pos h1]; simp; omega
  rw [if_neg h1]
  by_cases h2 : s.inLen % 9 ≠ 0
  · rw [if_pos h2]; simp; omega
  rw [if_neg h2]
  by_cases h3 : s.inLen = 0
  · rw [if_pos h3]; simp [h3]
  rw [if_neg h3]
  constructor
  · intro h
    split at h
    · cases h
    · rename_i hs
      cases h
      exact ⟨⟨by omega, by omega, by omega, fun j hj => scanEndFlags_ok_inv _ _ hs j (by omega) (by omega) hj⟩, rfl⟩
  · rintro ⟨⟨-, -, -, h⟩, rfl⟩
    rw [scanEndFlags_ok _ _ fun i _ hi => h i (by omega)]

/-- The errors of the validator (R301, R302). -/
theorem validate_error {s : State} {e : Raise} (h : validate s = .error e) :
    (e.kind = .address ∧ e.sub = 1#8) ∨
      (e.kind = .structural ∧ (e.sub = 1#8 ∨ e.sub = 2#8 ∨ e.sub = 3#8 ∨ e.sub = 4#8)) := by
  unfold validate at h
  split at h
  · cases h; simp
  · split at h
    · cases h; simp
    · split at h
      · cases h; simp
      · split at h
        · rename_i hs
          cases h
          obtain ⟨h1, h2⟩ := scanEndFlags_error _ _ hs
          right; exact ⟨h1, by tauto⟩
        · cases h

theorem scanEndFlags_congr {s t : State} (h : t.brr = s.brr) (n k j : Nat) :
    scanEndFlags t n k j = scanEndFlags s n k j := by
  induction k generalizing j with
  | zero => rfl
  | succ k ih => simp only [scanEndFlags, State.brrRead_congr h, ih]

/-- The validator reads the BRR memory, BRR_CAP and IN_LEN and nothing else (R262, R269). -/
theorem validate_congr {s t : State} (hb : t.brr = s.brr) (hc : t.cap = s.cap) (hi : t.regs.inLen = s.regs.inLen) :
    validate t = validate s := by
  have hn : t.inLen = s.inLen := by rw [State.inLen, State.inLen, hi]
  simp only [validate, hn, hc, hi, scanEndFlags_congr hb]

/-- What VALIDATE answers when the validator raises (R262, R303). -/
theorem execValidate_error {s : State} {e : Raise} (g : BitVec 24) (h : validate s = .error e) :
    execValidate g s = .next ((validateStart g s).raise e) := by
  simp only [execValidate, validate_congr (s := s) (t := validateStart g s) rfl rfl rfl, h]

/-- What VALIDATE answers when every check passes (R145, R262). -/
theorem execValidate_ok {s : State} {n : Nat} (g : BitVec 24) (h : validate s = .ok n) :
    execValidate g s =
      .next ((validateStart g s).onRegs fun r => { r with blockCount := BitVec.ofNat 32 n }).finish := by
  simp only [execValidate, validate_congr (s := s) (t := validateStart g s) rfl rfl rfl, h]

/-- A valid stream has at least one block. -/
theorem validStream_blocks_pos {s : State} (h : validStream s) : 0 < s.blocks := by
  obtain ⟨-, h2, h3, -⟩ := h
  unfold State.blocks; omega

end Sys2Proof.Machine
end

