-- ==== Sys2Proof/Laws/Convert.lean ====
section
/-! SUPPORT. What the parts of CONVERT can do, once each: a pass, a probe, the search, the rounds (spec/41_brr_decoder.md
R182, spec/42_loop_convergence.md R205 to R214). -/

namespace Sys2Proof.Machine

/-! ### Passes -/

theorem storeSamples_append (xs ys : List Sample) (m : List Host.Cell) (i : Nat) :
    storeSamples m i (xs ++ ys) = storeSamples (storeSamples m i xs) (i + xs.length) ys := by
  induction xs generalizing m i with
  | nil => rfl
  | cons x xs ih =>
    simp only [List.cons_append, storeSamples, ih, List.length_cons]
    rw [show i + 1 + xs.length = i + (xs.length + 1) by omega]

/-- The BRR memory alone decides what a pass decodes. -/
theorem passDecode_congr {s t : State} (h : t.brr = s.brr) (k j : Nat) (p p2 : Sample) (first : Bool) :
    passDecode t k j p p2 first = passDecode s k j p p2 first := by
  induction k generalizing j p p2 first with
  | zero => rfl
  | succ k ih => simp only [passDecode, State.fetchBlock_congr h, ih]

@[simp] theorem passDecode_length (s : State) (k j : Nat) (p p2 : Sample) (first : Bool) :
    (passDecode s k j p p2 first).1.length = 16 * k := by
  induction k generalizing j p p2 first with
  | zero => rfl
  | succ k ih =>
    simp only [passDecode, List.length_append, blockDecode_length, fetchBlock_nibbles_length, ih]
    omega

/-- The parts of the state no pass and no probe writes. -/
structure SameInputs (s t : State) : Prop where
  brr : t.brr = s.brr
  cap : t.cap = s.cap
  draw : t.draw = s.draw
  host : t.host = s.host
  resp : t.resp = s.resp
  n : t.hid.n = s.hid.n
  b : t.hid.b = s.hid.b
  first : t.hid.first = s.hid.first
  base : t.hid.base = s.hid.base
  r : t.hid.r = s.hid.r

theorem SameInputs.trans {s t u : State} (h : SameInputs s t) (g : SameInputs t u) : SameInputs s u where
  brr := g.brr.trans h.brr
  cap := g.cap.trans h.cap
  draw := g.draw.trans h.draw
  host := g.host.trans h.host
  resp := g.resp.trans h.resp
  n := g.n.trans h.n
  b := g.b.trans h.b
  first := g.first.trans h.first
  base := g.base.trans h.base
  r := g.r.trans h.r

/-- Whether a pass of `k` blocks from block `j` on warns: its first block is overridden and says something else
(R162). -/
def State.passWarns (s : State) (k j : Nat) : Bool :=
  decide (0 < k) && s.hid.firstPending && s.headerOverridden (9 * j)

/-- What a pass of `k` blocks from block `j` on leaves. -/
structure PassDone (k j : Nat) (s t : State) : Prop where
  inputs : SameInputs s t
  client : t.client = .stream
  regs : t.regs = s.regs.setFlagIf .firstHdr (s.passWarns k j)
  pcm : t.pcm = storeSamples s.pcm s.hid.len (passDecode s k j s.hid.hp s.hid.hpp s.hid.firstPending).1
  hist : (t.hid.hp, t.hid.hpp) = (passDecode s k j s.hid.hp s.hid.hpp s.hid.firstPending).2
  len : t.hid.len = s.hid.len + 16 * k
  pending : t.hid.firstPending = (decide (k = 0) && s.hid.firstPending)

/-- One block of a pass: its samples are appended and its history is threaded (R182, R212). -/
theorem issueBlock_stream (j : Nat) (s : State) (hc : s.client = .stream) (room : s.hid.len + 16 ≤ s.cap.pcmCap) :
    ∃ t, issueBlock (9 * j) (s.onHid fun h => { h with cur := j }) = .next t ∧ PassDone 1 j s t := by
  have e := issueBlock_eq (9 * j) (s.onHid fun h => { h with cur := j })
  rw [runBlock_stream (by simpa using hc) _ _ _ (by simpa using room)] at e
  refine ⟨_, e, ?_⟩
  have iss : ∀ sh f ns, State.issued (s.onHid fun h => { h with cur := j }) sh f ns =
      blockDecode sh f ns s.hid.hp s.hid.hpp s.hid.firstPending := by
    intro sh f ns
    simp [State.issued, State.blockPrev, State.blockPrev2, State.blockFirst, hc]
  have fb : State.fetchBlock (s.onHid fun h => { h with cur := j }) (9 * j) = s.fetchBlock (9 * j) := rfl
  simp only [fb, iss]
  refine ⟨⟨rfl, rfl, rfl, rfl, rfl, rfl, rfl, rfl, rfl, rfl⟩, hc, rfl, ?_, rfl, ?_, rfl⟩
  · simp [passDecode]
  · simp

/-- A pass with room completes, and leaves the pure decode of its blocks behind the stream (R182, R212). -/
theorem runPass_next (k j : Nat) (s : State) (hc : s.client = .stream) (room : s.hid.len + 16 * k ≤ s.cap.pcmCap) :
    ∃ t, runPass k j s = .next t ∧ PassDone k j s t := by
  induction k generalizing j s with
  | zero =>
    refine ⟨s, rfl, ⟨⟨rfl, rfl, rfl, rfl, rfl, rfl, rfl, rfl, rfl, rfl⟩, hc, ?_, rfl, rfl, rfl, ?_⟩⟩ <;>
      simp [State.passWarns]
  | succ k ih =>
    obtain ⟨u, hu, du⟩ := issueBlock_stream j s hc (by omega)
    obtain ⟨t, ht, dt⟩ := ih (j + 1) u du.client (by rw [du.len, du.inputs.cap]; omega)
    have hist := du.hist
    simp only [passDecode, Prod.mk.injEq] at hist
    have pend : u.hid.firstPending = false := by rw [du.pending]; simp
    refine ⟨t, by rw [runPass, hu, andThen_next, ht], du.inputs.trans dt.inputs, dt.client, ?_, ?_, ?_, ?_, ?_⟩
    · rw [dt.regs, du.regs]
      simp [State.passWarns, pend]
    · rw [dt.pcm, du.pcm, du.len, passDecode_congr du.inputs.brr, hist.1, hist.2, pend]
      simp only [passDecode, storeSamples_append, blockDecode_length, fetchBlock_nibbles_length, List.append_nil]
    · rw [dt.hist, passDecode_congr du.inputs.brr, hist.1, hist.2, pend]
      rfl
    · rw [dt.len, du.len]; omega
    · rw [dt.pending, pend]; simp

/-! ### The probe (R207) -/

/-- What a probe leaves: the pair, and nothing else of note. -/
structure ProbeDone (s t : State) : Prop where
  inputs : SameInputs s t
  regs : t.regs = s.regs
  pcm : t.pcm = s.pcm
  len : t.hid.len = s.hid.len
  pair : (t.hid.q0, t.hid.q1) = probePair s s.hid.b (s.pcmRead (s.hid.len - 1)) (s.pcmRead (s.hid.len - 2))
  pending : t.hid.firstPending = s.hid.firstPending

theorem getD_default {l : List Sample} {i : Nat} (h : i < l.length) (d e : Sample) : l.getD i d = l.getD i e := by
  simp [List.getD_eq_getElem?_getD, List.getElem?_eq_getElem h]

/-- A probe always completes. -/
theorem probe_next (s : State) : ∃ t, probe s = .next t ∧ ProbeDone s t := by
  have e := issueBlock_eq (9 * s.hid.b) { s with client := .probe, hid := { s.hid with cur := s.hid.b } }
  rw [runBlock_probe rfl] at e
  refine ⟨_, e, ⟨rfl, rfl, rfl, rfl, rfl, rfl, rfl, rfl, rfl, rfl⟩, rfl, rfl, rfl, ?_, rfl⟩
  have hl : ∀ first, 2 ≤ (blockDecode (s.fetchBlock (9 * s.hid.b)).shift (s.fetchBlock (9 * s.hid.b)).filter
      (s.fetchBlock (9 * s.hid.b)).nibbles (s.pcmRead (s.hid.len - 1)) (s.pcmRead (s.hid.len - 2)) first).out.length := by
    intro first; simp
  exact Prod.ext (getD_default (i := 0) (Nat.lt_of_lt_of_le Nat.two_pos (hl false)) s.hid.q0 0#16)
    (getD_default (i := 1) (hl false) s.hid.q1 0#16)

/-! ### The search (R208 to R210) -/

/-- An accepted position is a candidate that matches, and no later candidate does. -/
theorem searchBack_some {s : State} (fuel pos : Nat) {p : Nat}
    (h : searchBack s fuel pos = some p) :
    ∃ k, 1 ≤ k ∧ p + k * s.hid.base = pos ∧ s.hid.first ≤ p ∧ s.matchesProbe p = true ∧
      ∀ k', 1 ≤ k' → k' < k → s.matchesProbe (pos - k' * s.hid.base) = false := by
  induction fuel generalizing pos with
  | zero => simp [searchBack] at h
  | succ fuel ih =>
    rw [searchBack] at h
    split at h
    · cases h
    · rename_i h1
      split at h
      · rename_i h2
        cases h
        exact ⟨1, le_refl 1, by omega, by omega, h2, fun k' a b => by omega⟩
      · rename_i h2
        obtain ⟨k, hk, hp, hf, hm, hn⟩ := ih _ h
        refine ⟨k + 1, by omega, by rw [Nat.succ_mul]; omega, hf, hm, fun k' a b => ?_⟩
        by_cases e : k' = 1
        · subst e; simpa using h2
        · have := hn (k' - 1) (by omega) (by omega)
          obtain ⟨m, rfl⟩ : ∃ m, k' = m + 1 := ⟨k' - 1, by omega⟩
          rw [Nat.add_sub_cancel, Nat.sub_sub] at this
          rwa [Nat.succ_mul, Nat.add_comm]

/-- A search that finds nothing has tried every candidate. -/
theorem searchBack_none {s : State} (hb : 0 < s.hid.base) (fuel pos : Nat) (hf : pos ≤ fuel)
    (h : searchBack s fuel pos = none) (k : Nat) (hk : 1 ≤ k) (hc : s.hid.first + k * s.hid.base ≤ pos) :
    s.matchesProbe (pos - k * s.hid.base) = false := by
  induction fuel generalizing pos k with
  | zero =>
    have : 1 * s.hid.base ≤ k * s.hid.base := Nat.mul_le_mul_right _ hk
    omega
  | succ fuel ih =>
    rw [searchBack] at h
    have hkb : 1 * s.hid.base ≤ k * s.hid.base := Nat.mul_le_mul_right _ hk
    split at h
    · omega
    · split at h
      · cases h
      · rename_i h2
        by_cases e : k = 1
        · subst e; simpa using h2
        · obtain ⟨m, rfl⟩ : ∃ m, k = m + 1 := ⟨k - 1, by omega⟩
          rw [Nat.succ_mul] at hc ⊢
          have := ih (pos - s.hid.base) (by omega) h m (by omega) (by omega)
          rwa [Nat.sub_sub, Nat.add_comm] at this

/-! ### Rounds (R205, R211 to R214) -/

/-- The state at the start of a round (R204, R206): a loop block of the stream, and as many growth passes done as rounds
before this one. -/
structure RoundStart (s : State) : Prop where
  inside : s.hid.b < s.hid.n
  first : s.hid.first = 16 * s.hid.b
  base : s.hid.base = 16 * (s.hid.n - s.hid.b)
  round : 1 ≤ s.hid.r
  len : s.hid.len = 16 * s.hid.n + (s.hid.r - 1) * s.hid.base
  room : s.hid.len ≤ s.cap.pcmCap
  decoded : s.hid.firstPending = false

theorem RoundStart.base_pos {s : State} (h : RoundStart s) : 16 ≤ s.hid.base := by
  have := h.inside; have := h.base; omega

/-- At the start of round r exactly r candidates lie below the stream's end (R208). -/
theorem RoundStart.len_eq {s : State} (h : RoundStart s) : s.hid.len = s.hid.first + s.hid.r * s.hid.base := by
  obtain ⟨m, hm⟩ : ∃ m, s.hid.r = m + 1 := ⟨s.hid.r - 1, by have := h.round; omega⟩
  have h1 := h.len; have h2 := h.first; have h3 := h.base; have h4 := h.inside
  rw [hm, Nat.add_sub_cancel] at h1
  rw [hm, Nat.succ_mul]; omega

theorem ProbeDone.roundStart {s t : State} (d : ProbeDone s t) (h : RoundStart s) : RoundStart t where
  inside := by rw [d.inputs.b, d.inputs.n]; exact h.inside
  first := by rw [d.inputs.first, d.inputs.b]; exact h.first
  base := by rw [d.inputs.base, d.inputs.b, d.inputs.n]; exact h.base
  round := by rw [d.inputs.r]; exact h.round
  len := by rw [d.len, d.inputs.n, d.inputs.r, d.inputs.base]; exact h.len
  room := by rw [d.len, d.inputs.cap]; exact h.room
  decoded := by rw [d.pending]; exact h.decoded

theorem probePair_congr {s t : State} (h : t.brr = s.brr) (b : Nat) (p p2 : Sample) :
    probePair t b p p2 = probePair s b p p2 := by
  simp [probePair, State.fetchBlock_congr h]

/-- The pair a probe left is the probe pair of the state it left. -/
theorem ProbeDone.pair' {s t : State} (d : ProbeDone s t) :
    (t.hid.q0, t.hid.q1) = probePair t t.hid.b (t.pcmRead (t.hid.len - 1)) (t.pcmRead (t.hid.len - 2)) := by
  rw [d.pair, d.len, d.inputs.b, probePair_congr d.inputs.brr,
    State.pcmRead_congr d.pcm d.inputs.draw, State.pcmRead_congr d.pcm d.inputs.draw]

theorem State.matchesProbe_iff (s : State) (p : Nat) :
    s.matchesProbe p = true ↔ (s.pcmRead p, s.pcmRead (p + 1)) = (s.hid.q0, s.hid.q1) := by
  simp [State.matchesProbe]

end Sys2Proof.Machine
end

