-- ==== Sys2Proof/Laws/Rounds.lean ====
section
/-! SUPPORT. The rounds of CONVERT against the pure streams of Safety.lean: which stream each round sees, and how the
rounds end, which the streams alone decide (spec/42_loop_convergence.md R205 to R219). -/

namespace Sys2Proof.Machine

/-! ### The streams of the rounds (R206) -/

@[simp] theorem initialStream_length (s : State) : (initialStream s).length = 16 * s.blocks :=
  passDecode_length _ _ _ _ _ _

/-- The stream of round m + 1: the initial pass and m growth passes (R206). -/
theorem roundStream_length (s : State) (b m : Nat) :
    (roundStream s b m).length = 16 * s.blocks + m * (16 * (s.blocks - b)) := by
  induction m with
  | zero => simp [roundStream]
  | succ m ih => rw [roundStream, List.length_append, passDecode_length, ih, Nat.succ_mul m, Nat.add_assoc]

/-- A later round has a longer stream. -/
theorem roundStream_length_mono (s : State) (b : Nat) {m m' : Nat} (h : m ≤ m') :
    (roundStream s b m).length ≤ (roundStream s b m').length := by
  rw [roundStream_length, roundStream_length]
  exact Nat.add_le_add_left (Nat.mul_le_mul_right _ h) _

/-- The streams depend on the BRR memory and the block count alone. -/
theorem roundStream_congr {s t : State} (h : t.brr = s.brr) (hn : t.blocks = s.blocks) (b m : Nat) :
    roundStream t b m = roundStream s b m := by
  induction m with
  | zero => simp only [roundStream, initialStream, hn, passDecode_congr h]
  | succ m ih => simp only [roundStream, ih, hn, passDecode_congr h]

theorem candidateMatches_congr {s t : State} (h : t.brr = s.brr) (hn : t.blocks = s.blocks) (b : Nat)
    (st : List Sample) (k : Nat) : candidateMatches t b st k ↔ candidateMatches s b st k := by
  simp only [candidateMatches, probePair_congr h, hn]

theorem roundFails_congr {s t : State} (h : t.brr = s.brr) (hn : t.blocks = s.blocks) (b r : Nat) :
    roundFails t b r ↔ roundFails s b r := by
  simp only [roundFails, roundStream_congr h hn, candidateMatches_congr h hn]

theorem loopResolves_congr {s t : State} (h : t.brr = s.brr) (hc : t.cap = s.cap) (hn : t.blocks = s.blocks)
    (b r k : Nat) : loopResolves t b r k ↔ loopResolves s b r k := by
  simp only [loopResolves, roundFails_congr h hn, roundStream_congr h hn, candidateMatches_congr h hn, hc]

theorem loopOutgrows_congr {s t : State} (h : t.brr = s.brr) (hc : t.cap = s.cap) (hn : t.blocks = s.blocks)
    (b r : Nat) : loopOutgrows t b r ↔ loopOutgrows s b r := by
  simp only [loopOutgrows, roundFails_congr h hn, roundStream_congr h hn, hc]

theorem loopExhausts_congr {s t : State} (h : t.brr = s.brr) (hc : t.cap = s.cap) (hn : t.blocks = s.blocks)
    (b : Nat) : loopExhausts t b ↔ loopExhausts s b := by
  simp only [loopExhausts, roundFails_congr h hn, roundStream_congr h hn, hc]

/-! ### A loop ends in one way only -/

theorem loopResolves_unique {s : State} {b r k r' k' : Nat} (h : loopResolves s b r k) (h' : loopResolves s b r' k') :
    r = r' ∧ k = k' := by
  obtain ⟨h1, -, hf, -, hk, hkr, hm, hn⟩ := h
  obtain ⟨h1', -, hf', -, hk', hkr', hm', hn'⟩ := h'
  obtain hr : r = r' := by
    rcases Nat.lt_trichotomy r r' with hr | hr | hr
    · exact absurd hm (hf' r h1 hr k hk hkr)
    · exact hr
    · exact absurd hm' (hf r' h1' hr k' hk' hkr')
  subst hr
  refine ⟨rfl, ?_⟩
  rcases Nat.lt_trichotomy k k' with hr | hr | hr
  · exact absurd hm (hn' k hk hr)
  · exact hr
  · exact absurd hm' (hn k' hk' hr)

theorem loopOutgrows_unique {s : State} {b r r' : Nat} (h : loopOutgrows s b r) (h' : loopOutgrows s b r') : r = r' := by
  obtain ⟨-, -, -, hl, hg⟩ := h
  obtain ⟨-, -, -, hl', hg'⟩ := h'
  rcases Nat.lt_trichotomy r r' with hr | hr | hr
  · have := roundStream_length_mono s b (show r ≤ r' - 1 by omega); omega
  · exact hr
  · have := roundStream_length_mono s b (show r' ≤ r - 1 by omega); omega

theorem loopResolves_not_outgrows {s : State} {b r k r' : Nat} (h : loopResolves s b r k) :
    ¬ loopOutgrows s b r' := by
  rintro ⟨-, -, hf', -, hg'⟩
  obtain ⟨h1, -, -, hl, hk, hkr, hm, -⟩ := h
  by_cases hr : r ≤ r'
  · exact hf' r h1 hr k hk hkr hm
  · have := roundStream_length_mono s b (show r' ≤ r - 1 by omega); omega

theorem loopResolves_not_exhausts {s : State} {b r k : Nat} (h : loopResolves s b r k) : ¬ loopExhausts s b := by
  rintro ⟨hf', -⟩
  obtain ⟨h1, h64, -, -, hk, hkr, hm, -⟩ := h
  exact hf' r h1 h64 k hk hkr hm

theorem loopOutgrows_not_exhausts {s : State} {b r : Nat} (h : loopOutgrows s b r) : ¬ loopExhausts s b := by
  rintro ⟨-, hl⟩
  obtain ⟨-, h64, -, -, hg⟩ := h
  have := roundStream_length_mono s b (show r ≤ 63 by omega); omega

/-! ### The state in a round -/

/-- The state in a round of the loop from block `b` on, for a CONVERT whose cleared state is `s0`: the PCM memory holds the
stream of this round, the registers the warning of the initial pass, and no earlier round found a match. -/
structure InRound (s0 : State) (b : Nat) (s : State) : Prop where
  start : RoundStart s
  brr : s.brr = s0.brr
  cap : s.cap = s0.cap
  draw : s.draw = s0.draw
  host : s.host = s0.host
  resp : s.resp = s0.resp
  regs : s.regs = s0.regs.setFlagIf .firstHdr (s0.headerOverridden 0)
  n : s.hid.n = s0.blocks
  b_eq : s.hid.b = b
  pcm : s.pcm = storeSamples s0.pcm 0 (roundStream s0 b (s.hid.r - 1))
  failed : ∀ r, 1 ≤ r → r < s.hid.r → roundFails s0 b r

theorem InRound.base {s0 s : State} {b : Nat} (h : InRound s0 b s) : s.hid.base = 16 * (s0.blocks - b) := by
  rw [h.start.base, h.n, h.b_eq]

theorem InRound.length {s0 s : State} {b : Nat} (h : InRound s0 b s) :
    (roundStream s0 b (s.hid.r - 1)).length = s.hid.len := by
  rw [roundStream_length, h.start.len, h.n, h.base]

/-- The memory reads as the stream of the round. -/
theorem InRound.stream {s0 s : State} {b : Nat} (h : InRound s0 b s) {i : Nat} (hi : i < s.hid.len) :
    s.pcmRead i = (roundStream s0 b (s.hid.r - 1)).getD i 0#16 := by
  rw [← h.length] at hi
  have e := State.pcmRead_storeSamples_inside h.pcm (k := i) hi
  rw [Nat.zero_add] at e
  rw [e, List.getD_eq_getElem?_getD, List.getElem?_eq_getElem hi, Option.getD_some]

theorem InRound.sixteen_le {s0 s : State} {b : Nat} (h : InRound s0 b s) : 16 ≤ s.hid.len := by
  have h1 := h.start.len_eq
  have h2 : 1 * s.hid.base ≤ s.hid.r * s.hid.base := Nat.mul_le_mul_right _ h.start.round
  have h3 := h.start.base_pos
  omega

/-- The candidates of a round lie inside its stream. -/
theorem InRound.candidate {s0 s : State} {b : Nat} (h : InRound s0 b s) {k : Nat} (h1 : 1 ≤ k) (h2 : k ≤ s.hid.r) :
    s.hid.first + k * s.hid.base ≤ s.hid.len ∧ s.hid.len - k * s.hid.base + 1 < s.hid.len := by
  have e1 := h.start.len_eq
  have e2 : k * s.hid.base ≤ s.hid.r * s.hid.base := Nat.mul_le_mul_right _ h2
  have e3 : 1 * s.hid.base ≤ k * s.hid.base := Nat.mul_le_mul_right _ h1
  have e4 := h.start.base_pos
  omega

theorem InRound.probe {s0 s t : State} {b : Nat} (h : InRound s0 b s) (d : ProbeDone s t) : InRound s0 b t where
  start := d.roundStart h.start
  brr := d.inputs.brr.trans h.brr
  cap := d.inputs.cap.trans h.cap
  draw := d.inputs.draw.trans h.draw
  host := d.inputs.host.trans h.host
  resp := d.inputs.resp.trans h.resp
  regs := d.regs.trans h.regs
  n := d.inputs.n.trans h.n
  b_eq := d.inputs.b.trans h.b_eq
  pcm := by rw [d.pcm, d.inputs.r]; exact h.pcm
  failed := by rw [d.inputs.r]; exact h.failed

/-- A candidate of the memory matches the probe exactly when it matches in the stream (R209). -/
theorem InRound.matches_iff {s0 s t : State} {b : Nat} (h : InRound s0 b s) (d : ProbeDone s t) {k : Nat} (h1 : 1 ≤ k)
    (h2 : k ≤ s.hid.r) :
    t.matchesProbe (s.hid.len - k * s.hid.base) = true ↔
      candidateMatches s0 b (roundStream s0 b (s.hid.r - 1)) k := by
  obtain ⟨-, c2⟩ := h.candidate h1 h2
  have h16 := h.sixteen_le
  have rd : ∀ i < s.hid.len, t.pcmRead i = (roundStream s0 b (s.hid.r - 1)).getD i 0#16 := by
    intro i hi
    rw [State.pcmRead_congr d.pcm d.inputs.draw, h.stream hi]
  rw [State.matchesProbe_iff, d.pair', d.len, d.inputs.b, h.b_eq, probePair_congr (d.inputs.brr.trans h.brr),
    rd _ (by omega), rd _ (by omega), rd _ (by omega), rd _ (by omega)]
  unfold candidateMatches
  rw [h.length, ← h.base]

/-- A growth pass with room leads to the next round (R211, R212), once this one has failed. -/
theorem growthPass_inRound {s0 s : State} {b : Nat} (h : InRound s0 b s) (fails : roundFails s0 b s.hid.r)
    (room : s.hid.len + s.hid.base ≤ s.cap.pcmCap) :
    ∃ t, growthPass s = .next t ∧ t.hid.r = s.hid.r ∧ InRound s0 b (t.onHid fun g => { g with r := g.r + 1 }) := by
  have hb := h.start.base
  obtain ⟨t, ht, d⟩ := runPass_next (s.hid.n - s.hid.b) s.hid.b (growthPassStart s) rfl
    (by simpa [growthPassStart, ← hb] using room)
  have h16 := h.sixteen_le
  have hf : (growthPassStart s).hid.firstPending = false := h.start.decoded
  have hr : t.hid.r = s.hid.r := d.inputs.r
  have hn : t.hid.n = s.hid.n := d.inputs.n
  have hbase : t.hid.base = s.hid.base := d.inputs.base
  have hlen : t.hid.len = s.hid.len + s.hid.base := by rw [d.len, hb]; rfl
  obtain ⟨m, hm⟩ : ∃ m, s.hid.r = m + 1 := ⟨s.hid.r - 1, by have := h.start.round; omega⟩
  have hl := h.start.len
  have hln := h.length
  have hpcm := h.pcm
  have hp1 := h.stream (i := s.hid.len - 1) (by omega)
  have hp2 := h.stream (i := s.hid.len - 2) (by omega)
  rw [hm, Nat.add_sub_cancel] at hl hln hpcm hp1 hp2
  refine ⟨t, ht, hr, ⟨⟨?_, ?_, ?_, ?_, ?_, ?_, ?_⟩, d.inputs.brr.trans h.brr, d.inputs.cap.trans h.cap,
    d.inputs.draw.trans h.draw, d.inputs.host.trans h.host, d.inputs.resp.trans h.resp, ?_, d.inputs.n.trans h.n,
    d.inputs.b.trans h.b_eq, ?_, ?_⟩⟩
  · simp only [State.onHid_hid, d.inputs.b, d.inputs.n]; exact h.start.inside
  · simp only [State.onHid_hid, d.inputs.first, d.inputs.b]; exact h.start.first
  · simp only [State.onHid_hid, d.inputs.base, d.inputs.b, d.inputs.n]; exact h.start.base
  · simp only [State.onHid_hid]; omega
  · simp only [State.onHid_hid, hlen, hn, hbase, hr, hm, hl, Nat.add_sub_cancel, Nat.succ_mul]
    omega
  · simp only [State.onHid_hid, State.onHid_cap, hlen, d.inputs.cap]; exact room
  · simp only [State.onHid_hid, d.pending, hf, Bool.and_false]
  · simp only [State.onHid_regs, d.regs, State.passWarns, hf, Bool.and_false, Bool.false_and, Regs.setFlagIf_false]
    exact h.regs
  · simp only [State.onHid_hid, hr, hm, Nat.add_sub_cancel]
    show t.pcm = _
    rw [d.pcm, hf, passDecode_congr (s := s0) (t := growthPassStart s) h.brr, roundStream, storeSamples_append, ← hpcm,
      Nat.zero_add, hln, ← hp1, ← hp2, ← h.n, ← h.b_eq]
    rfl
  · intro r h1 h2
    simp only [State.onHid_hid, hr] at h2
    by_cases e : r = s.hid.r
    · subst e; exact fails
    · exact h.failed r h1 (by omega)

/-! ### How the rounds end (R210, R211, R213, R214) -/

/-- What the rounds of a loop answer: a match, written as the results, or one of two errors with no result written; and
what the streams say about it. -/
inductive Resolved (s0 : State) (b : Nat) : State × Option Raise → Prop
  | found (t : State) (p k : Nat) (h : InRound s0 b t) (ends : loopResolves s0 b t.hid.r k)
      (pos : p + k * t.hid.base = t.hid.len) : Resolved s0 b (acceptMatch p t, none)
  | exhausted (t : State) (h : InRound s0 b t) (ends : loopExhausts s0 b) :
      Resolved s0 b (t, some ⟨.loopConvergence, 0#8, 64#32⟩)
  | full (t : State) (h : InRound s0 b t) (ends : loopOutgrows s0 b t.hid.r) :
      Resolved s0 b (t, some ⟨.allocation, 2#8, BitVec.ofNat 32 (roundStream s0 b t.hid.r).length⟩)

/-- One round accepts the nearest match of its stream, or has none. -/
theorem oneRound_resolved {s0 s : State} {b : Nat} (h : InRound s0 b s) (bound : s.hid.r ≤ Config.maxRounds)
    (un : State → Conversion) :
    (∃ c, oneRound un s = .next c ∧ Resolved s0 b c) ∨
    ∃ t, ProbeDone s t ∧ roundFails s0 b s.hid.r ∧ oneRound un s = un t := by
  obtain ⟨t, ht, d⟩ := probe_next s
  have ht' := h.probe d
  have hbp : 0 < t.hid.base := by have := ht'.start.base_pos; omega
  have hl := d.len
  have hr : t.hid.r = s.hid.r := d.inputs.r
  have hbase : t.hid.base = s.hid.base := d.inputs.base
  cases hm : t.findMatch with
  | none =>
    refine .inr ⟨t, d, ?_, by simp [oneRound, ht, hm]⟩
    intro k h1 h2 hc
    have hk := (h.candidate h1 h2).1
    have := searchBack_none hbp _ _ (le_refl t.hid.len) hm k h1
      (by rw [d.inputs.first, d.inputs.base, d.len]; exact hk)
    rw [hl, hbase, (h.matches_iff d h1 h2).2 hc] at this
    cases this
  | some p =>
    obtain ⟨k, hk, hp, hf, hmt, hn⟩ := searchBack_some _ _ hm
    have hkr : k ≤ s.hid.r := by
      by_contra hkr
      have hle : (t.hid.r + 1) * t.hid.base ≤ k * t.hid.base := Nat.mul_le_mul_right _ (by omega)
      have := ht'.start.len_eq
      rw [Nat.succ_mul] at hle
      omega
    refine .inl ⟨_, by simp only [oneRound, ht, andThen_next, hm], .found t p k ht' ?_ hp⟩
    rw [hr]
    refine ⟨h.start.round, bound, h.failed, ?_, hk, hkr, ?_, ?_⟩
    · rw [h.length, ← h.cap]; exact h.start.room
    · have e : p = s.hid.len - k * s.hid.base := by rw [← hl, ← hbase]; omega
      rw [e] at hmt
      exact (h.matches_iff d hk hkr).1 hmt
    · intro k' h1 h2 hc
      have := hn k' h1 h2
      rw [hl, hbase, (h.matches_iff d h1 (by omega)).2 hc] at this
      cases this

/-- The rounds end at the first round with a match, or with an error after rounds that all failed. -/
theorem rounds_resolved (more : Nat) {s0 s : State} {b : Nat} (h : InRound s0 b s)
    (hm : s.hid.r + more = Config.maxRounds) : ∃ c, rounds more s = .next c ∧ Resolved s0 b c := by
  induction more generalizing s with
  | zero =>
    rcases oneRound_resolved h (by omega)
      (fun s1 => .next (s1, some ⟨.loopConvergence, 0#8, BitVec.ofNat 32 s1.hid.r⟩)) with hc | ⟨t, d, fails, ht⟩
    · exact hc
    · have h64 : s.hid.r = 64 := hm
      have hr : t.hid.r = 64 := d.inputs.r.trans h64
      refine ⟨_, by rw [rounds, ht, hr], .exhausted t (h.probe d) ⟨fun r h1 h2 => ?_, ?_⟩⟩
      · by_cases e : r = s.hid.r
        · subst e; exact fails
        · exact h.failed r h1 (by omega)
      · have hl := h.length
        rw [h64] at hl
        rw [hl, ← h.cap]; exact h.start.room
  | succ more ih =>
    rcases oneRound_resolved h (by omega) (growThen (rounds more)) with hc | ⟨t, d, fails, ht⟩
    · exact hc
    · have hs := h.probe d
      have hr : t.hid.r = s.hid.r := d.inputs.r
      have hf : roundFails s0 b t.hid.r := by rw [hr]; exact fails
      have hmax : Config.maxRounds = 64 := rfl
      rw [rounds, ht, growThen]
      by_cases room : t.cap.pcmCap < t.hid.len + t.hid.base
      · have next : (roundStream s0 b t.hid.r).length = t.hid.len + t.hid.base := by
          obtain ⟨m, hm⟩ : ∃ m, t.hid.r = m + 1 := ⟨t.hid.r - 1, by have := hs.start.round; omega⟩
          rw [roundStream_length, hs.start.len, hs.n, hs.base, hm, Nat.add_sub_cancel, Nat.succ_mul m, Nat.add_assoc]
        rw [if_pos room, ← next]
        refine ⟨_, rfl, .full t hs ⟨hs.start.round, by omega, fun r h1 h2 => ?_, ?_, by rw [next, ← hs.cap]; exact room⟩⟩
        · by_cases e : r = t.hid.r
          · subst e; exact hf
          · exact hs.failed r h1 (by omega)
        · rw [hs.length, ← hs.cap]; exact hs.start.room
      · rw [if_neg room]
        obtain ⟨u, hu, hur, hu'⟩ := growthPass_inRound hs hf (by omega)
        rw [hu, andThen_next]
        exact ih hu' (by simp only [State.onHid_hid, hur, hr]; omega)

end Sys2Proof.Machine
end

