-- ==== Sys2Proof/Laws/Commands.lean ====
section
/-! SUPPORT. What each command can do, once each: the loop request, the initial pass and the whole of CONVERT (R263), and
the fields its end leaves. -/

namespace Sys2Proof.Machine

/-! ### How a command ends (R261, R303) -/

/-- A command that raises at once. -/
theorem beginCommand_raise (w : Word) (e : Raise) (r : Regs) :
    (r.beginCommand w).raise e = endedRegs w 0x03#5 (e.sub ++ e.kind.code) e.info r := by
  simp [Regs.raise_eq, Regs.beginCommand, endedRegs]

/-- A command that ends at once. -/
theorem beginCommand_finish (w : Word) (r : Regs) :
    (r.beginCommand w).setFlag .done = endedRegs w 0x01#5 0#16 0#32 r := by
  simp [Regs.finish_eq, Regs.beginCommand, endedRegs]

/-! ### DECODE_BLOCK (R264) -/

/-- The decode a DECODE_BLOCK in state `s` makes. -/
def State.blockAtOffset (s : State) : BlockResult :=
  let b := s.fetchBlock s.regs.blkOfs.toNat
  blockDecode b.shift b.filter b.nibbles s.regs.prev s.regs.prev2 s.regs.blkFirst

/-- DECODE_BLOCK of an input larger than the BRR memory. -/
theorem execDecodeBlock_oversized (g : BitVec 24) (s : State) (h : s.cap.brrCap < s.inLen) :
    execDecodeBlock g s = .next ((decodeBlockStart g s).raise ⟨.address, 1#8, s.regs.inLen⟩) := by
  unfold State.inLen at h
  simp only [execDecodeBlock, h, if_true]

/-- DECODE_BLOCK of a block past the input. -/
theorem execDecodeBlock_outside (g : BitVec 24) (s : State) (h : s.inLen ≤ s.cap.brrCap)
    (h' : s.inLen < s.regs.blkOfs.toNat + 9) :
    execDecodeBlock g s = .next ((decodeBlockStart g s).raise ⟨.address, 2#8, s.regs.blkOfs⟩) := by
  unfold State.inLen at h h'
  simp only [execDecodeBlock, Nat.not_lt.2 h, h', if_true, if_false]

/-- DECODE_BLOCK of a block inside the input. -/
theorem execDecodeBlock_inside (g : BitVec 24) (s : State) (h : s.inLen ≤ s.cap.brrCap)
    (h' : s.regs.blkOfs.toNat + 9 ≤ s.inLen) :
    execDecodeBlock g s = .next (State.finish { decodeBlockStart g s with
      regs := { (s.regs.beginCommand (commandWord g 3#8)).setFlagIf .firstHdr s.blockAtOffset.warnFirst with
        outBlk := overwrite s.regs.outBlk 0 s.blockAtOffset.out
        hist := histWord s.blockAtOffset.prev s.blockAtOffset.prev2 } }) := by
  unfold State.inLen at h h'
  simp only [execDecodeBlock]
  rw [if_neg (by omega), if_neg (by omega), issueBlock_eq, runBlock_command rfl, andThen_next]
  rfl

/-! ### The loop request (R200 to R204) -/

/-- A request that is not an error: none, dropped, or a loop from a block of the input. -/
theorem resolveLoopRequest_ok {s : State} {n : Nat} {req : LoopRequest} (h : resolveLoopRequest n s = .ok req) :
    (req = .absent ∧ s.regs.loopOfs.toInt = -1) ∨
    (req = .dropped ∧ s.regs.loopOfs.toInt ≠ -1 ∧ headerLoop (s.brrRead (9 * (n - 1))) = false) ∨
    ∃ b : Nat, req = .loop b ∧ headerLoop (s.brrRead (9 * (n - 1))) = true ∧
      s.regs.loopOfs.toInt = 9 * (b : Int) ∧ 9 * b < s.inLen := by
  simp only [resolveLoopRequest] at h
  split at h
  · cases h; left; exact ⟨rfl, ‹_›⟩
  · split at h
    · cases h; right; left; exact ⟨rfl, ‹_›, ‹_›⟩
    · split at h
      · cases h
      · split at h
        · cases h
        · split at h
          · cases h
          · cases h
            right; right
            exact ⟨s.regs.loopOfs.toInt.toNat / 9, rfl, by simpa using ‹¬ headerLoop _ = false›, by omega, by omega⟩

/-- The errors of a loop request (R203). -/
theorem resolveLoopRequest_error {s : State} {n : Nat} {e : Raise} (h : resolveLoopRequest n s = .error e) :
    e.kind = .loopOffset ∧ (e.sub = 1#8 ∨ e.sub = 2#8 ∨ e.sub = 3#8) ∧ e.info = s.regs.loopOfs := by
  simp only [resolveLoopRequest] at h
  split at h
  · cases h
  · split at h
    · cases h
    · split at h
      · cases h; simp
      · split at h
        · cases h; simp
        · split at h
          · cases h; simp
          · cases h

/-! ### The initial pass (R182, R183, R185) -/

/-- What the loop request and the initial pass leave for the rest of a CONVERT. -/
structure InitialDone (req : LoopRequest) (s t : State) : Prop where
  brr : t.brr = s.brr
  cap : t.cap = s.cap
  draw : t.draw = s.draw
  host : t.host = s.host
  resp : t.resp = s.resp
  regs : t.regs = (s.regs.setFlagIf .loopDrop (req == .dropped)).setFlagIf .firstHdr (s.headerOverridden 0)
  pcm : t.pcm = storeSamples s.pcm 0 (initialStream s)
  len : t.hid.len = 16 * s.blocks
  n : t.hid.n = s.blocks
  decoded : t.hid.firstPending = false

theorem initialPass_next (req : LoopRequest) (s : State) (hn : 0 < s.blocks) (room : 16 * s.blocks ≤ s.cap.pcmCap) :
    ∃ t, initialPass s.blocks (s.warnIf .loopDrop (req == .dropped)) = .next t ∧ InitialDone req s t := by
  obtain ⟨t, ht, d⟩ := runPass_next s.blocks 0
    (initialPassStart s.blocks (s.warnIf .loopDrop (req == .dropped))) rfl (by simpa [initialPassStart] using room)
  refine ⟨t, ht, d.inputs.brr, d.inputs.cap, d.inputs.draw, d.inputs.host, d.inputs.resp, ?_, ?_, ?_, d.inputs.n, ?_⟩
  · rw [d.regs]
    simp only [State.passWarns, hn, decide_true, Bool.true_and]
    rfl
  · rw [d.pcm]
    have e := passDecode_congr (s := s) (t := initialPassStart s.blocks (s.warnIf .loopDrop (req == .dropped))) rfl
      s.blocks 0 0#16 0#16 true
    exact congrArg (fun p => storeSamples s.pcm 0 p.1) e
  · rw [d.len]; simp [initialPassStart]
  · rw [d.pending]; simp [show s.blocks ≠ 0 by omega]

/-- The rounds of CONVERT start as R204 and R206 say. -/
theorem InitialDone.roundStart {req : LoopRequest} {s t : State} (d : InitialDone req s t)
    (room : 16 * s.blocks ≤ s.cap.pcmCap) {b : Nat} (hb : b < s.blocks) :
    RoundStart (convergeStart b t) := by
  constructor
  · simpa [convergeStart, d.n] using hb
  · rfl
  · rfl
  · simp [convergeStart]
  · simp [convergeStart, d.n, d.len]
  · simpa [convergeStart, d.len, d.cap] using room
  · simpa [convergeStart] using d.decoded

/-- The first round sees the initial stream (R205, R206). -/
theorem InitialDone.inRound {s t : State} {b : Nat} (d : InitialDone (.loop b) s t)
    (room : 16 * s.blocks ≤ s.cap.pcmCap) (hb : b < s.blocks) : InRound s b (convergeStart b t) where
  start := d.roundStart room hb
  brr := d.brr
  cap := d.cap
  draw := d.draw
  host := d.host
  resp := d.resp
  regs := d.regs
  n := d.n
  b_eq := rfl
  pcm := d.pcm
  failed := by
    intro r h1 h2
    have : (convergeStart b t).hid.r = 1 := rfl
    omega

/-! ### The whole of CONVERT (R263, R305) -/

/-- How the steps of a CONVERT can end, from its cleared state on. -/
inductive ConvertDone (s : State) : State × Option Raise → Prop
  | invalid (e : Raise) (h : validate s = .error e) : ConvertDone s (s, some e)
  | badRequest (e : Raise) (valid : validStream s) (h : resolveLoopRequest s.blocks s = .error e) :
      ConvertDone s (s, some e)
  | noRoom (req : LoopRequest) (valid : validStream s) (h : resolveLoopRequest s.blocks s = .ok req)
      (full : s.cap.pcmCap < 16 * s.blocks) :
      ConvertDone s (s.warnIf .loopDrop (req == .dropped),
        some ⟨.allocation, 1#8, BitVec.ofNat 32 (16 * s.blocks)⟩)
  | whole (req : LoopRequest) (t : State) (valid : validStream s) (h : resolveLoopRequest s.blocks s = .ok req)
      (noLoop : ∀ b, req ≠ .loop b) (room : 16 * s.blocks ≤ s.cap.pcmCap) (d : InitialDone req s t) :
      ConvertDone s (recordBlockCount s.blocks (acceptWhole s.blocks t, none))
  | looped (b : Nat) (c : State × Option Raise) (valid : validStream s)
      (h : resolveLoopRequest s.blocks s = .ok (.loop b)) (room : 16 * s.blocks ≤ s.cap.pcmCap) (d : Resolved s b c) :
      ConvertDone s (recordBlockCount s.blocks c)

/-- The steps of a CONVERT always answer, in one of those ways. -/
theorem convertSteps_next (s : State) : ∃ c, convertSteps s = .next c ∧ ConvertDone s c := by
  unfold convertSteps
  cases hv : validate s with
  | error e => exact ⟨_, rfl, .invalid e hv⟩
  | ok n =>
    obtain ⟨valid, rfl⟩ := (validate_ok_iff s n).1 hv
    simp only
    cases hr : resolveLoopRequest s.blocks s with
    | error e => exact ⟨_, rfl, .badRequest e valid hr⟩
    | ok req =>
      simp only [convertStream]
      by_cases full : s.cap.pcmCap < 16 * s.blocks
      · rw [if_pos (by simpa using full)]
        exact ⟨_, rfl, .noRoom req valid hr full⟩
      · rw [if_neg (by simpa using full)]
        have room : 16 * s.blocks ≤ s.cap.pcmCap := by omega
        obtain ⟨t, ht, d⟩ := initialPass_next req s (validStream_blocks_pos valid) room
        rw [ht, andThen_next]
        cases req with
        | absent => exact ⟨_, rfl, .whole .absent t valid hr (by simp) room d⟩
        | dropped => exact ⟨_, rfl, .whole .dropped t valid hr (by simp) room d⟩
        | loop b =>
          have hb : b < s.blocks := by
            rcases resolveLoopRequest_ok hr with ⟨h, -⟩ | ⟨h, -⟩ | ⟨b', h, -, -, h4⟩
            · cases h
            · cases h
            · cases h
              have h9 := valid.2.1
              unfold State.blocks; omega
          obtain ⟨c, hc, dc⟩ := rounds_resolved (Config.maxRounds - 1) (d.inRound room hb) rfl
          simp only [converge, hc, andThen_next]
          exact ⟨_, rfl, .looped b c valid hr room dc⟩

/-- CONVERT always completes, in one of those ways from its cleared state. -/
theorem execConvert_next (g : BitVec 24) (s : State) :
    ∃ c, execConvert g s = .next (convertEnd c) ∧ ConvertDone (convertStart g s) c := by
  obtain ⟨c, hc, d⟩ := convertSteps_next (convertStart g s)
  exact ⟨c, by simp [execConvert, hc], d⟩

/-! ### The end of a CONVERT -/

@[simp] theorem convertEnd_regs (c : State × Option Raise) :
    (convertEnd c).regs = match c.2 with
      | some e => c.1.regs.raise e
      | none => c.1.regs.setFlag .done := by
  unfold convertEnd State.complete
  cases c.2 <;> rfl

@[simp] theorem convertEnd_brr (c : State × Option Raise) : (convertEnd c).brr = c.1.brr := by
  unfold convertEnd State.complete
  cases c.2 <;> rfl

@[simp] theorem convertEnd_cap (c : State × Option Raise) : (convertEnd c).cap = c.1.cap := by
  unfold convertEnd State.complete
  cases c.2 <;> rfl

@[simp] theorem convertEnd_draw (c : State × Option Raise) : (convertEnd c).draw = c.1.draw := by
  unfold convertEnd State.complete
  cases c.2 <;> rfl

@[simp] theorem convertEnd_host (c : State × Option Raise) : (convertEnd c).host = c.1.host := by
  unfold convertEnd State.complete
  cases c.2 <;> rfl

@[simp] theorem convertEnd_resp (c : State × Option Raise) : (convertEnd c).resp = c.1.resp := by
  unfold convertEnd State.complete
  cases c.2 <;> rfl

@[simp] theorem convertEnd_pcm (c : State × Option Raise) :
    (convertEnd c).pcm = match c.2 with
      | some _ => []
      | none => c.1.pcm := by
  unfold convertEnd State.complete
  cases c.2 <;> rfl

end Sys2Proof.Machine
end

