-- ==== Sys2Proof/Laws/Encoding.lean ====
section
/-! SUPPORT. The fields of the encodings: the header byte, the payload and the command word taken apart and put together
again (spec/30_encoding.md R102, R107, R111). -/

namespace Sys2Proof

/-! ### The header byte -/

@[simp] theorem headerShift_headerByte (sh : BitVec 4) (f : BitVec 2) (l e : Bool) :
    headerShift (headerByte sh f l e) = sh := by
  revert sh f l e; decide

@[simp] theorem headerFilter_headerByte (sh : BitVec 4) (f : BitVec 2) (l e : Bool) :
    headerFilter (headerByte sh f l e) = f := by
  revert sh f l e; decide

@[simp] theorem headerLoop_headerByte (sh : BitVec 4) (f : BitVec 2) (l e : Bool) :
    headerLoop (headerByte sh f l e) = l := by
  revert sh f l e; decide

@[simp] theorem headerEnd_headerByte (sh : BitVec 4) (f : BitVec 2) (l e : Bool) :
    headerEnd (headerByte sh f l e) = e := by
  revert sh f l e; decide

@[simp] theorem headerByte_fields (h : Byte) :
    headerByte (headerShift h) (headerFilter h) (headerLoop h) (headerEnd h) = h := by
  revert h; decide

/-- The filter field is the header under the mask 0x0C (R109). -/
theorem headerFilter_eq_iff (h : Byte) :
    (h &&& 0x0C#8 = 0x00#8 ↔ headerFilter h = 0#2) ∧ (h &&& 0x0C#8 = 0x04#8 ↔ headerFilter h = 1#2) ∧
    (h &&& 0x0C#8 = 0x08#8 ↔ headerFilter h = 2#2) ∧ (h &&& 0x0C#8 = 0x0C#8 ↔ headerFilter h = 3#2) := by
  revert h; decide

/-- There are four filter fields. -/
theorem filter_cases (f : BitVec 2) : f = 0#2 ∨ f = 1#2 ∨ f = 2#2 ∨ f = 3#2 := by
  revert f; decide

/-! ### The payload -/

theorem extract_hi_append (hi lo : Nibble) : (hi ++ lo : Byte).extractLsb' 4 4 = hi := by
  revert hi lo; decide

theorem extract_lo_append (hi lo : Nibble) : (hi ++ lo : Byte).extractLsb' 0 4 = lo := by
  revert hi lo; decide

theorem nibbles_append (p : Byte) : (p.extractLsb' 4 4 ++ p.extractLsb' 0 4 : Byte) = p := by
  revert p; decide

/-- An even number of nibbles fits whole bytes and comes back from them. -/
theorem payloadNibbles_payloadBytes (k : Nat) (ns : List Nibble) (h : ns.length = 2 * k) :
    payloadNibbles (payloadBytes ns) = ns ∧ (payloadBytes ns).length = k := by
  induction k generalizing ns with
  | zero =>
    obtain rfl : ns = [] := List.length_eq_zero_iff.1 h
    exact ⟨rfl, rfl⟩
  | succ k ih =>
    match ns, h with
    | hi :: lo :: ns, h =>
      obtain ⟨a, b⟩ := ih ns (by simp only [List.length_cons] at h; omega)
      simp only [payloadBytes, payloadNibbles, extract_hi_append, extract_lo_append, a, b, List.length_cons, and_self]

/-- The payload bytes of a payload's nibbles. -/
@[simp] theorem payloadBytes_payloadNibbles (ps : List Byte) : payloadBytes (payloadNibbles ps) = ps := by
  induction ps with
  | nil => rfl
  | cons p ps ih => simp only [payloadNibbles, payloadBytes, nibbles_append, ih]

/-- Nibble i stands in payload byte i div 2, the even ones high (R107). -/
theorem payloadNibbles_getD (ps : List Byte) (i : Nat) (hi : i < 2 * ps.length) :
    (payloadNibbles ps).getD i 0#4 =
      if i % 2 = 0 then (ps.getD (i / 2) 0#8).extractLsb' 4 4 else (ps.getD (i / 2) 0#8).extractLsb' 0 4 := by
  induction ps generalizing i with
  | nil => simp at hi
  | cons p ps ih =>
    match i, hi with
    | 0, _ => rfl
    | 1, _ => rfl
    | i + 2, hi =>
      have := ih i (by simp only [List.length_cons] at hi; omega)
      simp only [payloadNibbles, List.getD_cons_succ, this, Nat.add_mod_right, show (i + 2) / 2 = i / 2 + 1 by omega]

/-! ### The command word -/

@[simp] theorem commandCode_append (g : BitVec 24) (c : Byte) : commandCode (g ++ c) = c := by
  apply BitVec.eq_of_getLsbD_eq
  intro i hi
  simp only [commandCode, BitVec.getLsbD_extractLsb', BitVec.getLsbD_append, Nat.zero_add]
  simp [hi]

@[simp] theorem commandIgnored_append (g : BitVec 24) (c : Byte) : commandIgnored (g ++ c) = g := by
  apply BitVec.eq_of_getLsbD_eq
  intro i hi
  simp only [commandIgnored, BitVec.getLsbD_extractLsb', BitVec.getLsbD_append]
  simp [hi, show ¬ 8 + i < 8 by omega]

@[simp] theorem commandWord_parts (w : Word) : commandIgnored w ++ commandCode w = w := by
  apply BitVec.eq_of_getLsbD_eq
  intro i hi
  simp only [commandCode, commandIgnored, BitVec.getLsbD_append, BitVec.getLsbD_extractLsb']
  by_cases h : i < 8
  · simp [h]
  · simp [h, show i - 8 < 24 by omega, show 8 + (i - 8) = i by omega]

/-- What a decoded command word is: its ignored bits and the code of its instruction. -/
theorem decodeCommand_ok {w : Word} {i : Instr} (h : decodeCommand w = .ok i) :
    (i = .validate (commandIgnored w) ∧ commandCode w = 1#8) ∨ (i = .convert (commandIgnored w) ∧ commandCode w = 2#8) ∨
    (i = .decodeBlock (commandIgnored w) ∧ commandCode w = 3#8) ∨
    (i = .encodeRate (commandIgnored w) ∧ commandCode w = 4#8) := by
  unfold decodeCommand at h
  split_ifs at h <;> cases h <;> simp_all

end Sys2Proof
end

