-- ==== Sys2Proof/Laws/Endings.lean ====
section
/-! SUPPORT. How a CONVERT ends (R263, R267, R305): what it leaves is an `Ending`, which the operands decide alone, so that
two CONVERTs on the same operands end alike (R269). -/

namespace Sys2Proof.Machine

/-- What a CONVERT leaves: its flags, its error and detail, the exact values of its six results, and its stream (empty
where it raised). -/
structure Ending where
  status : BitVec 5
  error : BitVec 16
  info : Word
  blocks : Nat
  count : Nat
  base : Nat
  start : Nat
  len : Nat
  rounds : Nat
  stream : List Sample

/-- W_FIRSTHDR after an initial pass (R162). -/
def State.firstHdrBit (s : State) : BitVec 5 := if s.headerOverridden 0 then 0x08#5 else 0#5

/-- W_LOOPDROP after a loop request (R202). -/
def LoopRequest.dropBit (req : LoopRequest) : BitVec 5 := if req = .dropped then 0x10#5 else 0#5

/-- An error, with the warnings before it (R303, R311). -/
def Ending.failed (warnings : BitVec 5) (e : Raise) : Ending where
  status := 0x03#5 ||| warnings
  error := e.sub ++ e.kind.code
  info := e.info
  blocks := 0
  count := 0
  base := 0
  start := 0
  len := 0
  rounds := 0
  stream := []

/-- A stream with no loop analysed (R220). -/
def Ending.whole (s : State) (req : LoopRequest) : Ending where
  status := 0x01#5 ||| s.firstHdrBit ||| req.dropBit
  error := 0#16
  info := 0#32
  blocks := s.blocks
  count := 16 * s.blocks
  base := 0
  start := 0
  len := 0
  rounds := 0
  stream := initialStream s

/-- A loop from block `b` resolved in round `r` at candidate `k` (R214). -/
def Ending.looped (s : State) (b r k : Nat) : Ending where
  status := 0x05#5 ||| s.firstHdrBit
  error := 0#16
  info := 0#32
  blocks := s.blocks
  count := (roundStream s b (r - 1)).length
  base := 16 * (s.blocks - b)
  start := (roundStream s b (r - 1)).length - k * (16 * (s.blocks - b))
  len := k * (16 * (s.blocks - b))
  rounds := r
  stream := roundStream s b (r - 1)

/-- The ending of a CONVERT of the input of `s`, from its checks and its streams alone. -/
inductive ConvertEnds (s : State) : Ending → Prop
  | invalid (e : Raise) (v : validate s = .error e) : ConvertEnds s (.failed 0#5 e)
  | badRequest (e : Raise) (v : validate s = .ok s.blocks) (q : resolveLoopRequest s.blocks s = .error e) :
      ConvertEnds s (.failed 0#5 e)
  | noRoom (req : LoopRequest) (v : validate s = .ok s.blocks) (q : resolveLoopRequest s.blocks s = .ok req)
      (full : s.cap.pcmCap < 16 * s.blocks) :
      ConvertEnds s (.failed req.dropBit ⟨.allocation, 1#8, BitVec.ofNat 32 (16 * s.blocks)⟩)
  | whole (req : LoopRequest) (v : validate s = .ok s.blocks) (q : resolveLoopRequest s.blocks s = .ok req)
      (noLoop : ∀ b, req ≠ .loop b) (room : 16 * s.blocks ≤ s.cap.pcmCap) : ConvertEnds s (.whole s req)
  | resolved (b r k : Nat) (v : validate s = .ok s.blocks) (q : resolveLoopRequest s.blocks s = .ok (.loop b))
      (room : 16 * s.blocks ≤ s.cap.pcmCap) (ends : loopResolves s b r k) : ConvertEnds s (.looped s b r k)
  | outgrown (b r : Nat) (v : validate s = .ok s.blocks) (q : resolveLoopRequest s.blocks s = .ok (.loop b))
      (room : 16 * s.blocks ≤ s.cap.pcmCap) (ends : loopOutgrows s b r) :
      ConvertEnds s (.failed s.firstHdrBit ⟨.allocation, 2#8, BitVec.ofNat 32 (roundStream s b r).length⟩)
  | exhausted (b : Nat) (v : validate s = .ok s.blocks) (q : resolveLoopRequest s.blocks s = .ok (.loop b))
      (room : 16 * s.blocks ≤ s.cap.pcmCap) (ends : loopExhausts s b) :
      ConvertEnds s (.failed s.firstHdrBit ⟨.loopConvergence, 0#8, 64#32⟩)

/-! ### One ending, decided by the operands -/

theorem ConvertEnds.unique {s : State} {e e' : Ending} (h : ConvertEnds s e) (h' : ConvertEnds s e') : e = e' := by
  cases h with
  | invalid x v => cases h' <;> simp_all
  | badRequest x v q => cases h' <;> simp_all
  | noRoom req v q full => cases h' <;> simp_all <;> omega
  | whole req v q noLoop room =>
    have no : ∀ {b}, resolveLoopRequest s.blocks s ≠ .ok (.loop b) := fun {b} h =>
      noLoop b (Except.ok.inj (q.symm.trans h))
    cases h' with
    | whole => simp_all
    | resolved b r k v q room ends => exact absurd q no
    | outgrown b r v q room ends => exact absurd q no
    | exhausted b v q room ends => exact absurd q no
    | invalid => simp_all
    | badRequest => simp_all
    | noRoom => omega
  | resolved b r k v q room ends =>
    cases h' with
    | resolved b' r' k' v' q' room' ends' =>
      obtain rfl : b = b' := by simpa [q] using q'
      obtain ⟨rfl, rfl⟩ := loopResolves_unique ends ends'
      rfl
    | outgrown b' r' v' q' room' ends' =>
      obtain rfl : b = b' := by simpa [q] using q'
      exact absurd ends' (loopResolves_not_outgrows ends)
    | exhausted b' v' q' room' ends' =>
      obtain rfl : b = b' := by simpa [q] using q'
      exact absurd ends' (loopResolves_not_exhausts ends)
    | invalid => simp_all
    | badRequest => simp_all
    | noRoom => omega
    | whole => simp_all
  | outgrown b r v q room ends =>
    cases h' with
    | resolved b' r' k' v' q' room' ends' =>
      obtain rfl : b = b' := by simpa [q] using q'
      exact absurd ends (loopResolves_not_outgrows ends')
    | outgrown b' r' v' q' room' ends' =>
      obtain rfl : b = b' := by simpa [q] using q'
      rw [loopOutgrows_unique ends ends']
    | exhausted b' v' q' room' ends' =>
      obtain rfl : b = b' := by simpa [q] using q'
      exact absurd ends' (loopOutgrows_not_exhausts ends)
    | invalid => simp_all
    | badRequest => simp_all
    | noRoom => omega
    | whole => simp_all
  | exhausted b v q room ends =>
    cases h' with
    | resolved b' r' k' v' q' room' ends' =>
      obtain rfl : b = b' := by simpa [q] using q'
      exact absurd ends (loopResolves_not_exhausts ends')
    | outgrown b' r' v' q' room' ends' =>
      obtain rfl : b = b' := by simpa [q] using q'
      exact absurd ends (loopOutgrows_not_exhausts ends')
    | exhausted => rfl
    | invalid => simp_all
    | badRequest => simp_all
    | noRoom => omega
    | whole => simp_all

/-- The operands of a CONVERT: the BRR memory, the parameters, IN_LEN and LOOP_OFS (R111, R263). -/
structure SameOperands (s t : State) : Prop where
  brr : t.brr = s.brr
  cap : t.cap = s.cap
  inLen : t.regs.inLen = s.regs.inLen
  loopOfs : t.regs.loopOfs = s.regs.loopOfs

theorem SameOperands.inLen_eq {s t : State} (h : SameOperands s t) : t.inLen = s.inLen := by
  rw [State.inLen, State.inLen, h.inLen]

theorem SameOperands.blocks {s t : State} (h : SameOperands s t) : t.blocks = s.blocks := by
  rw [State.blocks, State.blocks, h.inLen_eq]

theorem SameOperands.validate {s t : State} (h : SameOperands s t) : validate t = validate s :=
  validate_congr h.brr h.cap h.inLen

theorem SameOperands.request {s t : State} (h : SameOperands s t) (n : Nat) :
    resolveLoopRequest n t = resolveLoopRequest n s := by
  simp only [resolveLoopRequest, h.loopOfs, State.brrRead_congr h.brr, h.inLen_eq]

theorem SameOperands.firstHdrBit {s t : State} (h : SameOperands s t) : t.firstHdrBit = s.firstHdrBit := by
  have e : t.headerOverridden 0 = s.headerOverridden 0 := by
    simp only [State.headerOverridden, State.brrRead_congr h.brr]
  rw [State.firstHdrBit, State.firstHdrBit, e]

/-- Equal operands have equal endings (R269). -/
theorem ConvertEnds.congr {s t : State} (h : SameOperands s t) {e : Ending} (d : ConvertEnds t e) :
    ConvertEnds s e := by
  have hn := h.blocks
  cases d with
  | invalid x v => exact .invalid x (h.validate ▸ v)
  | badRequest x v q => exact .badRequest x (by rw [← h.validate, v, hn]) (by rw [← h.request, ← hn, q])
  | noRoom req v q full =>
    rw [hn]
    exact .noRoom req (by rw [← h.validate, v, hn]) (by rw [← h.request, ← hn, q]) (by rw [← hn, ← h.cap]; exact full)
  | whole req v q noLoop room =>
    have e : Ending.whole t req = Ending.whole s req := by
      simp only [Ending.whole, hn, h.firstHdrBit, initialStream, passDecode_congr h.brr]
    rw [e]
    exact .whole req (by rw [← h.validate, v, hn]) (by rw [← h.request, ← hn, q]) noLoop
      (by rw [← hn, ← h.cap]; exact room)
  | resolved b r k v q room ends =>
    have e : Ending.looped t b r k = Ending.looped s b r k := by
      simp only [Ending.looped, hn, h.firstHdrBit, roundStream_congr h.brr hn]
    rw [e]
    exact .resolved b r k (by rw [← h.validate, v, hn]) (by rw [← h.request, ← hn, q])
      (by rw [← hn, ← h.cap]; exact room) ((loopResolves_congr h.brr h.cap hn b r k).1 ends)
  | outgrown b r v q room ends =>
    rw [h.firstHdrBit, roundStream_congr h.brr hn]
    exact .outgrown b r (by rw [← h.validate, v, hn]) (by rw [← h.request, ← hn, q])
      (by rw [← hn, ← h.cap]; exact room) ((loopOutgrows_congr h.brr h.cap hn b r).1 ends)
  | exhausted b v q room ends =>
    rw [h.firstHdrBit]
    exact .exhausted b (by rw [← h.validate, v, hn]) (by rw [← h.request, ← hn, q])
      (by rw [← hn, ← h.cap]; exact room) ((loopExhausts_congr h.brr h.cap hn b).1 ends)

/-! ### What every ending has -/

theorem ErrorKind.code_ne_zero (k : ErrorKind) : k.code ≠ 0#8 := by
  cases k <;> decide

/-- The warning bits are neither DONE nor ERR nor LOOPED. -/
theorem State.firstHdrBit_low (s : State) :
    s.firstHdrBit[0] = false ∧ s.firstHdrBit[1] = false ∧ s.firstHdrBit[2] = false := by
  unfold State.firstHdrBit
  split <;> simp

theorem LoopRequest.dropBit_low (req : LoopRequest) :
    req.dropBit[0] = false ∧ req.dropBit[1] = false ∧ req.dropBit[2] = false := by
  unfold LoopRequest.dropBit
  split <;> simp

/-- The flags, the error and the sizes of an ending (R45, R261, R303). -/
structure Ending.Sound (s : State) (e : Ending) : Prop where
  done : e.status.getLsbD 0 = true
  err : e.status.getLsbD 1 = true ↔ e.error.extractLsb' 0 8 ≠ 0#8
  not_looped : e.status.getLsbD 1 = true → e.status.getLsbD 2 = false
  rounds : e.rounds ≤ 64
  fits : e.stream.length ≤ s.cap.pcmCap

theorem Ending.failed_sound (s : State) (w : BitVec 5) (e : Raise) (h : w[2] = false) :
    (Ending.failed w e).Sound s := by
  constructor <;> simp [Ending.failed, error_code, ErrorKind.code_ne_zero, h]

theorem ConvertEnds.sound {s : State} {e : Ending} (h : ConvertEnds s e) : e.Sound s := by
  have f := s.firstHdrBit_low
  cases h with
  | invalid x v => exact Ending.failed_sound s _ x rfl
  | badRequest x v q => exact Ending.failed_sound s _ x rfl
  | noRoom req v q full => exact Ending.failed_sound s _ _ req.dropBit_low.2.2
  | whole req v q noLoop room => constructor <;> simp [Ending.whole, f, req.dropBit_low, room]
  | resolved b r k v q room ends =>
    refine ⟨?_, ?_, ?_, ends.2.1, ends.2.2.2.1⟩ <;> simp [Ending.looped, f]
  | outgrown b r v q room ends => exact Ending.failed_sound s _ _ f.2.2
  | exhausted b v q room ends => exact Ending.failed_sound s _ _ f.2.2

/-! ### What a CONVERT leaves -/

/-- The registers after a CONVERT with this ending; `draw` selects the free values (log 10). -/
def Ending.regs (e : Ending) (g : BitVec 24) (draw : Nat) (r : Regs) : Regs :=
  endedRegs (g ++ 0x02#8) e.status e.error e.info
    { r with
      blockCount := BitVec.ofNat 32 e.blocks
      sampleCount := resultWord draw 0x0B e.count
      baseLoopLen := resultWord draw 0x0C e.base
      loopStart := resultWord draw 0x0D e.start
      loopLen := resultWord draw 0x0E e.len
      rounds := BitVec.ofNat 32 e.rounds }

/-- The state after a CONVERT with this ending, the hidden state apart. -/
structure ConvertLeaves (g : BitVec 24) (s : State) (e : Ending) (t : State) : Prop where
  regs : t.regs = e.regs g (s.draw + 1) s.regs
  pcm : t.pcm = storeSamples [] 0 e.stream
  draw : t.draw = s.draw + 1
  brr : t.brr = s.brr
  cap : t.cap = s.cap
  host : t.host = s.host
  resp : t.resp = s.resp

theorem sameOperands_convertStart (g : BitVec 24) (s : State) : SameOperands s (convertStart g s) := ⟨rfl, rfl, rfl, rfl⟩

theorem resultWord_zero (draw idx : Nat) : resultWord draw idx 0 = 0#32 := rfl

/-- A result that fits 32 bits is stored as it is. -/
theorem resultWord_fits {draw idx v : Nat} (h : v < 2 ^ 32) : resultWord draw idx v = BitVec.ofNat 32 v := by
  rw [resultWord, if_pos h]

/-- The end of a CONVERT that raised `e` after the warnings `drop` and `first`. -/
theorem convertEnd_leaves_failed {g : BitVec 24} {s t : State} (e : Raise) (drop first : Bool)
    (regs : t.regs = ((convertStart g s).regs.setFlagIf .loopDrop drop).setFlagIf .firstHdr first)
    (brr : t.brr = s.brr) (cap : t.cap = s.cap) (draw : t.draw = s.draw + 1) (host : t.host = s.host)
    (resp : t.resp = s.resp) :
    ConvertLeaves g s (.failed ((if drop then 0x10#5 else 0#5) ||| if first then 0x08#5 else 0#5) e)
      (convertEnd (t, some e)) := by
  refine ⟨?_, by simp [Ending.failed, storeSamples], by simpa using draw, by simpa using brr, by simpa using cap,
    by simpa using host, by simpa using resp⟩
  simp only [convertEnd_regs, regs, Regs.raise_eq]
  cases drop <;> cases first <;>
    simp [Ending.regs, Ending.failed, endedRegs, resultWord_zero, Regs.setFlagIf, Regs.setFlag, Flag.mask_eq,
      convertStart, State.beginCommand, State.onRegs, Regs.clearResults, Regs.beginCommand, commandWord]

theorem execConvert_ends (g : BitVec 24) (s : State) :
    ∃ t e, execConvert g s = .next t ∧ ConvertEnds s e ∧ ConvertLeaves g s e t := by
  obtain ⟨c, hc, d⟩ := execConvert_next g s
  have so := sameOperands_convertStart g s
  have ok : ∀ {u : State}, validStream u → validate u = .ok u.blocks := fun h => (validate_ok_iff _ _).2 ⟨h, rfl⟩
  cases d with
  | invalid e h =>
    exact ⟨_, _, hc, .congr so (.invalid e h), convertEnd_leaves_failed e false false rfl rfl rfl rfl rfl rfl⟩
  | badRequest e v h =>
    exact ⟨_, _, hc, .congr so (.badRequest e (ok v) h), convertEnd_leaves_failed e false false rfl rfl rfl rfl rfl rfl⟩
  | noRoom req v h full =>
    refine ⟨_, _, hc, .congr so (.noRoom req (ok v) h full), ?_⟩
    have := convertEnd_leaves_failed (g := g) (s := s) (t := (convertStart g s).warnIf .loopDrop (req == .dropped))
      ⟨.allocation, 1#8, BitVec.ofNat 32 (16 * (convertStart g s).blocks)⟩ (req == .dropped) false rfl rfl rfl rfl rfl rfl
    simpa [LoopRequest.dropBit] using this
  | whole req t v h noLoop room d =>
    refine ⟨_, _, hc, .congr so (.whole req (ok v) h noLoop room), ?_, ?_, ?_, ?_, ?_, ?_, ?_⟩
    · simp only [convertEnd_regs, recordBlockCount, acceptWhole, State.onRegs_regs, d.regs, d.draw, Regs.finish_eq]
      cases hq : (req == LoopRequest.dropped) <;> cases hf : (convertStart g s).headerOverridden 0 <;>
        simp_all [Ending.regs, Ending.whole, LoopRequest.dropBit, State.firstHdrBit, endedRegs, resultWord_zero,
          Regs.setFlagIf, Regs.setFlag, Flag.mask_eq, convertStart, State.beginCommand, State.onRegs,
          Regs.clearResults, Regs.beginCommand, commandWord]
    · simpa [recordBlockCount, acceptWhole, Ending.whole] using d.pcm
    · simpa [recordBlockCount, acceptWhole] using d.draw
    · simpa [recordBlockCount, acceptWhole] using d.brr
    · simpa [recordBlockCount, acceptWhole] using d.cap
    · simpa [recordBlockCount, acceptWhole] using d.host
    · simpa [recordBlockCount, acceptWhole] using d.resp
  | looped b c v q room res =>
    cases res with
    | exhausted t h ends =>
      refine ⟨_, _, hc, .congr so (.exhausted b (ok v) q room ends), ?_⟩
      simpa [State.firstHdrBit, recordBlockCount] using convertEnd_leaves_failed (g := g) (s := s)
        ⟨.loopConvergence, 0#8, 64#32⟩ false ((convertStart g s).headerOverridden 0) h.regs h.brr h.cap h.draw h.host
        h.resp
    | full t h ends =>
      refine ⟨_, _, hc, .congr so (.outgrown b t.hid.r (ok v) q room ends), ?_⟩
      simpa [State.firstHdrBit, recordBlockCount] using convertEnd_leaves_failed (g := g) (s := s)
        ⟨.allocation, 2#8, BitVec.ofNat 32 (roundStream (convertStart g s) b t.hid.r).length⟩ false
        ((convertStart g s).headerOverridden 0) h.regs h.brr h.cap h.draw h.host h.resp
    | found t p k h ends pos =>
      refine ⟨_, _, hc, .congr so (.resolved b t.hid.r k (ok v) q room ends), ?_, ?_, ?_, ?_, ?_, ?_, ?_⟩
      · have hp : t.hid.len - p = k * t.hid.base := by omega
        have hp' : p = t.hid.len - k * t.hid.base := by omega
        simp only [convertEnd_regs, recordBlockCount, acceptMatch, State.onRegs_regs, h.regs, h.draw, Regs.finish_eq,
          Ending.regs, Ending.looped, ← h.base, h.length, hp, ← hp']
        cases hf : (convertStart g s).headerOverridden 0 <;>
          simp_all [State.firstHdrBit, endedRegs, Regs.setFlagIf, Regs.setFlag, Flag.mask_eq, convertStart,
            State.beginCommand, State.onRegs, Regs.clearResults, Regs.beginCommand, commandWord]
      · simpa [recordBlockCount, acceptMatch, Ending.looped] using h.pcm
      · simpa [recordBlockCount, acceptMatch] using h.draw
      · simpa [recordBlockCount, acceptMatch] using h.brr
      · simpa [recordBlockCount, acceptMatch] using h.cap
      · simpa [recordBlockCount, acceptMatch] using h.host
      · simpa [recordBlockCount, acceptMatch] using h.resp

/-- The command with the ending its operands decide. -/
theorem execConvert_of_ends {s : State} (g : BitVec 24) {e : Ending} (d : ConvertEnds s e) :
    ∃ t, execConvert g s = .next t ∧ ConvertLeaves g s e t := by
  obtain ⟨t, e', h, d', l⟩ := execConvert_ends g s
  cases d.unique d'
  exact ⟨t, h, l⟩

/-- After a CONVERT the PCM memory reads as its stream. -/
theorem ConvertLeaves.pcmRead {g : BitVec 24} {s t : State} {e : Ending} (l : ConvertLeaves g s e t) {i : Nat}
    (h : i < e.stream.length) : t.pcmRead i = e.stream.getD i 0#16 := by
  have r := State.pcmRead_storeSamples_inside (s := { s with pcm := [] }) l.pcm h
  rw [Nat.zero_add] at r
  rw [r, List.getD_eq_getElem?_getD, List.getElem?_eq_getElem h, Option.getD_some]

/-! ### Loops in the terms of the statements -/

/-- The loop request of a valid stream, as `requestsLoop` says it (R200, R204). -/
theorem requestsLoop_iff (s : State) (b : Nat) :
    requestsLoop s b ↔ validate s = .ok s.blocks ∧ resolveLoopRequest s.blocks s = .ok (.loop b) := by
  constructor
  · rintro ⟨v, h1, h2, h3⟩
    refine ⟨(validate_ok_iff s _).2 ⟨v, rfl⟩, ?_⟩
    unfold State.lastLoopFlag at h1
    have := v.2.1
    simp only [resolveLoopRequest, h2, h1]
    rw [if_neg (by omega), if_neg (by simp), if_neg (by omega), if_neg (by omega), if_neg (by omega)]
    congr 2
    omega
  · rintro ⟨h1, h2⟩
    have v := ((validate_ok_iff s _).1 h1).1
    rcases resolveLoopRequest_ok h2 with ⟨h, -⟩ | ⟨h, -⟩ | ⟨b', h, h3, h4, h5⟩
    · cases h
    · cases h
    · cases h
      have := v.2.1
      exact ⟨v, h3, h4, by omega⟩

/-- The candidate a loop resolves at lies inside its stream (R208). -/
theorem loopResolves_candidate {s : State} {b r k : Nat} (h : loopResolves s b r k) (hb : b < s.blocks) :
    16 * b + k * (16 * (s.blocks - b)) ≤ (roundStream s b (r - 1)).length ∧
      16 * (s.blocks - b) ≤ k * (16 * (s.blocks - b)) := by
  obtain ⟨h1, -, -, -, hk, hkr, -, -⟩ := h
  obtain ⟨m, rfl⟩ : ∃ m, r = m + 1 := ⟨r - 1, by omega⟩
  have e := Nat.mul_le_mul_right (16 * (s.blocks - b)) hkr
  rw [Nat.succ_mul m] at e
  rw [roundStream_length, Nat.add_sub_cancel]
  exact ⟨by omega, Nat.le_mul_of_pos_left _ hk⟩

/-- The loop block of a resolved loop is LOOP_OFS div 9. -/
theorem requestsLoop.block {s : State} {b : Nat} (h : requestsLoop s b) : s.regs.loopOfs.toNat / 9 = b := by
  obtain ⟨v, -, h2, h3⟩ := h
  have p : 2 * s.regs.loopOfs.toNat < 2 ^ 32 := by
    rw [← BitVec.toInt_pos_iff, h2]; omega
  rw [BitVec.toInt_eq_toNat_of_lt p] at h2
  omega

/-- What a CONVERT that raised nothing ends with: a stream of the length ROUNDS gives, and lengths no greater. -/
theorem ConvertEnds.lengths {s : State} {e : Ending} (h : ConvertEnds s e) (ok : e.status.getLsbD 1 = false) :
    e.stream.length = streamLength s e.rounds ∧ e.count = streamLength s e.rounds ∧ e.base ≤ e.count ∧
      e.start ≤ e.count ∧ e.len ≤ e.count := by
  cases h with
  | invalid x v => simp [Ending.failed] at ok
  | badRequest x v q => simp [Ending.failed] at ok
  | noRoom req v q full => simp [Ending.failed] at ok
  | outgrown b r v q room ends => simp [Ending.failed] at ok
  | exhausted b v q room ends => simp [Ending.failed] at ok
  | whole req v q noLoop room =>
    simp [Ending.whole, initialStream_length, streamLength]
  | resolved b r k v q room ends =>
    have hb := (requestsLoop_iff s b).2 ⟨v, q⟩
    have c := loopResolves_candidate ends hb.2.2.2
    have e : (roundStream s b (r - 1)).length = streamLength s r := by
      rw [roundStream_length, streamLength, hb.block]
    refine ⟨e, e, ?_, Nat.sub_le _ _, ?_⟩ <;> simp only [Ending.looped] <;> omega

/-- The lengths a CONVERT leaves are exact, whatever the draw, where the stream's length fits 32 bits or it raised. -/
theorem Ending.regs_exact {s : State} {e : Ending} (h : ConvertEnds s e)
    (fits : e.status.getLsbD 1 = true ∨ streamLength s e.rounds < 2 ^ 32) (g : BitVec 24) (draw : Nat) (r : Regs) :
    (e.regs g draw r).sampleCount = BitVec.ofNat 32 e.count ∧ (e.regs g draw r).baseLoopLen = BitVec.ofNat 32 e.base ∧
      (e.regs g draw r).loopStart = BitVec.ofNat 32 e.start ∧ (e.regs g draw r).loopLen = BitVec.ofNat 32 e.len := by
  have small : e.count < 2 ^ 32 ∧ e.base < 2 ^ 32 ∧ e.start < 2 ^ 32 ∧ e.len < 2 ^ 32 := by
    cases ok : e.status.getLsbD 1 with
    | false => have := h.lengths ok; rw [ok] at fits; simp at fits; omega
    | true =>
      cases h <;>
        simp_all [Ending.failed, Ending.whole, Ending.looped, State.firstHdrBit_low, LoopRequest.dropBit_low]
  exact ⟨resultWord_fits small.1, resultWord_fits small.2.1, resultWord_fits small.2.2.1, resultWord_fits small.2.2.2⟩

/-- Inside its stream the PCM memory after a CONVERT does not depend on the draw. -/
theorem ConvertLeaves.pcmByte_congr {g g' : BitVec 24} {s s' t t' : State} {e : Ending} (l : ConvertLeaves g s e t)
    (l' : ConvertLeaves g' s' e t') {a : Nat} (h : s.draw = s'.draw ∨ a < 2 * e.stream.length) :
    t.pcmByte a = t'.pcmByte a := by
  rcases h with h | h
  · exact State.pcmByte_congr (l.pcm.trans l'.pcm.symm) (by rw [l.draw, l'.draw, h]) a
  · have r := storeSamples_get?_inside e.stream [] 0 (a / 2) (by omega)
    rw [Nat.zero_add, ← l.pcm] at r
    have ha : a = 2 * (a / 2) ∨ a = 2 * (a / 2) + 1 := by omega
    rw [State.pcmByte, State.pcmByte, l'.pcm, ← l.pcm]
    rcases ha with ha | ha <;> rw [ha]
    · rw [r.1]; rfl
    · rw [r.2]; rfl
end Sys2Proof.Machine
end

