-- ==== Sys2Proof/Laws/PerInstr.lean ====
section
/-! SUPPORT. Statements about every instruction, one lemma per constructor: what the encoding of a well-formed
instruction looks like (spec/30_encoding.md R101, R111). -/

namespace Sys2Proof.Laws.EncodedShape

/-- A well-formed block is encoded in 9 bytes whose payload holds its nibbles; a command in a word with one of the four
codes. -/
def Statement (i : Instr) : Prop :=
  i.wellFormed = true →
    match encode i with
    | .block bytes => bytes.length = Config.blockBytes ∧ i.nibbles? = some (payloadNibbles bytes.tail)
    | .command w => i.nibbles? = none ∧ 1 ≤ (commandCode w).toNat ∧ (commandCode w).toNat ≤ 4

/-- The shape of an encoded block. -/
theorem block (f : BitVec 2) (shift : BitVec 4) (loop last : Bool) (ns : List Nibble)
    (h : (ns.length == Config.samplesPerBlock) = true) :
    match encodeBlock shift f loop last ns with
    | .block bytes => bytes.length = Config.blockBytes ∧ some ns = some (payloadNibbles bytes.tail)
    | .command _ => False := by
  obtain ⟨a, b⟩ := payloadNibbles_payloadBytes 8 ns (by simpa [Config.samplesPerBlock] using h)
  simp [encodeBlock, a, b, Config.blockBytes]

theorem brrF0 (shift : BitVec 4) (loop last : Bool) (ns : List Nibble) : Statement (.brrF0 shift loop last ns) :=
  fun h => block 0#2 shift loop last ns h

theorem brrF1 (shift : BitVec 4) (loop last : Bool) (ns : List Nibble) : Statement (.brrF1 shift loop last ns) :=
  fun h => block 1#2 shift loop last ns h

theorem brrF2 (shift : BitVec 4) (loop last : Bool) (ns : List Nibble) : Statement (.brrF2 shift loop last ns) :=
  fun h => block 2#2 shift loop last ns h

theorem brrF3 (shift : BitVec 4) (loop last : Bool) (ns : List Nibble) : Statement (.brrF3 shift loop last ns) :=
  fun h => block 3#2 shift loop last ns h

theorem validate (g : BitVec 24) : Statement (.validate g) := by
  intro _
  simp [encode, commandWord, Instr.nibbles?]

theorem convert (g : BitVec 24) : Statement (.convert g) := by
  intro _
  simp [encode, commandWord, Instr.nibbles?]

theorem decodeBlock (g : BitVec 24) : Statement (.decodeBlock g) := by
  intro _
  simp [encode, commandWord, Instr.nibbles?]

theorem encodeRate (g : BitVec 24) : Statement (.encodeRate g) := by
  intro _
  simp [encode, commandWord, Instr.nibbles?]

end Sys2Proof.Laws.EncodedShape
end

