-- ==== Sys2Proof/Laws/Registers.lean ====
section
/-! SUPPORT. The register map as the host sees it (spec/10_state.md R30 to R32): where each register stands, and that a
write to one register is not seen through another. -/

namespace Sys2Proof.Machine

/-- The index R30 gives a register. -/
def Reg.index : Reg → Option Nat
  | .cmd => some 0x00
  | .status => some 0x01
  | .error => some 0x02
  | .errInfo => some 0x03
  | .inLen => some 0x04
  | .loopOfs => some 0x05
  | .rate => some 0x06
  | .blkOfs => some 0x07
  | .blkCtrl => some 0x08
  | .hist => some 0x09
  | .blockCount => some 0x0A
  | .sampleCount => some 0x0B
  | .baseLoopLen => some 0x0C
  | .loopStart => some 0x0D
  | .loopLen => some 0x0E
  | .rounds => some 0x0F
  | .outBlk i => some (0x10 + i.val)
  | .ext80 i => some (0x20 + i.val)
  | .reserved => none

theorem registerMap_index (n : Nat) (h : n < 0x2A) : (registerMap.getD n .reserved).index = some n := by
  revert n; decide

/-- The register at a mapped index is the one R30 names there. -/
theorem regAt_index {idx : BitVec 8} (h : idx.toNat < 0x2A) : (regAt idx).index = some idx.toNat :=
  registerMap_index _ h

/-- The indices from 0x2A on are reserved (R31). -/
theorem regAt_reserved {idx : BitVec 8} (h : 0x2A ≤ idx.toNat) : regAt idx = .reserved := by
  unfold regAt
  rw [List.getD_eq_getElem?_getD, List.getElem?_eq_none (by exact h)]
  rfl

/-- The OUT_BLK registers stand from 0x10 on. -/
theorem regAt_outBlk (i : Fin 16) : regAt (BitVec.ofNat 8 (0x10 + i.val)) = .outBlk i := by
  revert i; decide

/-- The EXT80 registers stand from 0x20 on. -/
theorem regAt_ext80 (i : Fin 10) : regAt (BitVec.ofNat 8 (0x20 + i.val)) = .ext80 i := by
  revert i; decide

/-- Two indices of one register are one index. -/
theorem regAt_inj {i k : BitVec 8} (h : regAt i = regAt k) : i = k ∨ regAt i = .reserved := by
  by_cases hi : i.toNat < 0x2A
  · by_cases hk : k.toNat < 0x2A
    · left
      have e := regAt_index hi
      rw [h, regAt_index hk] at e
      exact BitVec.eq_of_toNat_eq (by simpa using e.symm)
    · exact .inr (h.trans (regAt_reserved (by omega)))
  · exact .inr (regAt_reserved (by omega))

/-- Every register holds its reset value after reset (R55). -/
theorem Regs.reset_get (k : Reg) : Regs.reset.get k = if k = .loopOfs then 0xFFFFFFFF#32 else 0#32 := by
  cases k with
  | outBlk i => revert i; decide
  | ext80 i => revert i; decide
  | _ => decide

/-- A write to one register is not seen through another. -/
theorem Regs.get_set_ne {j k : Reg} (h : j ≠ k) (v : Word) (r : Regs) : (r.set k v).get j = r.get j := by
  cases k <;> cases j <;> first | rfl | exact absurd rfl h

theorem Regs.read_write_ne {j k : BitVec 8} (h : j ≠ k) (v : Word) (r : Regs) :
    (Regs.write k v r).read j = r.read j := by
  by_cases e : regAt j = regAt k
  · rcases regAt_inj e with e | e'
    · exact absurd e h
    · rw [Regs.write, ← e, e']; rfl
  · exact Regs.get_set_ne e v r

/-- The read-only registers of R32 and the reserved ones ignore a write. -/
theorem Regs.write_ignored {idx : BitVec 8} (h : idx.toNat < 0x04 ∨ 0x0A ≤ idx.toNat) (v : Word) (r : Regs) :
    Regs.write idx v r = r := by
  by_cases hi : idx.toNat < 0x2A
  · have e := regAt_index hi
    unfold Regs.write
    cases hk : regAt idx with
    | outBlk i => rfl
    | ext80 i => rfl
    | _ =>
      first
        | rfl
        | (rw [hk] at e; simp only [Reg.index, Option.some.injEq] at e; omega)
  · rw [Regs.write, regAt_reserved (by omega)]; rfl

end Sys2Proof.Machine
end

