-- ==== Sys2Proof/Laws/Steps.lean ====
section
/-! SUPPORT. What a step can do and what each command can answer, said once, so that a claim about every step is a case
analysis. -/

namespace Sys2Proof.Machine

/-! ### Steps -/

/-- What one step from `s` to `t` did. -/
inductive StepDone (s t : State) : Prop
  | idle (h : s.host = []) (e : t = s)
  | command (w : Word) (rest : List HostOp) (i : Instr) (h : s.host = .regWrite 0#8 w :: rest)
      (hd : decodeCommand w = .ok i) (e : exec i { s with host := rest } = .next t)
  | illegal (w : Word) (rest : List HostOp) (err : DecodeError) (h : s.host = .regWrite 0#8 w :: rest)
      (hd : decodeCommand w = .error err) (e : t = illegalCommand w { s with host := rest })
  | write (idx : BitVec 8) (v : Word) (rest : List HostOp) (h : s.host = .regWrite idx v :: rest) (hi : idx ≠ 0#8)
      (e : t = { s with host := rest, regs := Regs.write idx v s.regs })
  | read (op : HostOp) (rest : List HostOp) (r : HostResp) (h : s.host = op :: rest)
      (hw : ∀ idx v, op ≠ .regWrite idx v) (hb : ∀ a v, op ≠ .brrWrite a v) (hr : op ≠ .reset)
      (e : t = { s with host := rest, resp := s.resp ++ [r] })
  | load (a : Nat) (v : Byte) (rest : List HostOp) (h : s.host = .brrWrite a v :: rest) (ha : a < s.cap.brrCap)
      (e : t = { s with host := rest, brr := Memory.set s.brr a v })
  | reset (rest : List HostOp) (h : s.host = .reset :: rest) (e : t = resetCore { s with host := rest })

theorem step_cases {s t : State} (h : step s = .next t) : StepDone s t := by
  unfold step hostStep at h
  cases hh : s.host with
  | nil => rw [hh] at h; cases h; exact .idle hh rfl
  | cons op rest =>
    rw [hh] at h
    cases op with
    | regWrite idx v =>
      simp only [hostAccess] at h
      by_cases hi : idx = 0#8
      · subst hi
        simp only [if_true, runCommand, decode] at h
        cases hd : decodeCommand v with
        | ok i => rw [hd] at h; exact .command v rest i hh hd h
        | error e => rw [hd] at h; cases h; exact .illegal v rest e hh hd rfl
      · rw [if_neg hi] at h; cases h; exact .write idx v rest hh hi rfl
    | regRead idx => cases h; exact .read _ rest _ hh (by simp) (by simp) (by simp) rfl
    | brrWrite a v =>
      simp only [hostAccess] at h
      split at h
      · cases h; exact .load a v rest hh ‹_› rfl
      · cases h
    | brrRead a =>
      simp only [hostAccess] at h
      split at h
      · cases h; exact .read _ rest _ hh (by simp) (by simp) (by simp) rfl
      · cases h
    | pcmRead i =>
      simp only [hostAccess] at h
      split at h
      · cases h; exact .read _ rest _ hh (by simp) (by simp) (by simp) rfl
      · cases h
    | pcmReadByte a =>
      simp only [hostAccess] at h
      split at h
      · cases h; exact .read _ rest _ hh (by simp) (by simp) (by simp) rfl
      · cases h
    | reset => cases h; exact .reset rest hh rfl

/-! ### What each command answers -/

theorem exec_validate_cases {g : BitVec 24} {s t : State} (h : exec (.validate g) s = .next t) :
    (∃ e, validate s = .error e ∧ t = (validateStart g s).raise e) ∨
    (validStream s ∧
      t = ((validateStart g s).onRegs fun r => { r with blockCount := BitVec.ofNat 32 s.blocks }).finish) := by
  cases hv : validate s with
  | error e =>
    rw [exec, execValidate_error g hv] at h
    cases h; exact .inl ⟨e, rfl, rfl⟩
  | ok n =>
    rw [exec, execValidate_ok g hv] at h
    obtain ⟨v, rfl⟩ := (validate_ok_iff s n).1 hv
    cases h; exact .inr ⟨v, rfl⟩

theorem exec_convert_cases {g : BitVec 24} {s t : State} (h : exec (.convert g) s = .next t) :
    ∃ e, ConvertEnds s e ∧ ConvertLeaves g s e t := by
  obtain ⟨u, e, hu, he, hl⟩ := execConvert_ends g s
  cases h.symm.trans hu
  exact ⟨e, he, hl⟩

theorem exec_decodeBlock_cases {g : BitVec 24} {s t : State} (h : exec (.decodeBlock g) s = .next t) :
    (s.cap.brrCap < s.inLen ∧ t = (decodeBlockStart g s).raise ⟨.address, 1#8, s.regs.inLen⟩) ∨
    (s.inLen < s.regs.blkOfs.toNat + 9 ∧ t = (decodeBlockStart g s).raise ⟨.address, 2#8, s.regs.blkOfs⟩) ∨
    t = State.finish { decodeBlockStart g s with
      regs := { (s.regs.beginCommand (commandWord g 3#8)).setFlagIf .firstHdr s.blockAtOffset.warnFirst with
        outBlk := overwrite s.regs.outBlk 0 s.blockAtOffset.out
        hist := histWord s.blockAtOffset.prev s.blockAtOffset.prev2 } } := by
  by_cases h1 : s.cap.brrCap < s.inLen
  · rw [exec, execDecodeBlock_oversized g s h1] at h
    cases h; exact .inl ⟨h1, rfl⟩
  · by_cases h2 : s.inLen < s.regs.blkOfs.toNat + 9
    · rw [exec, execDecodeBlock_outside g s (by omega) h2] at h
      cases h; exact .inr (.inl ⟨h2, rfl⟩)
    · rw [exec, execDecodeBlock_inside g s (by omega) (by omega)] at h
      cases h; exact .inr (.inr rfl)

theorem exec_encodeRate_cases {g : BitVec 24} {s t : State} (h : exec (.encodeRate g) s = .next t) :
    t = State.finish { s with
      regs := { s.regs.beginCommand (commandWord g 4#8) with ext80 := encodeRate s.regs.rate } } := by
  cases h; rfl

/-! ### What no command does -/

/-- What a command leaves alone, and how it ends (R72, R77, R261, R267, R268). -/
structure CommandFrame (i : Instr) (s t : State) : Prop where
  inLen : t.regs.inLen = s.regs.inLen
  loopOfs : t.regs.loopOfs = s.regs.loopOfs
  rate : t.regs.rate = s.regs.rate
  blkOfs : t.regs.blkOfs = s.regs.blkOfs
  blkFirst : t.regs.blkFirst = s.regs.blkFirst
  hist : (∀ g, i ≠ .decodeBlock g) → t.regs.hist = s.regs.hist
  outBlk : (∀ g, i ≠ .decodeBlock g) → t.regs.outBlk = s.regs.outBlk
  ext80 : (∀ g, i ≠ .encodeRate g) → t.regs.ext80 = s.regs.ext80
  pcm : (∀ g, i ≠ .convert g) → t.pcm = s.pcm ∧ t.draw = s.draw
  brr : t.brr = s.brr
  cap : t.cap = s.cap
  host : t.host = s.host
  resp : t.resp = s.resp
  done : t.regs.flag .done = true
  err : t.regs.flag .err = true ↔ t.regs.errorCode ≠ 0#8

theorem exec_command_frame {i : Instr} {s t : State} (hi : isCommand i = true) (h : exec i s = .next t) :
    CommandFrame i s t := by
  cases i with
  | validate g =>
    rcases exec_validate_cases h with ⟨e, he, rfl⟩ | ⟨v, rfl⟩
    · constructor <;>
        simp [State.raise, Regs.raise_eq, Regs.flag, Flag.bit, Regs.errorCode, error_code, ErrorKind.code_ne_zero]
    · constructor <;> simp [State.finish, Regs.finish_eq, Regs.flag, Flag.bit, Regs.errorCode]
  | convert g =>
    obtain ⟨e, he, l⟩ := exec_convert_cases h
    have f := he.sound
    have hd := f.done
    have hr := f.err
    simp only [BitVec.getLsbD_eq_getElem, Nat.reduceLT] at hd hr
    constructor <;>
      simp [l.regs, l.brr, l.cap, l.host, l.resp, Ending.regs, endedRegs, Regs.flag, Flag.bit, Regs.errorCode, hd, hr]
  | decodeBlock g =>
    rcases exec_decodeBlock_cases h with ⟨-, rfl⟩ | ⟨-, rfl⟩ | rfl
    · constructor <;>
        simp [State.raise, Regs.raise_eq, Regs.flag, Flag.bit, Regs.errorCode, error_code, ErrorKind.code_ne_zero]
    · constructor <;>
        simp [State.raise, Regs.raise_eq, Regs.flag, Flag.bit, Regs.errorCode, error_code, ErrorKind.code_ne_zero]
    · constructor <;>
        simp [State.finish, Regs.finish_eq, Regs.flag, Flag.bit, Regs.errorCode, Regs.setFlagIf]
      all_goals split <;> simp [Flag.mask_eq]
  | encodeRate g =>
    obtain rfl := exec_encodeRate_cases h
    constructor <;> simp [State.finish, Regs.finish_eq, Regs.flag, Flag.bit, Regs.errorCode]
  | brrF0 => cases hi
  | brrF1 => cases hi
  | brrF2 => cases hi
  | brrF3 => cases hi

end Sys2Proof.Machine
end

