-- ==== Sys2Proof/Tests/Slice0.lean ====
section
/-! SUPPORT. Tests of the model against the examples and vectors of spec/30_encoding.md and spec/95_test_vectors.md, the
well-formedness smoke test, and a witness that meets the hypotheses of each obligation. -/

namespace Sys2Proof.Tests

open Sys2Proof.Machine

/-! ## Helpers -/

/-- A block with header `h` and eight payload bytes `p`. -/
def blk (h p : Byte) : List Byte := [h, p, p, p, p, p, p, p, p]

/-- The machine after reset with an input loaded, its length and the loop offset written. -/
def input (bytes : List Byte) (ofs : Word) : State :=
  (State.reset.brrLoad 0 bytes).onRegs fun r => { r with inLen := BitVec.ofNat 32 bytes.length, loopOfs := ofs }

/-- That state with a PCM memory of `n` samples. -/
def withPcmCap (n : Nat) (s : State) : State := { s with cap := { brrCap := 4096, pcmCap := n } }

/-- That state with the host about to make these accesses. -/
def hosting (ops : List HostOp) (s : State) : State := { s with host := ops }

/-- Whether an instruction or a step answers a next state that passes a check. -/
def ends (o : Result) (p : State → Bool) : Bool :=
  match o with
  | .next t => p t
  | .fault _ => false
  | .refused _ => false

theorem ends_next {o : Result} {p : State → Bool} (h : ends o p = true) : ∃ t, o = .next t ∧ p t = true := by
  cases o with
  | next t => exact ⟨t, rfl, h⟩
  | fault e => cases h
  | refused e => cases h

/-- A result as what a command leaves in STATUS, ERROR and ERRINFO. -/
def ended (status : BitVec 5) (error : BitVec 16) (info : Word) (t : State) : Bool :=
  t.regs.status == status && t.regs.error == error && t.regs.errInfo == info

/-- Sixteen nibbles: `a`, `b`, `a`, `b`, ... -/
def nibs (a b : Nibble) : List Nibble := [a, b, a, b, a, b, a, b, a, b, a, b, a, b, a, b]

/-! ## Well-formedness: an ill-formed term for each check, refused (R101, R110) -/

theorem test_wellFormed_refuses_fifteen_nibbles :
    (Instr.brrF0 0#4 false false ((nibs 0#4 0#4).drop 1)).wellFormed = false ∧
    (Instr.brrF1 0#4 false false ((nibs 0#4 0#4).drop 1)).wellFormed = false ∧
    (Instr.brrF2 0#4 false false ((nibs 0#4 0#4).drop 1)).wellFormed = false ∧
    (Instr.brrF3 0#4 false false ((nibs 0#4 0#4).drop 1)).wellFormed = false := by decide

theorem test_wellFormed_refuses_seventeen_nibbles :
    (Instr.brrF3 15#4 true true (0#4 :: nibs 0#4 0#4)).wellFormed = false := by decide

theorem test_wellFormed_accepts :
    (Instr.brrF3 15#4 true true (nibs 1#4 2#4)).wellFormed = true ∧ (Instr.convert 0xFFFFFF#24).wellFormed = true := by
  decide

/-! ## Decoding: one word per constructor, written out from R102, R107, R109 and R111 -/

/-- Header 0x24 without its filter bits: 0010 00 0 0; payload 0x13. -/
theorem test_decode_brrF0 :
    decode (.block (blk 0x20#8 0x13#8)) = .ok (.brrF0 2#4 false false (nibs 1#4 3#4)) := by decide

/-- Header 0x67: 0110 01 1 1; payload 0xf1 (V-LOOP-7). -/
theorem test_decode_brrF1 :
    decode (.block (blk 0x67#8 0xf1#8)) = .ok (.brrF1 6#4 true true (nibs 15#4 1#4)) := by decide

/-- The example of R115: header 0x0b: 0000 10 1 1; payload 0x02. -/
theorem test_decode_brrF2 :
    decode (.block (blk 0x0b#8 0x02#8)) = .ok (.brrF2 0#4 true true (nibs 0#4 2#4)) := by decide

/-- Header 0xfe: 1111 11 1 0 (V-VAL-9). -/
theorem test_decode_brrF3 :
    decode (.block (blk 0xfe#8 0x00#8)) = .ok (.brrF3 15#4 true false (nibs 0#4 0#4)) := by decide

/-- The nibbles of eight different payload bytes stand in order, the high one first (R107). -/
theorem test_decode_nibble_order :
    decode (.block [0x01#8, 0x01#8, 0x23#8, 0x45#8, 0x67#8, 0x89#8, 0xab#8, 0xcd#8, 0xef#8]) =
      .ok (.brrF0 0#4 false true
        [0#4, 1#4, 2#4, 3#4, 4#4, 5#4, 6#4, 7#4, 8#4, 9#4, 10#4, 11#4, 12#4, 13#4, 14#4, 15#4]) := by decide

theorem test_decode_commands :
    decode (.command 0x00000001#32) = .ok (.validate 0#24) ∧ decode (.command 0x00000002#32) = .ok (.convert 0#24) ∧
    decode (.command 0x00000003#32) = .ok (.decodeBlock 0#24) ∧
    decode (.command 0xABCDEF04#32) = .ok (.encodeRate 0xABCDEF#24) := by decide

theorem test_decode_rejects :
    decode (.command 0x00000000#32) = .error (.illegalCommand 0#8) ∧
    decode (.command 0x000001FF#32) = .error (.illegalCommand 0xFF#8) ∧
    decode (.block [0x01#8]) = .error (.blockLength 1) := by decide

/-- Table words: the header byte or the command code in the low byte (log 11). -/
theorem test_decodeTableWord :
    decodeTableWord 8 0x08 = some (.brrF2 0#4 false false (nibs 0#4 0#4)) ∧
    decodeTableWord 8 0x0C = some (.brrF3 0#4 false false (nibs 0#4 0#4)) ∧
    decodeTableWord 8 0x02 = some (.convert 0#24) ∧ decodeTableWord 32 0x03 = some (.decodeBlock 0#24) ∧
    decodeTableWord 32 0x05 = none := by decide

/-! ## One step or one instruction each, against spec/95_test_vectors.md -/

/-- The first sample of a block that DECODE_BLOCK decodes with this history. -/
def firstSample (i : Instr) (prev prev2 : Sample) (y : Int) : Bool :=
  ends (exec i (State.reset.onRegs fun r => { r with hist := prev2 ++ prev })) fun t => t.regs.outBlk[0].toInt == y

/-- V-F0-3 and V-F0-7: floor rounding of a negative nibble; the largest shift. -/
theorem test_brrF0_samples :
    firstSample (.brrF0 0#4 false false (nibs 15#4 0#4)) 0#16 0#16 (-2) = true ∧
    firstSample (.brrF0 12#4 false false (nibs 8#4 0#4)) 0#16 0#16 (-32768) = true := by decide +kernel

/-- V-SH-1 and V-SH-3: the quirk of the shifts 13 to 15. -/
theorem test_brrF0_quirk :
    firstSample (.brrF0 13#4 false false (nibs 15#4 0#4)) 0#16 0#16 (-4096) = true ∧
    firstSample (.brrF0 14#4 false false (nibs 7#4 0#4)) 0#16 0#16 0 = true := by decide +kernel

/-- V-F1-5 and V-WR-2: an odd negative history; the wraparound below -16384. -/
theorem test_brrF1_samples :
    firstSample (.brrF1 0#4 false false (nibs 0#4 0#4)) (BitVec.ofInt 16 (-3)) 0#16 (-4) = true ∧
    firstSample (.brrF1 12#4 false false (nibs 8#4 0#4)) (BitVec.ofInt 16 (-30000)) 0#16 4642 = true := by
  decide +kernel

/-- V-F2-1 and V-CL-1: both histories; the clamp before the wraparound. -/
theorem test_brrF2_samples :
    firstSample (.brrF2 0#4 false false (nibs 0#4 0#4)) 1000#16 500#16 1436 = true ∧
    firstSample (.brrF2 12#4 false false (nibs 7#4 0#4)) 30000#16 (BitVec.ofInt 16 (-30000)) (-2) = true := by
  decide +kernel

/-- V-F3-2 and V-CL-2. -/
theorem test_brrF3_samples :
    firstSample (.brrF3 0#4 false false (nibs 0#4 0#4)) (BitVec.ofInt 16 (-1000)) (BitVec.ofInt 16 (-500)) (-1392) = true ∧
    firstSample (.brrF3 12#4 false false (nibs 8#4 0#4)) (BitVec.ofInt 16 (-30000)) 30000#16 0 = true := by
  decide +kernel

/-- V-VAL-9 and V-VAL-7: only header bit 0 counts; the lowest violating block is reported. -/
theorem test_validate :
    ends (exec (.validate 0#24) (input (blk 0xfe#8 0#8 ++ blk 0xff#8 0#8) 0#32))
      (fun t => ended 0x01#5 0#16 0#32 t && t.regs.blockCount == 2#32) = true ∧
    ends (exec (.validate 0#24) (input (blk 0x01#8 0#8 ++ blk 0#8 0#8 ++ blk 0#8 0#8) 0#32))
      (ended 0x03#5 0x0301#16 0#32) = true := by decide +kernel

/-- V-LOOP-3 (hand-checked): two rounds, a loop of twice the nominal length, sample 17 the second of the growth pass. -/
theorem test_convert_two_rounds :
    ends (exec (.convert 0#24) (input (blk 0x0b#8 0x02#8) 0#32)) (fun t =>
      ended 0x0D#5 0#16 0#32 t && t.regs.rounds == 2#32 && t.regs.loopStart == 0#32 && t.regs.loopLen == 32#32 &&
      t.regs.sampleCount == 32#32 && t.regs.baseLoopLen == 16#32 && t.regs.blockCount == 1#32 &&
      (t.pcmRead 1).toInt == 2 && (t.pcmRead 18).toInt == 0) = true := by decide +kernel

/-- V-REQ-7 and V-ALLOC-2: the range is checked before the alignment; a growth pass that does not fit. -/
theorem test_convert_errors :
    ends (exec (.convert 0#24) (input (blk 0#8 0#8 ++ blk 0x03#8 0#8) 19#32)) (ended 0x03#5 0x0204#16 19#32) = true ∧
    ends (exec (.convert 0#24) (withPcmCap 16 (input (blk 0x07#8 0x04#8) 0#32))) (ended 0x0B#5 0x0203#16 32#32) = true := by
  decide +kernel

/-- V-DEC-8, hand-checked first sample: `28 f0x8` after history 74, 68; and V-DEC-6: the first-block override. -/
theorem test_decodeBlock :
    ends (exec (.decodeBlock 0#24) ((input (blk 0x28#8 0xf0#8) 0#32).onRegs fun r => { r with hist := 68#16 ++ 74#16 }))
      (fun t => ended 0x01#5 0#16 0#32 t && t.regs.outBlk[0].toInt == 72 && t.regs.outBlk[15].toInt == -230 &&
        t.regs.prev.toInt == -230 && t.regs.prev2.toInt == -220) = true ∧
    ends (exec (.decodeBlock 0#24) ((input (blk 0x24#8 0x13#8) 0#32).onRegs fun r => { r with blkFirst := true }))
      (fun t => ended 0x09#5 0#16 0#32 t && t.regs.outBlk[15].toInt == 2 && t.regs.prev2.toInt == 0) = true := by
  decide +kernel

/-- S8: the 80 bits of 8000 are 40 0B FA 00 00 00 00 00 00 00. -/
theorem test_encodeRate :
    ends (exec (.encodeRate 0#24) (State.reset.onRegs fun r => { r with rate := 8000#32 }))
      (fun t => t.regs.ext80 == 0x400BFA00000000000000#80 && t.regs.read 0x21#8 == 0x0B#32 &&
        t.regs.read 0x22#8 == 0xFA#32) = true := by decide +kernel

/-- A step runs the command its word holds, and CMD keeps the word (R33). -/
theorem test_step_runs_command :
    ends (step (hosting [.regWrite 0x00#8 0x77000004#32] State.reset))
      (fun t => t.regs.read 0x00#8 == 0x77000004#32 && t.regs.read 0x01#8 == 1#32 && t.host == []) = true := by
  decide +kernel

/-- A placed block is what the next step decodes (V-F2-1); a placed command word is what the next step runs (V-VAL-3). -/
theorem test_withFetchWord :
    ends (step ((State.reset.onRegs fun r => { r with hist := 500#16 ++ 1000#16 }).withFetchWord 8 0x08))
      (fun t => ended 0x01#5 0#16 0#32 t && t.regs.outBlk[0].toInt == 1436) = true ∧
    ends (step (State.reset.withFetchWord 8 0x01)) (ended 0x03#5 0x0201#16 0#32) = true := by decide +kernel

/-! ## Witnesses: for each obligation with hypotheses, a concrete case that meets them all -/

/-- A stream of one zero block that ends (V-VAL-1). -/
def zeroBlock : State := input (blk 0x01#8 0#8) 0xFFFFFFFF#32

/-- Two zero blocks, the last one looping, with this loop offset (V-REQ-4 to V-REQ-7). -/
def twoBlocks (ofs : Word) : State := input (blk 0#8 0#8 ++ blk 0x03#8 0#8) ofs

/-- The input of V-LOOP-3. -/
def twoRounds : State := input (blk 0x0b#8 0x02#8) 0#32

/-- The input of V-DEC-6 and V-DEC-8: two blocks that DECODE_BLOCK decodes one after the other. -/
def chain (ofs : Word) (first : Bool) (hist : Word) : State :=
  (input (blk 0x24#8 0x13#8 ++ blk 0x28#8 0xf0#8) 0#32).onRegs fun r =>
    { r with blkOfs := ofs, blkFirst := first, hist := hist }

theorem witness_DecodeInvertsEncode :
    (Instr.brrF2 15#4 true false (nibs 7#4 8#4)).wellFormed = true ∧ (Instr.encodeRate 0xFFFFFF#24).wellFormed = true := by
  decide

theorem witness_EncodeInvertsDecode :
    decode (.block (blk 0xFF#8 0x80#8)) = .ok (.brrF3 15#4 true true (nibs 8#4 0#4)) ∧
    decode (.command 0xFFFFFF01#32) = .ok (.validate 0xFFFFFF#24) := by decide

/-- Both ends of each opcode's headers. -/
theorem witness_BlockFieldsDecode :
    (blk 0#8 0x5A#8).tail.length = 8 ∧ (0x00#8 &&& 0x0C#8 = 0x00#8 ∧ 0xF3#8 &&& 0x0C#8 = 0x00#8) ∧
    (0x04#8 &&& 0x0C#8 = 0x04#8 ∧ 0xF7#8 &&& 0x0C#8 = 0x04#8) ∧ (0x08#8 &&& 0x0C#8 = 0x08#8 ∧ 0xFB#8 &&& 0x0C#8 = 0x08#8) ∧
    (0x0C#8 &&& 0x0C#8 = 0x0C#8 ∧ 0xFF#8 &&& 0x0C#8 = 0x0C#8) := by decide

theorem witness_OtherWordsRejected :
    ([] : List Byte).length ≠ 9 ∧ ((blk 0#8 0#8).drop 1).length ≠ 9 ∧ (0#8 :: blk 0#8 0#8).length ≠ 9 ∧
    (0x00#8 ≠ 0x01#8 ∧ 0x00#8 ≠ 0x02#8 ∧ 0x00#8 ≠ 0x03#8 ∧ 0x00#8 ≠ 0x04#8) ∧
    (0x05#8 ≠ 0x01#8 ∧ 0x05#8 ≠ 0x02#8 ∧ 0x05#8 ≠ 0x03#8 ∧ 0x05#8 ≠ 0x04#8) := by decide

theorem witness_ResetSetsRegisters : (hosting [.reset] zeroBlock).host = .reset :: [] := rfl

theorem witness_ReservedRegistersReadZero :
    (0x2A ≤ (0x2A#8).toNat ∧ 0x2A ≤ (0xFF#8).toNat) ∧
    (hosting [.regWrite 0x2A#8 7#32] zeroBlock).host = .regWrite 0x2A#8 7#32 :: [] ∧
    (0x20 ≤ (0x20#8).toNat ∧ (0x20#8).toNat < 0x2A) ∧ (0x20 ≤ (0x29#8).toNat ∧ (0x29#8).toNat < 0x2A) := by decide

/-- The ends of the two ranges of read-only registers, and a host write that is no command. -/
theorem witness_ReadOnlyRegistersIgnoreHost :
    (readOnlyIndex (0x01#8).toNat = true ∧ readOnlyIndex (0x03#8).toNat = true ∧ readOnlyIndex (0x0A#8).toNat = true ∧
      readOnlyIndex (0x29#8).toNat = true) ∧
    (hosting [.regWrite 0x29#8 7#32] zeroBlock).host = .regWrite 0x29#8 7#32 :: [] ∧
    (∀ w, HostOp.regWrite 0x09#8 7#32 ≠ .regWrite 0x00#8 w) ∧ HostOp.regWrite 0x09#8 7#32 ≠ .reset ∧
    ∃ t, step (hosting [.regWrite 0x09#8 7#32] zeroBlock) = .next t := by
  refine ⟨by decide, rfl, fun w h => ?_, by decide, _, rfl⟩
  cases h

theorem witness_ConfigurationRegistersKeepWrites :
    (0x04 ≤ (0x04#8).toNat ∧ (0x04#8).toNat ≤ 0x09 ∧ 0x04 ≤ (0x09#8).toNat ∧ (0x09#8).toNat ≤ 0x09) ∧
    (hosting [.regWrite 0x08#8 0xFFFFFFFF#32] zeroBlock).host = .regWrite 0x08#8 0xFFFFFFFF#32 :: [] ∧
    (isCommand (.encodeRate 0#24) = true ∧ ∃ t, exec (.encodeRate 0#24) zeroBlock = .next t) ∧
    (∃ t, step (hosting [.regWrite 0x09#8 7#32] zeroBlock) = .next t ∧ t.regs.read 0x09#8 ≠ zeroBlock.regs.read 0x09#8) ∧
    ∃ t, step (hosting [.reset] zeroBlock) = .next t ∧ t.regs.read 0x04#8 ≠ zeroBlock.regs.read 0x04#8 :=
  ⟨by decide, rfl, ⟨rfl, _, rfl⟩, ⟨_, rfl, by decide⟩, _, rfl, by decide⟩

theorem witness_CmdHoldsLastWrite :
    (∃ t, step (hosting [.regWrite 0x00#8 0x104#32] zeroBlock) = .next t ∧
      t.regs.read 0x00#8 ≠ (hosting [.regWrite 0x00#8 0x104#32] zeroBlock).regs.read 0x00#8) ∧
    ∃ t, step (hosting [.reset] (zeroBlock.onRegs fun r => { r with cmd := 7#32 })) = .next t ∧
      t.regs.read 0x00#8 ≠ (zeroBlock.onRegs fun r => { r with cmd := 7#32 }).regs.read 0x00#8 :=
  ⟨⟨_, rfl, by decide⟩, _, rfl, by decide⟩

theorem witness_IdleCoreDoesNothing : zeroBlock.host = [] := rfl

/-- The last existing address of each memory. -/
theorem witness_HostReadsHaveNoSideEffect :
    (hosting [.regRead 0xFF#8] zeroBlock).host = .regRead 0xFF#8 :: [] ∧
    ((hosting [.brrRead 4095] zeroBlock).host = .brrRead 4095 :: [] ∧ 4095 < zeroBlock.cap.brrCap) ∧
    ((hosting [.pcmRead 65535] zeroBlock).host = .pcmRead 65535 :: [] ∧ 65535 < zeroBlock.cap.pcmCap) ∧
    ((hosting [.pcmReadByte 131071] zeroBlock).host = .pcmReadByte 131071 :: [] ∧ 131071 < 2 * zeroBlock.cap.pcmCap) := by
  decide

theorem witness_HostLoadsBrrMemory :
    (hosting [.brrWrite 4095 0xFF#8] zeroBlock).host = .brrWrite 4095 0xFF#8 :: [] ∧ 4095 < zeroBlock.cap.brrCap := by
  decide

/-- The first address past each memory, and a stream one sample too long for another block. -/
theorem witness_FaultsAreOutsideTheMemories :
    ((hosting [.brrWrite 4096 0#8] zeroBlock).host = .brrWrite 4096 0#8 :: [] ∧ zeroBlock.cap.brrCap ≤ 4096) ∧
    ((hosting [.brrRead 4096] zeroBlock).host = .brrRead 4096 :: [] ∧ zeroBlock.cap.brrCap ≤ 4096) ∧
    ((hosting [.pcmRead 65536] zeroBlock).host = .pcmRead 65536 :: [] ∧ zeroBlock.cap.pcmCap ≤ 65536) ∧
    ((hosting [.pcmReadByte 131072] zeroBlock).host = .pcmReadByte 131072 :: [] ∧ 2 * zeroBlock.cap.pcmCap ≤ 131072) ∧
    ((nibs 0#4 0#4).length = 16 ∧
      ({ zeroBlock with client := .stream, hid := { zeroBlock.hid with len := 65521 } } : State).client = .stream ∧
      ({ zeroBlock with client := .stream, hid := { zeroBlock.hid with len := 65521 } } : State).cap.pcmCap <
        ({ zeroBlock with client := .stream, hid := { zeroBlock.hid with len := 65521 } } : State).hid.len + 16) := by
  decide

theorem witness_StepRunsDecodedCommand :
    (hosting [.regWrite 0x00#8 0x101#32] zeroBlock).host = .regWrite 0x00#8 0x101#32 :: [] ∧
    decode (.command 0x101#32) = .ok (.validate 1#24) := by decide

/-- The block ends where the input ends. -/
theorem witness_DecodeBlockRunsDecodedBlock :
    (chain 9#32 false 0#32).inLen ≤ (chain 9#32 false 0#32).cap.brrCap ∧
    (chain 9#32 false 0#32).regs.blkOfs.toNat + 9 ≤ (chain 9#32 false 0#32).inLen ∧
    decode (.block ((List.range 9).map fun k =>
      (chain 9#32 false 0#32).brrRead ((chain 9#32 false 0#32).regs.blkOfs.toNat + k))) =
      .ok (.brrF2 2#4 false false (nibs 15#4 0#4)) := by decide +kernel

theorem witness_PassesAndProbesRunDecodedBlocks :
    decode (.block ((List.range 9).map fun m => (chain 0#32 true 0#32).brrRead (9 * 1 + m))) =
      .ok (.brrF2 2#4 false false (nibs 15#4 0#4)) ∧
    decode (.block ((List.range 9).map fun m => (chain 0#32 true 0#32).brrRead (9 * (chain 0#32 true 0#32).hid.b + m))) =
      .ok (.brrF1 2#4 false false (nibs 1#4 3#4)) := by decide +kernel

theorem witness_IllegalCommandRaises :
    (hosting [.regWrite 0x00#8 (0xFFFFFF#24 ++ 0x05#8)] zeroBlock).host = .regWrite 0x00#8 (0xFFFFFF#24 ++ 0x05#8) :: [] ∧
    0x05#8 ≠ 0x01#8 ∧ 0x05#8 ≠ 0x02#8 ∧ 0x05#8 ≠ 0x03#8 ∧ 0x05#8 ≠ 0x04#8 := by decide

/-- A command that ends without an error, one that raises, and a reset after a command. -/
theorem witness_CommandsEndDone :
    (isCommand (.encodeRate 0#24) = true ∧ ∃ t, exec (.encodeRate 0#24) zeroBlock = .next t) ∧
    (∃ t, exec (.validate 0#24) State.reset = .next t ∧ t.regs.flag .err = true) ∧
    (∃ t, step (hosting [.regWrite 0x00#8 7#32] zeroBlock) = .next t) ∧
    ∃ t, step (hosting [.reset] (zeroBlock.onRegs fun r => { r with status := 1#5 })) = .next t ∧
      (hosting [.reset] (zeroBlock.onRegs fun r => { r with status := 1#5 })).regs.flag .done = true ∧
      t.regs.flag .done = false :=
  ⟨⟨rfl, _, rfl⟩, ends_next (p := fun t => t.regs.flag .err) (by decide +kernel), ⟨_, rfl⟩, _, rfl, by decide, by decide⟩

theorem witness_EveryCommandCompletes :
    isCommand (.validate 0#24) = true ∧ isCommand (.convert 0#24) = true ∧ isCommand (.decodeBlock 0#24) = true ∧
    isCommand (.encodeRate 0#24) = true := by decide

theorem witness_ValidateCountsBlocks : validStream zeroBlock := by
  unfold validStream; decide +kernel

theorem witness_OversizedInputRaises :
    (zeroBlock.onRegs fun r => { r with inLen := 4097#32 }).cap.brrCap <
      (zeroBlock.onRegs fun r => { r with inLen := 4097#32 }).inLen := by decide

theorem witness_LengthErrorRaises :
    (zeroBlock.onRegs fun r => { r with inLen := 10#32 }).inLen ≤ (zeroBlock.onRegs fun r => { r with inLen := 10#32 }).cap.brrCap ∧
    (zeroBlock.onRegs fun r => { r with inLen := 10#32 }).inLen % 9 ≠ 0 := by decide

theorem witness_EmptyInputRaises : State.reset.inLen = 0 := by decide

/-- V-VAL-4 and, with a block before the violating one, its second block. -/
theorem witness_EarlyEndFlagRaises :
    let s := input (blk 0#8 0#8 ++ blk 0x01#8 0#8 ++ blk 0x01#8 0#8) 0#32
    s.inLen ≤ s.cap.brrCap ∧ s.inLen % 9 = 0 ∧ 1 + 1 < s.inLen / 9 ∧ headerEnd (s.brrRead (9 * 1)) = true ∧
      ∀ m < 1, headerEnd (s.brrRead (9 * m)) = false := by decide +kernel

/-- V-VAL-6. -/
theorem witness_MissingEndFlagRaises :
    let s := input (blk 0#8 0#8 ++ blk 0#8 0#8) 0#32
    s.inLen ≤ s.cap.brrCap ∧ s.inLen % 9 = 0 ∧ 0 < s.inLen ∧
      ∀ m < s.inLen / 9, headerEnd (s.brrRead (9 * m)) = false := by decide +kernel

/-- For BRR.F0 to BRR.F3. -/
theorem witness_BrrDecodes :
    (nibs 7#4 8#4).length = 16 ∧ State.reset.client = .command ∧ State.reset.regs.blkFirst = false := by decide

theorem witness_FirstBlockOverridesHeader :
    (nibs 7#4 8#4).length = 16 ∧ (chain 0#32 true 0#32).client = .command ∧
    (chain 0#32 true 0#32).regs.blkFirst = true := by decide

/-- The last block that fits. -/
theorem witness_PassBlockExtendsStream :
    let s : State := { zeroBlock with client := .stream, hid := { zeroBlock.hid with len := 65520 } }
    (nibs 7#4 8#4).length = 16 ∧ s.client = .stream ∧ s.hid.len + 16 ≤ s.cap.pcmCap := by decide

theorem witness_ProbeBlockKeepsStream :
    (nibs 7#4 8#4).length = 16 ∧ ({ zeroBlock with client := .probe } : State).client = .probe := by decide

/-- The smallest and the largest shift of each kind. -/
theorem witness_RawTermOfEveryShift :
    (12#4).toNat ≤ 12 ∧ 13 ≤ (13#4).toNat ∧ 13 ≤ (15#4).toNat := by decide

/-- An input one byte too long; a block one byte past the input. -/
theorem witness_DecodeBlockAddressErrors :
    (let s := zeroBlock.onRegs fun r => { r with inLen := 4097#32 };
      s.cap.brrCap < s.inLen) ∧
    (let s := zeroBlock.onRegs fun r => { r with blkOfs := 1#32 };
      s.inLen ≤ s.cap.brrCap ∧ s.inLen < s.regs.blkOfs.toNat + 9) := by decide

theorem witness_DecodeBlockWritesResult :
    let s := chain 9#32 false 0#32
    s.inLen ≤ s.cap.brrCap ∧ s.regs.blkOfs.toNat + 9 ≤ s.inLen := by decide

/-- Block 0, and block 1 with the history V-DEC-6 gives. -/
theorem witness_DecodeBlockChainIsInitialPass :
    (let s := chain 0#32 true 0#32;
      s.inLen ≤ s.cap.brrCap ∧ s.regs.blkOfs.toNat = 9 * 0 ∧ 0 < s.inLen / 9 ∧ s.regs.blkFirst = decide (0 = 0) ∧
      s.regs.hist = (passDecode s 0 0 0#16 0#16 true).2.2 ++ (passDecode s 0 0 0#16 0#16 true).2.1) ∧
    (let s := chain 9#32 false 2#32;
      s.inLen ≤ s.cap.brrCap ∧ s.regs.blkOfs.toNat = 9 * 1 ∧ 1 < s.inLen / 9 ∧ s.regs.blkFirst = decide (1 = 0) ∧
      s.regs.hist = (passDecode s 1 0 0#16 0#16 true).2.2 ++ (passDecode s 1 0 0#16 0#16 true).2.1) := by
  decide +kernel

/-- No loop requested and a PCM memory just large enough; a dropped request (V-REQ-3). -/
theorem witness_ConvertWithoutLoop :
    (let s := withPcmCap 16 zeroBlock;
      validStream s ∧ 16 * (s.inLen / 9) ≤ s.cap.pcmCap ∧ s.regs.loopOfs = 0xFFFFFFFF#32) ∧
    (let s := input (blk 0x01#8 0#8) 5#32;
      validStream s ∧ 16 * (s.inLen / 9) ≤ s.cap.pcmCap ∧ s.lastLoopFlag = false) := by
  unfold validStream; decide +kernel

/-- V-REQ-6, V-REQ-5 and the largest misaligned offset inside the input. -/
theorem witness_LoopOffsetErrorsRaise :
    (validStream (twoBlocks 0xFFFFFFFE#32) ∧ (twoBlocks 0xFFFFFFFE#32).lastLoopFlag = true ∧
      (twoBlocks 0xFFFFFFFE#32).regs.loopOfs ≠ 0xFFFFFFFF#32 ∧ (twoBlocks 0xFFFFFFFE#32).regs.loopOfs.toInt < 0) ∧
    (validStream (twoBlocks 18#32) ∧ (twoBlocks 18#32).lastLoopFlag = true ∧
      (twoBlocks 18#32).regs.loopOfs ≠ 0xFFFFFFFF#32 ∧ 0 ≤ (twoBlocks 18#32).regs.loopOfs.toInt ∧
      ((twoBlocks 18#32).inLen : Int) ≤ (twoBlocks 18#32).regs.loopOfs.toInt) ∧
    (validStream (twoBlocks 17#32) ∧ (twoBlocks 17#32).lastLoopFlag = true ∧
      (twoBlocks 17#32).regs.loopOfs ≠ 0xFFFFFFFF#32 ∧ 0 ≤ (twoBlocks 17#32).regs.loopOfs.toInt ∧
      (twoBlocks 17#32).regs.loopOfs.toInt < (twoBlocks 17#32).inLen ∧ (twoBlocks 17#32).regs.loopOfs.toInt % 9 ≠ 0) := by
  unfold validStream; decide +kernel

/-- Two blocks and room for one, with a loop, without a request and with a dropped one. -/
theorem witness_InitialAllocationErrorRaises :
    (let s := withPcmCap 16 (twoBlocks 9#32);
      s.cap.pcmCap < 16 * (s.inLen / 9) ∧ ∃ b, requestsLoop s b) ∧
    (let s := withPcmCap 31 (twoBlocks 0xFFFFFFFF#32);
      s.cap.pcmCap < 16 * (s.inLen / 9) ∧ validStream s ∧ s.regs.loopOfs = 0xFFFFFFFF#32) ∧
    (let s := withPcmCap 31 (input (blk 0#8 0#8 ++ blk 0x01#8 0#8) 0#32);
      s.cap.pcmCap < 16 * (s.inLen / 9) ∧ validStream s ∧ s.regs.loopOfs ≠ 0xFFFFFFFF#32 ∧ s.lastLoopFlag = false) := by
  refine ⟨⟨by decide, 1, ?_⟩, ?_⟩
  · unfold requestsLoop validStream; decide +kernel
  · unfold validStream; decide +kernel

/-- V-LOOP-5. -/
theorem witness_FirstRoundLoopResolves :
    let s := input (blk 0x40#8 0x12#8 ++ blk 0x63#8 0x11#8) 9#32
    requestsLoop s 1 ∧ 16 * (s.inLen / 9) ≤ s.cap.pcmCap ∧ 16 * (s.inLen / 9) < 2 ^ 32 ∧
    probePair s 1 ((initialStream s).getD (16 * (s.inLen / 9) - 1) 0#16)
        ((initialStream s).getD (16 * (s.inLen / 9) - 2) 0#16) =
      ((initialStream s).getD (16 * 1) 0#16, (initialStream s).getD (16 * 1 + 1) 0#16) := by
  unfold requestsLoop validStream; decide +kernel

/-- A CONVERT that raises (V-VAL-3) and one that resolves a loop (V-LOOP-3). -/
theorem witness_ConvertFrame :
    (∃ t, exec (.convert 0#24) State.reset = .next t ∧ t.regs.flag .err = true) ∧
    ∃ t, exec (.convert 0#24) twoRounds = .next t ∧ t.regs.flag .looped = true :=
  ⟨ends_next (p := fun t => t.regs.flag .err) (by decide +kernel),
    ends_next (p := fun t => t.regs.flag .looped) (by decide +kernel)⟩

/-- V-LOOP-3, for ResolvedLoopLaws and the converse of ResolvedLoopIsFirstMatch. -/
theorem witness_ResolvedLoop :
    twoRounds.cap.pcmCap < 2 ^ 32 ∧ ∃ t, exec (.convert 0#24) twoRounds = .next t ∧ t.regs.flag .looped = true :=
  ⟨by decide, ends_next (p := fun t => t.regs.flag .looped) (by decide +kernel)⟩

/-- V-LOOP-3: round 1 fails, and in round 2 the farther candidate matches. -/
theorem witness_ResolvedLoopIsFirstMatch :
    requestsLoop twoRounds 0 ∧ loopResolves twoRounds 0 2 2 ∧ (roundStream twoRounds 0 1).length < 2 ^ 32 := by
  refine ⟨?_, ⟨by decide, by decide, fun r h1 h2 k k1 k2 => ?_, by decide +kernel, by decide, by decide, ?_, fun k h1 h2 => ?_⟩,
    by decide +kernel⟩
  · unfold requestsLoop validStream; decide +kernel
  · obtain rfl : r = 1 := by omega
    obtain rfl : k = 1 := by omega
    unfold candidateMatches; decide +kernel
  · unfold candidateMatches; decide +kernel
  · obtain rfl : k = 1 := by omega
    unfold candidateMatches; decide +kernel

theorem witness_SuccessfulConvertHoldsInitialStream :
    ∃ t, exec (.convert 0#24) zeroBlock = .next t ∧ t.regs.flag .err = false := by
  obtain ⟨t, ht, h⟩ := ends_next (o := exec (.convert 0#24) zeroBlock) (p := fun t => !t.regs.flag .err)
    (by decide +kernel)
  exact ⟨t, ht, by simpa using h⟩

/-- A state that agrees with `zeroBlock` on the operands alone; its draw says that CONVERTs ran before. -/
def zeroBlockOther : State := { zeroBlock.onRegs fun r => { r with status := 31#5, rounds := 5#32, ext80 := 7#80 } with
  hid := { zeroBlock.hid with len := 9, q0 := 3#16, firstPending := true }, client := .probe, pcm := [(0, 1#8)], draw := 3 }

theorem witness_CommandsReadOnlyTheirOperands :
    zeroBlock.brr = zeroBlockOther.brr ∧ zeroBlock.cap = zeroBlockOther.cap ∧
      zeroBlock.regs.inLen = zeroBlockOther.regs.inLen ∧ zeroBlock.regs.loopOfs = zeroBlockOther.regs.loopOfs ∧
      zeroBlock.draw ≠ zeroBlockOther.draw ∧ zeroBlock.regs.blkOfs = zeroBlockOther.regs.blkOfs ∧
      zeroBlock.regs.blkFirst = zeroBlockOther.regs.blkFirst ∧ zeroBlock.regs.hist = zeroBlockOther.regs.hist ∧
      zeroBlock.regs.rate = zeroBlockOther.regs.rate ∧
      (∃ t1 t2, exec (.validate 0#24) zeroBlock = .next t1 ∧ exec (.validate 1#24) zeroBlockOther = .next t2) ∧
      (∃ t1 t2, exec (.convert 0#24) zeroBlock = .next t1 ∧ exec (.convert 1#24) zeroBlockOther = .next t2 ∧
        t1.regs.flag .err = false ∧ streamLength zeroBlock t1.regs.rounds.toNat = 16) ∧
      (∃ t1 t2, exec (.decodeBlock 0#24) zeroBlock = .next t1 ∧ exec (.decodeBlock 1#24) zeroBlockOther = .next t2) ∧
      ∃ t1 t2, exec (.encodeRate 0#24) zeroBlock = .next t1 ∧ exec (.encodeRate 1#24) zeroBlockOther = .next t2 := by
  refine ⟨rfl, rfl, rfl, rfl, by decide, rfl, rfl, rfl, rfl, ?_, ?_, ?_, _, _, rfl, rfl⟩
  · obtain ⟨t1, h1, -⟩ := ends_next (o := exec (.validate 0#24) zeroBlock) (p := fun _ => true) (by decide +kernel)
    obtain ⟨t2, h2, -⟩ := ends_next (o := exec (.validate 1#24) zeroBlockOther) (p := fun _ => true) (by decide +kernel)
    exact ⟨t1, t2, h1, h2⟩
  · obtain ⟨t1, h1, h⟩ := ends_next (o := exec (.convert 0#24) zeroBlock)
      (p := fun t => !t.regs.flag .err && streamLength zeroBlock t.regs.rounds.toNat == 16) (by decide +kernel)
    obtain ⟨t2, h2, -⟩ := ends_next (o := exec (.convert 1#24) zeroBlockOther) (p := fun _ => true) (by decide +kernel)
    exact ⟨t1, t2, h1, h2, by simpa using h⟩
  · obtain ⟨t1, h1, -⟩ := ends_next (o := exec (.decodeBlock 0#24) zeroBlock) (p := fun _ => true) (by decide +kernel)
    obtain ⟨t2, h2, -⟩ := ends_next (o := exec (.decodeBlock 1#24) zeroBlockOther) (p := fun _ => true) (by decide +kernel)
    exact ⟨t1, t2, h1, h2⟩

theorem witness_EncodeRateNormalizes :
    (State.reset.onRegs fun r => { r with rate := 1#32 }).regs.rate ≠ 0#32 ∧
    (State.reset.onRegs fun r => { r with rate := 0xFFFFFFFF#32 }).regs.rate ≠ 0#32 := by decide

theorem witness_EncodeRateZero : State.reset.regs.rate = 0#32 := rfl

theorem witness_EncodedRateIsExact :
    ∃ t, exec (.encodeRate 0#24) (State.reset.onRegs fun r => { r with rate := 0xFFFFFFFF#32 }) = .next t ∧
      (State.reset.onRegs fun r => { r with rate := 0xFFFFFFFF#32 }).regs.rate ≠ 0#32 := ⟨_, rfl, by decide⟩

theorem witness_EncodedRatesKeepOrder :
    (∃ t, exec (.encodeRate 0#24) State.reset = .next t) ∧
    (∃ t, exec (.encodeRate 0#24) (State.reset.onRegs fun r => { r with rate := 1#32 }) = .next t) ∧
    State.reset.regs.rate.toNat < (State.reset.onRegs fun r => { r with rate := 1#32 }).regs.rate.toNat :=
  ⟨⟨_, rfl⟩, ⟨_, rfl⟩, by decide⟩

theorem witness_OnlyHostWritesBrrMemory :
    (∃ t, exec (.encodeRate 0#24) zeroBlock = .next t) ∧
    ∃ t, step (hosting [.brrWrite 0 0x02#8] zeroBlock) = .next t ∧ t.brrRead 0 ≠ zeroBlock.brrRead 0 := by
  refine ⟨⟨_, rfl⟩, ?_⟩
  obtain ⟨t, ht, h⟩ := ends_next (o := step (hosting [.brrWrite 0 0x02#8] zeroBlock)) (p := fun t => t.brrRead 0 == 0x02#8)
    (by decide +kernel)
  exact ⟨t, ht, by rw [eq_of_beq h]; decide +kernel⟩

/-- A CONVERT that changes a byte of the PCM memory, a DECODE_BLOCK that changes OUT_BLK (V-DEC-6) and an ENCODE_RATE that
changes EXT80. -/
theorem witness_ResultsHaveOneWriter :
    (∃ t, step (hosting [.regWrite 0x00#8 2#32] { zeroBlock with pcm := [(0, 0xFF#8)] }) = .next t ∧ t.pcmByte 0 = 0#8) ∧
    ({ zeroBlock with pcm := [(0, 0xFF#8)] } : State).pcmByte 0 = 0xFF#8 ∧
    (∃ t, step (hosting [.regWrite 0x00#8 3#32] (chain 0#32 true 0#32)) = .next t ∧
      t.regs.outBlk[1] ≠ (chain 0#32 true 0#32).regs.outBlk[1]) ∧
    ∃ t, step (hosting [.regWrite 0x00#8 4#32] (State.reset.onRegs fun r => { r with rate := 1#32 })) = .next t ∧
      t.regs.ext80 ≠ State.reset.regs.ext80 := by
  refine ⟨?_, by decide +kernel, ?_, ?_⟩
  · obtain ⟨t, ht, h⟩ := ends_next (o := step (hosting [.regWrite 0x00#8 2#32] { zeroBlock with pcm := [(0, 0xFF#8)] }))
      (p := fun t => t.pcmByte 0 == 0#8) (by decide +kernel)
    exact ⟨t, ht, eq_of_beq h⟩
  · obtain ⟨t, ht, h⟩ := ends_next (o := step (hosting [.regWrite 0x00#8 3#32] (chain 0#32 true 0#32)))
      (p := fun t => t.regs.outBlk[1] == 2#16) (by decide +kernel)
    exact ⟨t, ht, by rw [eq_of_beq h]; decide +kernel⟩
  · obtain ⟨t, ht, h⟩ := ends_next
      (o := step (hosting [.regWrite 0x00#8 4#32] (State.reset.onRegs fun r => { r with rate := 1#32 })))
      (p := fun t => t.regs.ext80 == 0x3FFF8000000000000000#80) (by decide +kernel)
    exact ⟨t, ht, by rw [eq_of_beq h]; decide +kernel⟩

/-- The state after V-VAL-2, with its bytes in both memories and a command still to come. -/
theorem witness_EveryStepKeepsInvariant :
    let s : State := hosting [.regWrite 0x00#8 2#32] { zeroBlock.onRegs fun r =>
      { r with status := 3#5, error := 0x0101#16, errInfo := 8#32, rounds := 64#32 } with
      pcm := [(0, 1#8), (131071, 2#8)] }
    s.Inv ∧ ∃ t, step s = .next t := by
  refine ⟨by constructor <;> decide +kernel, ?_⟩
  obtain ⟨t, ht, -⟩ := ends_next (o := step (hosting [.regWrite 0x00#8 2#32] { zeroBlock.onRegs fun r =>
    { r with status := 3#5, error := 0x0101#16, errInfo := 8#32, rounds := 64#32 } with
    pcm := [(0, 1#8), (131071, 2#8)] })) (p := fun _ => true) (by decide +kernel)
  exact ⟨t, ht⟩

/-! ## A loop that no round resolves (V-LOOP-6): the witness of UnresolvedLoopErrors -/

/-- The samples block 0 gives after the history `p`, `p2`. -/
def blockZero (s : State) (p p2 : Sample) : List Sample :=
  (blockDecode (s.fetchBlock 0).shift (s.fetchBlock 0).filter (s.fetchBlock 0).nibbles p p2 false).out

/-- Whether the next `f` passes over block 0 begin with pairs that were not seen before. -/
def newPairs (s : State) : Nat → Sample → Sample → List (Sample × Sample) → Bool
  | 0, _, _, _ => true
  | f + 1, p, p2, seen =>
    let out := blockZero s p p2
    let head := (out.getD 0 0#16, out.getD 1 0#16)
    !seen.contains head && newPairs s f (out.getD 15 0#16) (out.getD 14 0#16) (head :: seen)

theorem getD_left {xs ys : List Sample} {i : Nat} (h : i < xs.length) : (xs ++ ys).getD i 0#16 = xs.getD i 0#16 := by
  rw [List.getD_eq_getElem?_getD, List.getD_eq_getElem?_getD, List.getElem?_append_left h]

theorem getD_right {xs ys : List Sample} {i : Nat} (k : Nat) (h : i = xs.length + k) :
    (xs ++ ys).getD i 0#16 = ys.getD k 0#16 := by
  subst h
  rw [List.getD_eq_getElem?_getD, List.getD_eq_getElem?_getD, List.getElem?_append_right (by omega),
    Nat.add_sub_cancel_left]

/-- In a stream of one block every candidate is the start of a pass, and the probe is the start of the next one: rounds
fail as long as passes begin with new pairs. -/
theorem newPairs_fails {s : State} (hb : s.blocks = 1) (f m : Nat) (p p2 : Sample) (seen : List (Sample × Sample))
    (hl : (roundStream s 0 m).length = 16 * (m + 1)) (hp : (roundStream s 0 m).getD (16 * (m + 1) - 1) 0#16 = p)
    (hp2 : (roundStream s 0 m).getD (16 * (m + 1) - 2) 0#16 = p2)
    (hs : ∀ j ≤ m, ((roundStream s 0 m).getD (16 * j) 0#16, (roundStream s 0 m).getD (16 * j + 1) 0#16) ∈ seen)
    (h : newPairs s f p p2 seen = true) (r : Nat) (h1 : m < r) (h2 : r ≤ m + f) : roundFails s 0 r := by
  induction f generalizing m p p2 seen with
  | zero => omega
  | succ f ih =>
    simp only [newPairs, Bool.and_eq_true, Bool.not_eq_true'] at h
    obtain ⟨hn, hrest⟩ := h
    have hlen : (blockZero s p p2).length = 16 := by simp [blockZero]
    by_cases e : r = m + 1
    · subst e
      intro k k1 k2 hc
      unfold candidateMatches at hc
      simp only [Nat.add_sub_cancel, hl, hb] at hc
      rw [hp, hp2, show 16 * (m + 1) - k * (16 * (1 - 0)) = 16 * (m + 1 - k) by omega] at hc
      have hmem := hs (m + 1 - k) (by omega)
      rw [hc, show probePair s 0 p p2 = ((blockZero s p p2).getD 0 0#16, (blockZero s p p2).getD 1 0#16) from rfl]
        at hmem
      have : seen.contains ((blockZero s p p2).getD 0 0#16, (blockZero s p p2).getD 1 0#16) = true := by simpa using hmem
      rw [hn] at this
      cases this
    · have next : roundStream s 0 (m + 1) = roundStream s 0 m ++ blockZero s p p2 := by
        simp only [roundStream, hl, hp, hp2, hb, Nat.sub_zero, passDecode, List.append_nil]
        rfl
      refine ih (m + 1) _ _ _ ?_ ?_ ?_ ?_ hrest (by omega) (by omega)
      · rw [next, List.length_append, hl, hlen]; omega
      · rw [next]; exact getD_right 15 (by omega)
      · rw [next]; exact getD_right 14 (by omega)
      · intro j hj
        rw [next]
        by_cases ej : j = m + 1
        · subst ej
          rw [getD_right 0 (by omega), getD_right 1 (by omega)]
          exact List.mem_cons_self
        · rw [getD_left (by omega), getD_left (by omega)]
          exact List.mem_cons_of_mem _ (hs j (by omega))

/-- The input of V-LOOP-6. -/
def neverResolves : State := input (blk 0x7b#8 0x47#8) 0#32

/-- V-LOOP-6: "The initial pass gives 4, 6 x8". -/
theorem test_neverResolves_initial : initialStream neverResolves =
    [4#16, 6#16, 4#16, 6#16, 4#16, 6#16, 4#16, 6#16, 4#16, 6#16, 4#16, 6#16, 4#16, 6#16, 4#16, 6#16] := by
  decide +kernel

theorem neverResolves_fails (r : Nat) (h1 : 1 ≤ r) (h2 : r ≤ 64) : roundFails neverResolves 0 r := by
  refine newPairs_fails (by decide +kernel) 64 0 6#16 4#16 [(4#16, 6#16)] ?_ ?_ ?_ ?_ (by decide +kernel) r (by omega)
    (by omega)
  · rw [roundStream, test_neverResolves_initial]; rfl
  · rw [roundStream, test_neverResolves_initial]; rfl
  · rw [roundStream, test_neverResolves_initial]; rfl
  · intro j hj
    obtain rfl : j = 0 := by omega
    rw [roundStream, test_neverResolves_initial]; decide

/-- V-ALLOC-2: a growth pass that does not fit. -/
theorem witness_UnresolvedLoopErrors_outgrown :
    let s := withPcmCap 16 (input (blk 0x07#8 0x04#8) 0#32)
    requestsLoop s 0 ∧ loopOutgrows s 0 1 ∧ 16 * (s.inLen / 9) ≤ s.cap.pcmCap ∧
      ∃ t, exec (.convert 0#24) s = .next t ∧ t.regs.error = 0x0203#16 := by
  intro s
  refine ⟨?_, ⟨by decide, by decide, fun r h1 h2 k k1 k2 => ?_, by decide +kernel, by decide +kernel⟩, by decide +kernel, ?_⟩
  · unfold requestsLoop validStream; decide +kernel
  · obtain rfl : r = 1 := by omega
    obtain rfl : k = 1 := by omega
    unfold candidateMatches; decide +kernel
  · obtain ⟨t, ht, h⟩ := ends_next (o := exec (.convert 0#24) s) (p := fun t => t.regs.error == 0x0203#16) (by decide +kernel)
    exact ⟨t, ht, eq_of_beq h⟩

/-- V-LOOP-6: LoopConvergenceError. -/
theorem witness_UnresolvedLoopErrors_exhausted :
    requestsLoop neverResolves 0 ∧ loopExhausts neverResolves 0 ∧ 16 * (neverResolves.inLen / 9) ≤ neverResolves.cap.pcmCap ∧
      ∃ t, exec (.convert 0#24) neverResolves = .next t ∧ t.regs.error = 0x0002#16 := by
  have hb : requestsLoop neverResolves 0 := by unfold requestsLoop validStream; decide +kernel
  have blocks : neverResolves.blocks = 1 := by decide +kernel
  have cap : neverResolves.cap.pcmCap = 65536 := by decide +kernel
  have ends : loopExhausts neverResolves 0 := ⟨neverResolves_fails, by rw [roundStream_length, blocks, cap]; decide⟩
  have room : 16 * neverResolves.blocks ≤ neverResolves.cap.pcmCap := by rw [blocks, cap]; decide
  obtain ⟨v, q⟩ := (requestsLoop_iff _ _).1 hb
  obtain ⟨t, ht, l⟩ := execConvert_of_ends 0#24 (.exhausted 0 v q room ends)
  exact ⟨hb, ends, room, t, ht, by rw [l.regs]; rfl⟩

end Sys2Proof.Tests
end

section
/-! Host writes to the reserved and the read-only registers, and the bits that read 0 (spec/10_state.md
R31, R32). -/

namespace Sys2Proof.Machine

/-- Zero-extension leaves no bit set at or above the narrow width. -/
theorem extractLsb'_setWidth_above {w start : Nat} (x : BitVec w) (h : w ≤ start) (m len : Nat) :
    (x.setWidth m).extractLsb' start len = 0#len := by
  apply BitVec.eq_of_getLsbD_eq
  intro i _
  have above : x.getLsbD (start + i) = false := BitVec.getLsbD_of_ge x _ (by omega)
  simp [BitVec.getLsbD_setWidth, above]

/-- The indices from 0x20 to 0x29 are the EXT80 registers (R30). -/
theorem regAt_eq_ext80 {idx : BitVec 8} (lo : 0x20 ≤ idx.toNat) (hi : idx.toNat < 0x2A) :
    ∃ i, regAt idx = .ext80 i := by
  have e : BitVec.ofNat 8 (0x20 + (idx.toNat - 0x20)) = idx := by
    rw [Nat.add_sub_cancel' lo, BitVec.ofNat_toNat, BitVec.setWidth_eq]
  have h := regAt_ext80 ⟨idx.toNat - 0x20, by omega⟩
  rw [e] at h
  exact ⟨_, h⟩

/-- A read-only index lies outside the registers a host write reaches: CMD and the configuration registers. -/
theorem readOnlyIndex_outside {k : Nat} (h : readOnlyIndex k = true) : k ≠ 0 ∧ (k < 0x04 ∨ 0x0A ≤ k) := by
  simp only [readOnlyIndex, Bool.or_eq_true, decide_eq_true_eq] at h
  omega

/-- A step whose host write goes to no writable register consumes the access and does nothing else (R31, R32). -/
theorem step_write_ignored {s : State} {rest : List HostOp} {idx : BitVec 8} {v : Word}
    (hh : s.host = .regWrite idx v :: rest) (notCmd : idx.toNat ≠ 0) (outside : idx.toNat < 0x04 ∨ 0x0A ≤ idx.toNat) :
    step s = .next { s with host := rest } := by
  have hi : idx ≠ 0#8 := fun e => notCmd (by rw [e]; rfl)
  simp only [step, hostStep, hh, hostAccess, if_neg hi, State.onRegs, Regs.write_ignored outside]

/-- A host write is not seen through a register that ignores writes, whichever register it goes to. -/
theorem Regs.read_write_outside {k : BitVec 8} (outside : k.toNat < 0x04 ∨ 0x0A ≤ k.toNat) (idx : BitVec 8) (v : Word)
    (r : Regs) : (Regs.write idx v r).read k = r.read k := by
  by_cases e : k = idx
  · rw [← e, Regs.write_ignored outside]
  · exact Regs.read_write_ne e v r

/-- An access that neither starts a command nor resets leaves every register outside the writable ones as it was: only
`StepDone.write` changes a register at all. -/
theorem step_read_outside {s t : State} {op : HostOp} {rest : List HostOp} {k : BitVec 8} (hh : s.host = op :: rest)
    (notCmd : ∀ w, op ≠ .regWrite 0x00#8 w) (notReset : op ≠ .reset) (h : step s = .next t)
    (outside : k.toNat < 0x04 ∨ 0x0A ≤ k.toNat) : t.regs.read k = s.regs.read k := by
  cases step_cases h with
  | idle hn => cases hh.symm.trans hn
  | command w _ _ hc => cases hh.symm.trans hc; exact absurd rfl (notCmd w)
  | illegal w _ _ hc => cases hh.symm.trans hc; exact absurd rfl (notCmd w)
  | write idx v _ _ _ e => rw [e]; exact Regs.read_write_outside outside idx v s.regs
  | read _ _ _ _ _ _ _ e => rw [e]
  | load _ _ _ _ _ e => rw [e]
  | reset _ hr => cases hh.symm.trans hr; exact absurd rfl notReset

/-- Settles O8: an ignored write is `step_write_ignored`, and the other accesses are the cases of `step_read_outside`. -/
theorem readOnlyRegistersIgnoreHost : Obligations.ReadOnlyRegistersIgnoreHost := by
  unfold Obligations.ReadOnlyRegistersIgnoreHost
  refine ⟨fun s rest idx v ro hh => ?_, fun s t op rest idx hh notCmd notReset h ro => ?_⟩
  · obtain ⟨notCmd, outside⟩ := readOnlyIndex_outside ro
    exact step_write_ignored hh notCmd outside
  · exact step_read_outside hh notCmd notReset h (readOnlyIndex_outside ro).2

/-- Settles O7: past the map every index is `Reg.reserved`, and each field marked "read 0" lies above the stored width
of a zero-extended register. -/
theorem reservedRegistersReadZero : Obligations.ReservedRegistersReadZero := by
  unfold Obligations.ReservedRegistersReadZero
  refine ⟨fun r idx h => ?_, fun s rest idx v h hh => ?_, fun r => ⟨?_, ?_, ?_⟩, fun r idx lo hi => ?_⟩
  · rw [Regs.read, regAt_reserved h]; rfl
  · exact step_write_ignored hh (by omega) (by omega)
  · exact extractLsb'_setWidth_above r.status (by decide) 32 27
  · exact extractLsb'_setWidth_above r.error (by decide) 32 16
  · exact extractLsb'_setWidth_above (BitVec.ofBool r.blkFirst) (by decide) 32 31
  · obtain ⟨i, hi⟩ := regAt_eq_ext80 lo hi
    rw [Regs.read, hi]
    exact extractLsb'_setWidth_above (r.ext80.extractLsb' (72 - 8 * i.val) 8) (by decide) 32 24

end Sys2Proof.Machine
end

section
/-! Who writes the BRR input memory (spec/20_memory.md R72): no instruction does, and of the host's accesses only a write
of a byte. -/

namespace Sys2Proof.Machine

/-- A block issued by a pass past PCM_CAP is not appended: it faults (R74). -/
theorem runBlock_stream_overflow {s : State} (h : s.client = .stream) (shift : BitVec 4) (f : BitVec 2)
    (ns : List Nibble) (full : s.cap.pcmCap < s.hid.len + ns.length) :
    runBlock shift f ns s = .fault (.pcmOverflow s.hid.len) := by
  unfold runBlock retireBlock
  rw [h]
  simp only [blockDecode_length, if_neg (Nat.not_le_of_lt full)]

/-- A block keeps the BRR memory, whoever issues it. -/
theorem runBlock_brr {shift : BitVec 4} {f : BitVec 2} {ns : List Nibble} {s t : State}
    (h : runBlock shift f ns s = .next t) : t.brr = s.brr := by
  cases hc : s.client with
  | command => rw [runBlock_command hc] at h; cases h; rfl
  | stream =>
    by_cases room : s.hid.len + ns.length ≤ s.cap.pcmCap
    · rw [runBlock_stream hc _ _ _ room] at h; cases h; rfl
    · rw [runBlock_stream_overflow hc _ _ _ (Nat.lt_of_not_le room)] at h; cases h
  | probe => rw [runBlock_probe hc] at h; cases h; rfl

/-- No instruction changes the BRR memory (R72): a command by its frame, a block by `runBlock_brr`. -/
theorem exec_brr {i : Instr} {s t : State} (h : exec i s = .next t) : t.brr = s.brr := by
  cases i with
  | brrF0 | brrF1 | brrF2 | brrF3 => exact runBlock_brr h
  | validate | convert | decodeBlock | encodeRate => exact (exec_command_frame rfl h).brr

/-- A step keeps the BRR memory, or it is a host write of a byte and stores that byte. -/
theorem step_brr {s t : State} (h : step s = .next t) :
    t.brr = s.brr ∨ ∃ a v rest, s.host = .brrWrite a v :: rest ∧ t.brr = (s.brrWrite a v).brr := by
  cases step_cases h with
  | command _ rest _ _ _ he => exact .inl (exec_brr (s := { s with host := rest }) he)
  | load a v rest hh _ e => exact .inr ⟨a, v, rest, hh, by rw [e]; rfl⟩
  | idle _ e | illegal _ _ _ _ _ e | write _ _ _ _ _ e | read _ _ _ _ _ _ _ e | reset _ _ e =>
    exact .inl (by subst e; rfl)

/-- Settles O57: `exec_brr` for the instructions; by `step_brr` a step changes the memory only as a host write, which
leaves every byte but its own. -/
theorem onlyHostWritesBrrMemory : Obligations.OnlyHostWritesBrrMemory := by
  unfold Obligations.OnlyHostWritesBrrMemory
  refine ⟨fun s t i h a => State.brrRead_congr (exec_brr h) a, fun s t a h changed => ?_⟩
  rcases step_brr h with keeps | ⟨b, v, rest, hh, stores⟩
  · exact absurd (State.brrRead_congr keeps a) changed
  · have same : a = b := by
      by_contra ne
      exact changed ((State.brrRead_congr stores a).trans (State.brrRead_brrWrite_ne s v ne))
    exact ⟨v, rest, by rw [same]; exact hh⟩

end Sys2Proof.Machine
end

section
/-! The block decoder read from its bytes (spec/30_encoding.md R102, R107, R109). -/

namespace Sys2Proof.Machine

/-- A header with filter field `f` and eight payload bytes decode to the block instruction of `f` (R104, R109). -/
theorem decode_block_of_filter {h : Byte} {payload : List Byte} {f : BitVec 2} (eight : payload.length = 8)
    (hf : headerFilter h = f) : decode (.block (h :: payload)) =
      .ok (blockInstr f (headerShift h) (headerLoop h) (headerEnd h) (payloadNibbles payload)) := by
  subst hf
  exact if_pos eight

/-- Settles O3: the nibbles are `payloadNibbles payload`, read by `payloadNibbles_getD` one byte past the header; the
mask 0x0C is the filter field (`headerFilter_eq_iff`), which selects the instruction. -/
theorem blockFieldsDecode : Obligations.BlockFieldsDecode := by
  unfold Obligations.BlockFieldsDecode
  intro h payload eight
  obtain ⟨mask0, mask1, mask2, mask3⟩ := headerFilter_eq_iff h
  refine ⟨payloadNibbles payload, ?_, fun i hi => ?_, ?_, fun m => ?_, fun m => ?_, fun m => ?_, fun m => ?_⟩
  · rw [payloadNibbles_length, eight]
  · rw [payloadNibbles_getD payload i (by omega), Nat.add_comm 1, List.getD_cons_succ]
  · rw [mask0, mask1, mask2, mask3]
    exact filter_cases (headerFilter h)
  · exact decode_block_of_filter eight (mask0.1 m)
  · exact decode_block_of_filter eight (mask1.1 m)
  · exact decode_block_of_filter eight (mask2.1 m)
  · exact decode_block_of_filter eight (mask3.1 m)

end Sys2Proof.Machine
end

section
/-! VALIDATE, and CONVERT's first check: the block validator (spec/40_block_validator.md R140 to R148). -/

namespace Sys2Proof.Machine

/-! ### What the commands do with the validator's answer -/

/-- A command keeps the BRR memory and everything outside the core (R72). -/
theorem CommandFrame.keepsBrr {i : Instr} {s t : State} (f : CommandFrame i s t) : keepsBrr s t :=
  ⟨State.brrRead_congr f.brr, f.cap, f.host, f.resp⟩

/-- A command other than CONVERT keeps the PCM memory too (R77). -/
theorem CommandFrame.keepsRest {i : Instr} {s t : State} (f : CommandFrame i s t) (notConvert : ∀ g, i ≠ .convert g) :
    keepsRest s t :=
  have ⟨pcm, draw⟩ := f.pcm notConvert
  ⟨⟨State.brrRead_congr f.brr, State.pcmByte_congr pcm draw⟩, f.cap, f.host, f.resp⟩

/-- What VALIDATE leaves when the validator raises (R262, R303). -/
theorem exec_validate_error {s : State} {e : Raise} (g : BitVec 24) (h : validate s = .error e) :
    ∃ t, exec (.validate g) s = .next t ∧
      t.regs = endedRegs (g ++ 0x01#8) 0x03#5 (e.sub ++ e.kind.code) e.info { s.regs with blockCount := 0#32 } ∧
      keepsRest s t := by
  have run : exec (.validate g) s = .next ((validateStart g s).raise e) := execValidate_error g h
  exact ⟨_, run, beginCommand_raise (g ++ 0x01#8) e { s.regs with blockCount := 0#32 },
    (exec_command_frame rfl run).keepsRest fun _ => nofun⟩

/-- What CONVERT leaves when the validator raises (R263, R303). -/
theorem exec_convert_invalid {s : State} {e : Raise} (g : BitVec 24) (h : validate s = .error e) :
    ∃ t, exec (.convert g) s = .next t ∧
      t.regs = endedRegs (g ++ 0x02#8) 0x03#5 (e.sub ++ e.kind.code) e.info s.regs.clearResults ∧ keepsBrr s t := by
  obtain ⟨t, run, leaves⟩ := execConvert_of_ends g (.invalid e h)
  exact ⟨t, run, leaves.regs, (exec_command_frame (i := .convert g) rfl run).keepsBrr⟩

/-- Both commands end with whatever error the validator raises, `word` being its SUB and CODE (R35). -/
theorem validatorRaises_of_error {s : State} {kind : ErrorKind} {sub : Byte} {info : Word} {word : BitVec 16}
    (h : validate s = .error ⟨kind, sub, info⟩) (hw : sub ++ kind.code = word) : validatorRaises s word info := by
  intro g
  have val := exec_validate_error g h
  have conv := exec_convert_invalid g h
  rw [hw] at val conv
  exact ⟨val, conv⟩

/-! ### The validator's checks in their order -/

/-- R148, before any other check. -/
theorem validate_oversized {s : State} (h : s.cap.brrCap < s.inLen) :
    validate s = .error ⟨.address, 1#8, s.regs.inLen⟩ := by
  rw [validate, if_pos h]

/-- R141, after R148. -/
theorem validate_lengthError {s : State} (fits : s.inLen ≤ s.cap.brrCap) (h : s.inLen % 9 ≠ 0) :
    validate s = .error ⟨.structural, 1#8, s.regs.inLen⟩ := by
  rw [validate, if_neg (Nat.not_lt.2 fits), if_pos h]

/-- R142: an empty input passes the two checks before this one. -/
theorem validate_empty {s : State} (h : s.inLen = 0) : validate s = .error ⟨.structural, 2#8, 0#32⟩ := by
  rw [validate, if_neg (by omega), if_neg (by omega), if_pos h]

/-- R143 and R144: past the checks of the length, the first block whose end flag is wrong decides. -/
theorem validate_endFlagWrong {s : State} {j : Nat} (fits : s.inLen ≤ s.cap.brrCap) (whole : s.inLen % 9 = 0)
    (inside : j < s.inLen / 9) (wrong : ¬ endFlagRight s (s.inLen / 9) j)
    (before : ∀ m < j, endFlagRight s (s.inLen / 9) m) :
    validate s = .error ⟨.structural, if j + 1 = s.inLen / 9 then 4#8 else 3#8, BitVec.ofNat 32 j⟩ := by
  have scan := scanEndFlags_first (s.inLen / 9) 0 j (Nat.zero_le j) (by omega) inside wrong fun m _ => before m
  rw [validate, if_neg (by omega), if_neg (by omega), if_neg (by omega), scan]

/-- End flag 0 is right on every block but the last. -/
theorem endFlagRight_of_clear {s : State} {n m : Nat} (clear : headerEnd (s.brrRead (9 * m)) = false)
    (notLast : m + 1 ≠ n) : endFlagRight s n m := by
  rw [endFlagRight, clear, decide_eq_false notLast]

/-! ### The statements -/

/-- Settles O23: `validate_ok_iff` gives the block count, which `execValidate_ok` stores at the end of the command. -/
theorem validateCountsBlocks : Obligations.ValidateCountsBlocks := by
  unfold Obligations.ValidateCountsBlocks
  intro s g valid
  have run : exec (.validate g) s = .next
      ((validateStart g s).onRegs fun r => { r with blockCount := BitVec.ofNat 32 s.blocks }).finish :=
    execValidate_ok g ((validate_ok_iff s _).2 ⟨valid, rfl⟩)
  exact ⟨validStream_blocks_pos valid, _, run,
    beginCommand_finish (g ++ 0x01#8) { s.regs with blockCount := BitVec.ofNat 32 s.blocks },
    (exec_command_frame rfl run).keepsRest fun _ => nofun⟩

/-- Settles O24: the first check of `validate`. -/
theorem oversizedInputRaises : Obligations.OversizedInputRaises := by
  unfold Obligations.OversizedInputRaises
  intro s oversized
  exact validatorRaises_of_error (validate_oversized oversized) rfl

/-- Settles O25: the second check of `validate`, which reads no byte of the input. -/
theorem lengthErrorRaises : Obligations.LengthErrorRaises := by
  unfold Obligations.LengthErrorRaises
  intro s fits partialBlock
  exact validatorRaises_of_error (validate_lengthError fits partialBlock) rfl

/-- Settles O26: the third check of `validate`, which an empty input always reaches. -/
theorem emptyInputRaises : Obligations.EmptyInputRaises := by
  unfold Obligations.EmptyInputRaises
  intro s empty
  exact validatorRaises_of_error (validate_empty empty) rfl

/-- Settles O27: block `j` is not the last, so its end flag 1 is wrong, and those before it are right. -/
theorem earlyEndFlagRaises : Obligations.EarlyEndFlagRaises := by
  unfold Obligations.EarlyEndFlagRaises
  intro s j fits whole early flagged clear
  have wrong : ¬ endFlagRight s (s.inLen / 9) j := by
    rw [endFlagRight, flagged, decide_eq_false early.ne]
    decide
  have raises := validate_endFlagWrong fits whole (by omega) wrong fun m hm =>
    endFlagRight_of_clear (clear m hm) (by omega)
  rw [if_neg early.ne] at raises
  exact validatorRaises_of_error raises rfl

/-- Settles O28: with no end flag at all, the last block is the first whose flag is wrong. -/
theorem missingEndFlagRaises : Obligations.MissingEndFlagRaises := by
  unfold Obligations.MissingEndFlagRaises
  intro s fits whole nonempty clear
  have last : s.inLen / 9 - 1 + 1 = s.inLen / 9 := by omega
  have wrong : ¬ endFlagRight s (s.inLen / 9) (s.inLen / 9 - 1) := by
    rw [endFlagRight, clear _ (by omega), decide_eq_true last]
    decide
  have raises := validate_endFlagWrong fits whole (by omega) wrong fun m hm =>
    endFlagRight_of_clear (clear m (by omega)) (by omega)
  rw [if_pos last] at raises
  exact validatorRaises_of_error raises rfl

end Sys2Proof.Machine
end

section
/-! The block instructions BRR.F0 to BRR.F3 as DECODE_BLOCK issues them (spec/41_brr_decoder.md R165 to R173): the raw
term of a nibble, the four filter sums, and what a block leaves in the registers. -/

namespace Sys2Proof.Machine

/-! ### The scaled and the raw term (R165 to R167) -/

theorem nibble_toInt_bounds (n : Nibble) : -8 ≤ n.toInt ∧ n.toInt ≤ 7 :=
  ⟨BitVec.le_toInt n, Int.lt_add_one_iff.1 BitVec.toInt_lt⟩

theorem scaledTerm_of_le {shift : BitVec 4} (h : shift.toNat ≤ 12) (n : Nibble) :
    scaledTerm shift n = n.toInt * 2 ^ shift.toNat := if_pos h

/-- The quirk of the shifts 13 to 15: the nibble's sign alone counts (R166). -/
theorem scaledTerm_of_ge {shift : BitVec 4} (h : 13 ≤ shift.toNat) (n : Nibble) :
    scaledTerm shift n = if n.toInt < 0 then -4096 else 0 := by
  obtain ⟨lo, hi⟩ := nibble_toInt_bounds n
  rw [scaledTerm, if_neg (by omega), Int.shiftRight_eq_div_pow]
  split_ifs <;> omega

theorem scaledTerm_bounds (shift : BitVec 4) (n : Nibble) :
    -32768 ≤ scaledTerm shift n ∧ scaledTerm shift n ≤ 28672 := by
  by_cases h : shift.toNat ≤ 12
  · obtain ⟨lo, hi⟩ := nibble_toInt_bounds n
    have pos : (0 : Int) < 2 ^ shift.toNat := by positivity
    have le : (2 : Int) ^ shift.toNat ≤ 2 ^ 12 := pow_le_pow_right₀ (by decide) h
    rw [scaledTerm_of_le h]
    constructor <;> nlinarith
  · rw [scaledTerm_of_ge (by omega)]
    split_ifs <;> decide

theorem rawTerm_eq_fdiv (shift : BitVec 4) (n : Nibble) : rawTerm shift n = Int.fdiv (scaledTerm shift n) 2 := by
  rw [rawTerm, Int.shiftRight_eq_div_pow, Int.fdiv_eq_ediv_of_nonneg _ (by decide)]
  rfl

theorem rawTerm_bounds (shift : BitVec 4) (n : Nibble) : -16384 ≤ rawTerm shift n ∧ rawTerm shift n ≤ 14336 := by
  have := scaledTerm_bounds shift n
  rw [rawTerm, Int.shiftRight_eq_div_pow]
  omega

/-! ### The filter sums and the output stage (R170 to R176) -/

theorem filterSum_filter0 (raw a b : Int) : filterSum (filterTable 0#2) raw a b = raw := by
  simp [filterSum, filterTable]

theorem filterSum_filter1 (raw a b : Int) : filterSum (filterTable 1#2) raw a b = raw + a + ((-a) >>> (4 : Nat)) := by
  simp [filterSum, filterTable]

theorem filterSum_filter2 (raw a b : Int) : filterSum (filterTable 2#2) raw a b =
    raw + 2 * a + ((-3 * a) >>> (5 : Nat)) - b + (b >>> (4 : Nat)) := by
  simp [filterSum, filterTable, sub_eq_add_neg]

theorem filterSum_filter3 (raw a b : Int) : filterSum (filterTable 3#2) raw a b =
    raw + 2 * a + ((-13 * a) >>> (6 : Nat)) - b + ((3 * b) >>> (4 : Nat)) := by
  simp [filterSum, filterTable, sub_eq_add_neg]

/-- Neither the clamp nor the wraparound correction acts on a sum of 15 bits. -/
theorem outputValue_of_bounds {s : Int} (lo : -16384 ≤ s) (hi : s ≤ 16383) : outputValue s = 2 * s := by
  rw [outputValue, clampSum, if_neg (by omega), if_neg (by omega), wrapCorrect, if_neg (by omega), if_neg (by omega)]

/-! ### A block issued by DECODE_BLOCK (R163, R264) -/

/-- DECODE_BLOCK's block reads HIST and BLK_CTRL.FIRST. -/
theorem State.issued_command {s : State} (h : s.client = .command) (shift : BitVec 4) (f : BitVec 2)
    (ns : List Nibble) :
    s.issued shift f ns = blockDecode shift f ns s.regs.prev s.regs.prev2 s.regs.blkFirst := by
  simp only [State.issued, State.blockPrev, State.blockPrev2, State.blockFirst, h]

theorem overwrite_full_toList {vs : List Sample} (v : Vector Sample 16) (full : vs.length = 16) :
    (overwrite v 0 vs).toList = vs := by
  refine List.ext_getElem (by simp [full]) fun k hk hk' => ?_
  rw [Vector.getElem_toList, overwrite_full v full, List.getD_eq_getElem _ _ hk']

/-- HIST after a block of 16 nibbles holds its last two samples. -/
theorem State.issued_histWord (s : State) (shift : BitVec 4) (f : BitVec 2) {ns : List Nibble}
    (sixteen : ns.length = 16) : histWord (s.issued shift f ns).prev (s.issued shift f ns).prev2 =
      (s.issued shift f ns).out.getD 14 0#16 ++ (s.issued shift f ns).out.getD 15 0#16 := by
  obtain ⟨newest, older⟩ := blockDecode_history shift f ns s.blockPrev s.blockPrev2 s.blockFirst sixteen
  rw [State.issued, histWord, newest, older]

/-- A block issued by DECODE_BLOCK leaves its samples in OUT_BLK, the last two of them in HIST and its warning in STATUS,
and changes nothing else the host can observe. -/
theorem runBlock_command_leaves {s : State} (h : s.client = .command) (shift : BitVec 4) (f : BitVec 2)
    {ns : List Nibble} (sixteen : ns.length = 16) :
    ∃ t, runBlock shift f ns s = .next t ∧ t.regs.outBlk.toList = (s.issued shift f ns).out ∧
      t.regs = { s.regs.setFlagIf .firstHdr (s.issued shift f ns).warnFirst with
        outBlk := t.regs.outBlk, hist := t.regs.outBlk[14] ++ t.regs.outBlk[15] } ∧
      keepsRest s t := by
  have full : (s.issued shift f ns).out.length = 16 := (blockDecode_length ..).trans sixteen
  refine ⟨_, runBlock_command h shift f ns, overwrite_full_toList _ full, ?_,
    ⟨fun _ => rfl, fun _ => rfl⟩, rfl, rfl, rfl⟩
  simp only [overwrite_full _ full, s.issued_histWord shift f sixteen]

/-- The block instruction of filter `f` decodes with any function that is its filter sum. -/
theorem decodesWith_blockInstr {f : BitVec 2} {sum : Int → Int → Int → Int}
    (isSum : ∀ raw a b, filterSum (filterTable f) raw a b = sum raw a b) (shift : BitVec 4) (loop last : Bool)
    {ns : List Nibble} {s : State} (sixteen : ns.length = 16) (h : s.client = .command)
    (notFirst : s.regs.blkFirst = false) : decodesWith sum (blockInstr f shift loop last ns) shift ns s := by
  obtain ⟨t, run, samples, regs, rest⟩ := runBlock_command_leaves h shift f sixteen
  rw [State.issued_command h, notFirst] at samples regs
  change _ = (decodeNibbles f shift ns s.regs.prev s.regs.prev2).1 at samples
  refine ⟨t, (exec_blockInstr ..).trans run, fun k hk => ?_, regs, rest⟩
  have sample := decodeNibbles_get f shift ns s.regs.prev s.regs.prev2 k (by omega)
  rw [← samples] at sample
  have read : t.regs.outBlk[k] = t.regs.outBlk.toList.getD k 0#16 := by simp [hk]
  rw [read, sample, decodeSample, outputSample_toInt, isSum, List.getD_eq_getElem _ _ (by omega)]
  rfl

/-! ### The statements -/

/-- Settles O36: the two branches of `scaledTerm`, its bounds, and the halving. -/
theorem rawTermOfEveryShift : Obligations.RawTermOfEveryShift := by
  unfold Obligations.RawTermOfEveryShift
  intro shift n
  exact ⟨fun h => ⟨scaledTerm_of_le h n, scaledTerm_bounds shift n⟩, fun h => scaledTerm_of_ge h n,
    rawTerm_eq_fdiv shift n, rawTerm_bounds shift n⟩

/-- Settles O29: filter 0 adds nothing to the raw term, whose range the output stage only doubles. -/
theorem brrF0Decodes : Obligations.BrrF0Decodes := by
  unfold Obligations.BrrF0Decodes
  intro shift loop last ns s sixteen command notFirst
  refine ⟨decodesWith_blockInstr filterSum_filter0 shift loop last sixteen command notFirst, fun n => ?_⟩
  obtain ⟨lo, hi⟩ := rawTerm_bounds shift n
  exact ⟨lo, hi, outputValue_of_bounds lo (by omega)⟩

/-- Settles O30: the row of filter 1 has no term of `b`. -/
theorem brrF1Decodes : Obligations.BrrF1Decodes := by
  unfold Obligations.BrrF1Decodes
  intro shift loop last ns s sixteen command notFirst
  exact decodesWith_blockInstr filterSum_filter1 shift loop last sixteen command notFirst

/-- Settles O31: the sum is monotone in `raw` and `a` and antitone in `b`, so the bounds are linear arithmetic. -/
theorem brrF2Decodes : Obligations.BrrF2Decodes := by
  unfold Obligations.BrrF2Decodes
  intro shift loop last ns s sixteen command notFirst
  refine ⟨decodesWith_blockInstr filterSum_filter2 shift loop last sixteen command notFirst,
    fun n a b aLo aHi bLo bHi => ?_⟩
  have := rawTerm_bounds shift n
  simp only [Int.shiftRight_eq_div_pow]
  omega

/-- Settles O32: as for filter 2. -/
theorem brrF3Decodes : Obligations.BrrF3Decodes := by
  unfold Obligations.BrrF3Decodes
  intro shift loop last ns s sixteen command notFirst
  refine ⟨decodesWith_blockInstr filterSum_filter3 shift loop last sixteen command notFirst,
    fun n a b aLo aHi bLo bHi => ?_⟩
  have := rawTerm_bounds shift n
  simp only [Int.shiftRight_eq_div_pow]
  omega

end Sys2Proof.Machine
end

section
/-! CONVERT's loop request (spec/42_loop_convergence.md R200 to R203): a CONVERT that analyses no loop, and the invalid
offsets. -/

namespace Sys2Proof.Machine

/-! ### The answers of the loop request, in the order of its checks -/

/-- LOOP_OFS = -1 is the word with every bit set (R38). -/
theorem loopOfs_toInt_eq_neg_one_iff (w : Word) : w.toInt = -1 ↔ w = 0xFFFFFFFF#32 :=
  BitVec.toInt_inj (y := 0xFFFFFFFF#32)

/-- R201, before the stream is looked at. -/
theorem resolveLoopRequest_absent {s : State} (absent : s.regs.loopOfs = 0xFFFFFFFF#32) (n : Nat) :
    resolveLoopRequest n s = .ok .absent :=
  if_pos ((loopOfs_toInt_eq_neg_one_iff _).2 absent)

/-- Past R201 the stream's loop flag decides (R202), and on a looping stream the value of the offset (R203, R204). -/
theorem resolveLoopRequest_requested {s : State} (requested : s.regs.loopOfs ≠ 0xFFFFFFFF#32) :
    resolveLoopRequest s.blocks s =
      if s.lastLoopFlag = false then .ok .dropped
      else if s.regs.loopOfs.toInt < 0 then .error ⟨.loopOffset, 1#8, s.regs.loopOfs⟩
      else if (s.inLen : Int) ≤ s.regs.loopOfs.toInt then .error ⟨.loopOffset, 2#8, s.regs.loopOfs⟩
      else if s.regs.loopOfs.toInt % 9 ≠ 0 then .error ⟨.loopOffset, 3#8, s.regs.loopOfs⟩
      else .ok (.loop (s.regs.loopOfs.toInt.toNat / 9)) :=
  if_neg (mt (loopOfs_toInt_eq_neg_one_iff _).1 requested)

/-- R202, before any check of the offset. -/
theorem resolveLoopRequest_dropped {s : State} (requested : s.regs.loopOfs ≠ 0xFFFFFFFF#32)
    (straight : s.lastLoopFlag = false) : resolveLoopRequest s.blocks s = .ok .dropped := by
  rw [resolveLoopRequest_requested requested, if_pos straight]

/-- Where no loop is requested, or the stream does not loop, no loop is analysed; W_LOOPDROP tells the two apart. -/
theorem resolveLoopRequest_noLoop {s : State} (noLoop : s.regs.loopOfs = 0xFFFFFFFF#32 ∨ s.lastLoopFlag = false) :
    ∃ req, resolveLoopRequest s.blocks s = .ok req ∧ (∀ b, req ≠ .loop b) ∧
      req.dropBit = if s.regs.loopOfs = 0xFFFFFFFF#32 then 0#5 else 0x10#5 := by
  rcases eq_or_ne s.regs.loopOfs 0xFFFFFFFF#32 with absent | requested
  · exact ⟨.absent, resolveLoopRequest_absent absent _, fun _ => nofun, (if_pos absent).symm⟩
  · exact ⟨.dropped, resolveLoopRequest_dropped requested (noLoop.resolve_left requested), fun _ => nofun,
      (if_neg requested).symm⟩

/-! ### What CONVERT leaves, from how it ends -/

/-- A CONVERT that fails leaves its error, its warnings and six results of 0 (R263, R303, R311). -/
theorem ConvertEnds.convertRaises {s : State} {warnings : BitVec 5} {e : Raise}
    (d : ConvertEnds s (.failed warnings e)) :
    convertRaises s (0x03#5 ||| warnings) (e.sub ++ e.kind.code) e.info := by
  intro g
  obtain ⟨t, run, leaves⟩ := execConvert_of_ends g d
  exact ⟨t, run, leaves.regs, (exec_command_frame (i := .convert g) rfl run).keepsBrr⟩

/-- A valid stream whose loop request is an error raises it with no warning, `word` being its SUB and CODE (R35). -/
theorem convertRaises_of_badRequest {s : State} {kind : ErrorKind} {sub : Byte} {info : Word} {word : BitVec 16}
    (valid : validStream s) (bad : resolveLoopRequest s.blocks s = .error ⟨kind, sub, info⟩)
    (hw : sub ++ kind.code = word) : convertRaises s 0x03#5 word info :=
  hw ▸ (ConvertEnds.badRequest _ ((validate_ok_iff s _).2 ⟨valid, rfl⟩) bad).convertRaises

/-! ### The statements -/

/-- Settles O42: the request is none or dropped (`resolveLoopRequest_noLoop`), so the CONVERT ends with `Ending.whole`. -/
theorem convertWithoutLoop : Obligations.ConvertWithoutLoop := by
  unfold Obligations.ConvertWithoutLoop
  intro s g valid room noLoop
  obtain ⟨req, request, notLoop, drop⟩ := resolveLoopRequest_noLoop noLoop
  obtain ⟨t, run, leaves⟩ := execConvert_of_ends g
    (.whole req ((validate_ok_iff s _).2 ⟨valid, rfl⟩) request notLoop room)
  have count : t.regs.sampleCount = resultWord (s.draw + 1) 0x0B (16 * s.blocks) := by rw [leaves.regs]; rfl
  refine ⟨t, run, ?_, fun fits => ?_, fun i inside => leaves.pcmRead ?_,
    (exec_command_frame (i := .convert g) rfl run).keepsBrr⟩
  · rw [count, ← drop]
    exact leaves.regs
  · rw [count, State.blocks, resultWord_fits fits, BitVec.toNat_ofNat, Nat.mod_eq_of_lt fits]
  · exact inside.trans_eq (initialStream_length s).symm

/-- Settles O43: each clause is one branch of `resolveLoopRequest_requested`, after those before it. -/
theorem loopOffsetErrorsRaise : Obligations.LoopOffsetErrorsRaise := by
  unfold Obligations.LoopOffsetErrorsRaise
  intro s valid looping requested
  have request := resolveLoopRequest_requested requested
  rw [if_neg (ne_false_of_eq_true looping)] at request
  refine ⟨fun negative => ?_, fun nonneg past => ?_, fun nonneg inside misaligned => ?_⟩
  · rw [if_pos negative] at request
    exact convertRaises_of_badRequest valid request rfl
  · rw [if_neg nonneg.not_gt, if_pos past] at request
    exact convertRaises_of_badRequest valid request rfl
  · rw [if_neg nonneg.not_gt, if_neg inside.not_ge, if_pos misaligned] at request
    exact convertRaises_of_badRequest valid request rfl

end Sys2Proof.Machine
end

section
/-! The host commands in general (spec/44_host_commands.md R260, R261, R266, R268): what a host write to a configuration
register and a write to CMD leave, and how every command ends. -/

namespace Sys2Proof.Machine

/-! ### Configuration registers (R268) -/

/-- The indices 0x04 to 0x09 one by one (R30). -/
theorem configIndex_cases {idx : BitVec 8} (lo : 0x04 ≤ idx.toNat) (hi : idx.toNat ≤ 0x09) :
    idx = 0x04#8 ∨ idx = 0x05#8 ∨ idx = 0x06#8 ∨ idx = 0x07#8 ∨ idx = 0x08#8 ∨ idx = 0x09#8 := by
  bv_omega

/-- A configuration register reads what the host wrote to it, BLK_CTRL its bit 0 (R47). -/
theorem Regs.read_write_config {idx : BitVec 8} (lo : 0x04 ≤ idx.toNat) (hi : idx.toNat ≤ 0x09) (v : Word) (r : Regs) :
    (Regs.write idx v r).read idx = if idx = 0x08#8 then v &&& 1#32 else v := by
  rcases configIndex_cases lo hi with rfl | rfl | rfl | rfl | rfl | rfl
  · rfl
  · rfl
  · rfl
  · rfl
  · exact BitVec.and_one_eq_setWidth_ofBool_getLsbD.symm
  · rfl

/-- The configuration registers other than HIST are as before. -/
structure SameSettings (r q : Regs) : Prop where
  inLen : q.inLen = r.inLen
  loopOfs : q.loopOfs = r.loopOfs
  rate : q.rate = r.rate
  blkOfs : q.blkOfs = r.blkOfs
  blkFirst : q.blkFirst = r.blkFirst

/-- Where the settings are the same, a configuration register that reads differently is HIST. -/
theorem SameSettings.hist_of_read_ne {r q : Regs} (same : SameSettings r q) {idx : BitVec 8} (lo : 0x04 ≤ idx.toNat)
    (hi : idx.toNat ≤ 0x09) (changed : q.read idx ≠ r.read idx) : idx = 0x09#8 ∧ q.hist ≠ r.hist := by
  rcases configIndex_cases lo hi with rfl | rfl | rfl | rfl | rfl | rfl
  · exact absurd same.inLen changed
  · exact absurd same.loopOfs changed
  · exact absurd same.rate changed
  · exact absurd same.blkOfs changed
  · exact absurd (congrArg (fun b => (BitVec.ofBool b).setWidth 32) same.blkFirst) changed
  · exact ⟨rfl, changed⟩

theorem CommandFrame.sameSettings {i : Instr} {s t : State} (f : CommandFrame i s t) : SameSettings s.regs t.regs :=
  ⟨f.inLen, f.loopOfs, f.rate, f.blkOfs, f.blkFirst⟩

/-- A command that changes HIST is DECODE_BLOCK. -/
theorem CommandFrame.decodeBlock_of_hist_ne {i : Instr} {s t : State} (f : CommandFrame i s t)
    (changed : t.regs.hist ≠ s.regs.hist) : ∃ g, i = .decodeBlock g := by
  by_contra other
  exact changed (f.hist fun g e => other ⟨g, e⟩)

/-- A host write to a register other than CMD stores the word and consumes the access, and does nothing else. -/
theorem step_regWrite {s : State} {rest : List HostOp} {idx : BitVec 8} {v : Word}
    (hh : s.host = .regWrite idx v :: rest) (notCmd : idx ≠ 0#8) :
    step s = .next { s with host := rest, regs := Regs.write idx v s.regs } := by
  simp only [step, hostStep, hh, hostAccess, if_neg notCmd, State.onRegs]

/-- No host write but one to CMD reaches STATUS (R32). -/
theorem Regs.write_status (idx : BitVec 8) (v : Word) (r : Regs) : (Regs.write idx v r).status = r.status := by
  unfold Regs.write
  cases regAt idx <;> rfl

/-! ### Writes to CMD (R260, R266) -/

/-- A command word decodes to a host command only. -/
theorem isCommand_of_decodeCommand {w : Word} {i : Instr} (h : decodeCommand w = .ok i) : isCommand i = true := by
  rcases decodeCommand_ok h with ⟨rfl, -⟩ | ⟨rfl, -⟩ | ⟨rfl, -⟩ | ⟨rfl, -⟩ <;> rfl

/-- The words that decode to DECODE_BLOCK (R111). -/
theorem word_of_decodeCommand_decodeBlock {w : Word} {g : BitVec 24} (h : decodeCommand w = .ok (.decodeBlock g)) :
    w = g ++ 0x03#8 := by
  rcases decodeCommand_ok h with ⟨e, -⟩ | ⟨e, -⟩ | ⟨e, code⟩ | ⟨e, -⟩ <;> cases e
  rw [← code, commandWord_parts]

/-- A code other than the four is rejected by name (R112). -/
theorem decodeCommand_illegal {w : Word} (h1 : commandCode w ≠ 0x01#8) (h2 : commandCode w ≠ 0x02#8)
    (h3 : commandCode w ≠ 0x03#8) (h4 : commandCode w ≠ 0x04#8) :
    decodeCommand w = .error (.illegalCommand (commandCode w)) := by
  rw [decodeCommand, if_neg h1, if_neg h2, if_neg h3, if_neg h4]

theorem step_illegalCommand {s : State} {rest : List HostOp} {w : Word} {err : DecodeError}
    (hh : s.host = .regWrite 0x00#8 w :: rest) (rejected : decodeCommand w = .error err) :
    step s = .next (illegalCommand w { s with host := rest }) := by
  simp only [step, hostStep, hh, hostAccess, if_true, runCommand, decode, rejected]

/-- What IllegalCommand leaves in the registers (R266). -/
theorem illegalCommand_regs (w : Word) (s : State) : (illegalCommand w s).regs =
    endedRegs w 0x03#5 0x0005#16 ((commandCode w).setWidth 32) s.regs := by
  have word : 0#8 ++ ErrorKind.illegalCommand.code = 0x0005#16 := rfl
  rw [← word]
  exact beginCommand_raise w ⟨.illegalCommand, 0#8, (commandCode w).setWidth 32⟩ s.regs

/-! ### How every command ends (R261) -/

/-- DONE is set, and ERR exactly when ERROR.CODE is not 0. -/
def Regs.ended (r : Regs) : Prop := r.flag .done = true ∧ (r.flag .err = true ↔ r.errorCode ≠ 0#8)

theorem exec_command_ended {i : Instr} {s t : State} (hi : isCommand i = true) (h : exec i s = .next t) :
    t.regs.ended :=
  have frame := exec_command_frame hi h
  ⟨frame.done, frame.err⟩

theorem illegalCommand_ended (w : Word) (s : State) : (illegalCommand w s).regs.ended := by
  rw [illegalCommand_regs]
  have done : (0x03#5).getLsbD Flag.done.bit = true := by decide
  have err : (0x03#5).getLsbD Flag.err.bit = true := by decide
  have code : (0x0005#16).extractLsb' 0 8 ≠ 0#8 := by decide
  exact ⟨done, iff_of_true err code⟩

/-- A write to CMD ends so whatever its code. -/
theorem step_cmdWrite_ended {s t : State} {w : Word} {rest : List HostOp} (hh : s.host = .regWrite 0x00#8 w :: rest)
    (h : step s = .next t) : t.regs.ended := by
  cases step_cases h with
  | command _ _ _ _ hd e => exact exec_command_ended (isCommand_of_decodeCommand hd) e
  | illegal _ _ _ _ _ e => rw [e]; exact illegalCommand_ended _ _
  | idle hn => cases hh.symm.trans hn
  | write _ _ _ hw notCmd => cases hh.symm.trans hw; exact absurd rfl notCmd
  | read _ _ _ hr notWrite => cases hh.symm.trans hr; exact absurd rfl (notWrite _ _)
  | load _ _ _ hl => cases hh.symm.trans hl
  | reset _ hr => cases hh.symm.trans hr

/-! ### The statements -/

/-- Settles O20: `step_cmdWrite_ended` for the commands and the illegal codes; no other access but a reset reaches
STATUS. -/
theorem commandsEndDone : Obligations.CommandsEndDone := by
  unfold Obligations.CommandsEndDone
  refine ⟨fun _ _ _ => exec_command_ended, fun _ _ _ _ => step_cmdWrite_ended, fun s t h done fell => ?_⟩
  have changed : t.regs.status ≠ s.regs.status := fun e => by
    rw [Regs.flag, e] at fell
    cases done.symm.trans fell
  cases step_cases h with
  | reset rest hr => exact ⟨rest, hr⟩
  | command _ _ _ hc | illegal _ _ _ hc => cases (step_cmdWrite_ended hc h).1.symm.trans fell
  | write idx v _ _ _ e => rw [e] at changed; exact absurd (Regs.write_status idx v s.regs) changed
  | idle _ e | read _ _ _ _ _ _ _ e | load _ _ _ _ _ e => rw [e] at changed; exact absurd rfl changed

/-- Settles O19: the word is rejected (`decodeCommand_illegal`), and `illegalCommand` touches the registers alone. -/
theorem illegalCommandRaises : Obligations.IllegalCommandRaises := by
  unfold Obligations.IllegalCommandRaises
  intro s g code rest hh h1 h2 h3 h4
  have rejected := decodeCommand_illegal (w := g ++ code)
  rw [commandCode_append] at rejected
  have regs := illegalCommand_regs (g ++ code) { s with host := rest }
  rw [commandCode_append] at regs
  exact ⟨_, step_illegalCommand hh (rejected h1 h2 h3 h4), regs, ⟨fun _ => rfl, fun _ => rfl⟩, rfl, rfl, rfl⟩

/-- Settles O9: a host write is `step_regWrite`, what a command leaves is its frame, and a step that changes a
configuration register is one of the cases of `step_cases`. -/
theorem configurationRegistersKeepWrites : Obligations.ConfigurationRegistersKeepWrites := by
  unfold Obligations.ConfigurationRegistersKeepWrites
  refine ⟨fun s rest idx v lo hi hh => ?_, fun s t i hi h => ?_, fun s t idx lo hi h changed => ?_⟩
  · have notCmd : idx ≠ 0#8 := by rintro rfl; exact absurd lo (by decide)
    exact ⟨_, step_regWrite hh notCmd, Regs.read_write_config lo hi v s.regs,
      fun k ne => Regs.read_write_ne ne v s.regs, ⟨fun _ => rfl, fun _ => rfl⟩, rfl, rfl, rfl⟩
  · obtain ⟨inLen, loopOfs, rate, blkOfs, blkFirst, hist, -⟩ := exec_command_frame hi h
    exact ⟨inLen, loopOfs, rate, blkOfs, blkFirst, hist⟩
  · cases step_cases h with
    | write k v rest hw _ e =>
      have same : idx = k := by
        by_contra ne
        rw [e] at changed
        exact changed (Regs.read_write_ne ne v s.regs)
      exact .inl ⟨v, rest, by rw [same]; exact hw⟩
    | command w rest i hc hd e =>
      have frame := exec_command_frame (isCommand_of_decodeCommand hd) e
      obtain ⟨isHist, histChanged⟩ := frame.sameSettings.hist_of_read_ne lo hi changed
      obtain ⟨g, rfl⟩ := frame.decodeBlock_of_hist_ne histChanged
      exact .inr (.inl ⟨isHist, g, rest, by rw [hc, word_of_decodeCommand_decodeBlock hd]⟩)
    | illegal w rest _ _ _ e =>
      have same : SameSettings s.regs t.regs := by rw [e, illegalCommand_regs]; exact ⟨rfl, rfl, rfl, rfl, rfl⟩
      have hist : t.regs.hist = s.regs.hist := by rw [e, illegalCommand_regs]; rfl
      exact absurd hist (same.hist_of_read_ne lo hi changed).2
    | reset rest hr => exact .inr (.inr ⟨rest, hr⟩)
    | idle _ e | read _ _ _ _ _ _ _ e | load _ _ _ _ _ e => rw [e] at changed; exact absurd rfl changed

end Sys2Proof.Machine
end

section
/-! The core between commands (spec/60_exceptions.md R318). -/

namespace Sys2Proof.Machine

/-- The core acts on an access of the host only. -/
theorem step_idle {s : State} (idle : s.host = []) : step s = .next s := by
  simp only [step, hostStep, idle]

/-- Settles O11: the whole statement is the idle branch of the step, `step_idle`. -/
theorem idleCoreDoesNothing : Obligations.IdleCoreDoesNothing := by
  unfold Obligations.IdleCoreDoesNothing
  exact fun _ => step_idle

end Sys2Proof.Machine
end

section
/-! Decoding and encoding are inverse to each other (spec/30_encoding.md R101 to R112). -/

namespace Sys2Proof.Machine

/-! ### Blocks (R101 to R110) -/

/-- The encoding of a block instruction is the header with its filter field, and its payload (R115). -/
theorem encode_blockInstr (f : BitVec 2) (shift : BitVec 4) (loop last : Bool) (ns : List Nibble) :
    encode (blockInstr f shift loop last ns) = encodeBlock shift f loop last ns := by
  rcases filter_cases f with rfl | rfl | rfl | rfl <;> rfl

theorem wellFormed_blockInstr (f : BitVec 2) (shift : BitVec 4) (loop last : Bool) (ns : List Nibble) :
    (blockInstr f shift loop last ns).wellFormed = (ns.length == Config.samplesPerBlock) := by
  rcases filter_cases f with rfl | rfl | rfl | rfl <;> rfl

/-- An encoded block of 16 nibbles decodes to its instruction. -/
theorem decode_encodeBlock (f : BitVec 2) (shift : BitVec 4) (loop last : Bool) {ns : List Nibble}
    (sixteen : ns.length = 16) : decode (encodeBlock shift f loop last ns) = .ok (blockInstr f shift loop last ns) := by
  obtain ⟨nibbles, eight⟩ := payloadNibbles_payloadBytes 8 ns sixteen
  rw [encodeBlock, decode_block_of_filter eight (headerFilter_headerByte shift f loop last), nibbles]
  simp only [headerShift_headerByte, headerLoop_headerByte, headerEnd_headerByte]

/-- What the decoder reads from bytes: a header, eight payload bytes, and the instruction of its fields (R109, R110). -/
theorem decode_block_ok {bytes : List Byte} {i : Instr} (h : decode (.block bytes) = .ok i) :
    ∃ header payload, bytes = header :: payload ∧ payload.length = 8 ∧
      i = blockInstr (headerFilter header) (headerShift header) (headerLoop header) (headerEnd header)
        (payloadNibbles payload) := by
  cases bytes with
  | nil => cases h
  | cons header payload =>
    by_cases eight : payload.length = 8
    · rw [decode_block_of_filter eight rfl] at h
      cases h
      exact ⟨header, payload, rfl, eight, rfl⟩
    · cases h.symm.trans (if_neg eight)

/-- Bytes that are not nine are no block (R110). -/
theorem decode_block_length {bytes : List Byte} (h : bytes.length ≠ 9) :
    decode (.block bytes) = .error (.blockLength bytes.length) := by
  cases bytes with
  | nil => rfl
  | cons header payload => exact if_neg fun eight => h (congrArg (· + 1) eight)

/-! ### Command words (R111, R112) -/

/-- The four codes of R111, each with the bits above it carried along. -/
theorem decodeCommand_append (g : BitVec 24) :
    decodeCommand (g ++ 0x01#8) = .ok (.validate g) ∧ decodeCommand (g ++ 0x02#8) = .ok (.convert g) ∧
    decodeCommand (g ++ 0x03#8) = .ok (.decodeBlock g) ∧ decodeCommand (g ++ 0x04#8) = .ok (.encodeRate g) := by
  simp [decodeCommand]

/-- A command word that decodes is the encoding of what it decodes to. -/
theorem encode_of_decodeCommand {w : Word} {i : Instr} (h : decodeCommand w = .ok i) : encode i = .command w := by
  have parts := commandWord_parts w
  rcases decodeCommand_ok h with ⟨rfl, code⟩ | ⟨rfl, code⟩ | ⟨rfl, code⟩ | ⟨rfl, code⟩ <;>
    · rw [code] at parts
      exact congrArg Code.command parts

/-- Every command is well formed (R101 is about blocks). -/
theorem wellFormed_of_isCommand {i : Instr} (h : isCommand i = true) : i.wellFormed = true := by
  cases i with
  | validate | convert | decodeBlock | encodeRate => rfl
  | brrF0 | brrF1 | brrF2 | brrF3 => cases h

/-! ### The statements -/

/-- Settles O1: `decode_encodeBlock` for the block instructions, `decodeCommand_append` for the commands. -/
theorem decodeInvertsEncode : Obligations.DecodeInvertsEncode := by
  unfold Obligations.DecodeInvertsEncode
  intro i wf
  cases i with
  | brrF0 shift loop last ns => exact decode_encodeBlock 0#2 shift loop last (beq_iff_eq.1 wf)
  | brrF1 shift loop last ns => exact decode_encodeBlock 1#2 shift loop last (beq_iff_eq.1 wf)
  | brrF2 shift loop last ns => exact decode_encodeBlock 2#2 shift loop last (beq_iff_eq.1 wf)
  | brrF3 shift loop last ns => exact decode_encodeBlock 3#2 shift loop last (beq_iff_eq.1 wf)
  | validate g => obtain ⟨validate, -, -, -⟩ := decodeCommand_append g; exact validate
  | convert g => obtain ⟨-, convert, -, -⟩ := decodeCommand_append g; exact convert
  | decodeBlock g => obtain ⟨-, -, decodeBlock, -⟩ := decodeCommand_append g; exact decodeBlock
  | encodeRate g => obtain ⟨-, -, -, encodeRate⟩ := decodeCommand_append g; exact encodeRate

/-- Settles O2: a decoded block is its header's fields and its payload's nibbles (`decode_block_ok`), which encode to
the same bytes; a decoded command is `encode_of_decodeCommand`. -/
theorem encodeInvertsDecode : Obligations.EncodeInvertsDecode := by
  unfold Obligations.EncodeInvertsDecode
  intro c i h
  cases c with
  | command w => exact ⟨encode_of_decodeCommand h, wellFormed_of_isCommand (isCommand_of_decodeCommand h)⟩
  | block bytes =>
    obtain ⟨header, payload, rfl, eight, rfl⟩ := decode_block_ok h
    rw [encode_blockInstr, wellFormed_blockInstr, encodeBlock, headerByte_fields, payloadBytes_payloadNibbles,
      payloadNibbles_length, eight]
    exact ⟨rfl, rfl⟩

/-- Settles O4: `decode_block_length`, `decodeCommand_append` and `decodeCommand_illegal`. -/
theorem otherWordsRejected : Obligations.OtherWordsRejected := by
  unfold Obligations.OtherWordsRejected
  refine ⟨fun _ => decode_block_length, decodeCommand_append, fun g code h1 h2 h3 h4 => ?_⟩
  have rejected := decodeCommand_illegal (w := g ++ code)
  rw [commandCode_append] at rejected
  exact rejected h1 h2 h3 h4

/-- Settles O5: four words, decoded. -/
theorem writtenOutWordsDecode : Obligations.WrittenOutWordsDecode := by
  unfold Obligations.WrittenOutWordsDecode
  exact ⟨rfl, rfl, rfl, rfl⟩

end Sys2Proof.Machine
end

section
/-! How commands end (spec/44_host_commands.md R260 to R267, spec/60_exceptions.md R301 to R305): that they complete,
the errors each can raise, and what a write to CMD leaves in the command registers. -/

namespace Sys2Proof.Machine

/-! ### The errors of each command (R301, R302) -/

/-- What the validator raises, as ERROR holds it (R141 to R148). -/
def validatorErrors : List (BitVec 16) := [0x0106#16, 0x0101#16, 0x0201#16, 0x0301#16, 0x0401#16]

/-- What a loop request raises (R203). -/
def requestErrors : List (BitVec 16) := [0x0104#16, 0x0204#16, 0x0304#16]

/-- What the passes and the rounds of CONVERT raise (R211, R213, R263). -/
def streamErrors : List (BitVec 16) := [0x0103#16, 0x0203#16, 0x0002#16]

/-- What CONVERT raises. -/
def convertErrors : List (BitVec 16) := validatorErrors ++ requestErrors ++ streamErrors

/-- What each command raises (R262 to R265). -/
def commandErrors : Instr → List (BitVec 16)
  | .validate _ => validatorErrors
  | .convert _ => convertErrors
  | .decodeBlock _ => [0x0106#16, 0x0206#16]
  | .encodeRate _ => []
  | .brrF0 _ _ _ _ => []
  | .brrF1 _ _ _ _ => []
  | .brrF2 _ _ _ _ => []
  | .brrF3 _ _ _ _ => []

/-- Every error of a command is one R302 lists. -/
theorem commandErrors_listed (i : Instr) : ∀ word ∈ commandErrors i, word ∈ errorWords := by
  cases i <;> simp [commandErrors, convertErrors, validatorErrors, requestErrors, streamErrors, errorWords]

theorem validate_error_word {s : State} {e : Raise} (h : validate s = .error e) :
    e.sub ++ e.kind.code ∈ validatorErrors := by
  rcases validate_error h with ⟨kind, sub⟩ | ⟨kind, sub | sub | sub | sub⟩ <;> rw [kind, sub] <;> decide

theorem resolveLoopRequest_error_word {s : State} {n : Nat} {e : Raise} (h : resolveLoopRequest n s = .error e) :
    e.sub ++ e.kind.code ∈ requestErrors := by
  obtain ⟨kind, sub | sub | sub, -⟩ := resolveLoopRequest_error h <;> rw [kind, sub] <;> decide

/-- What an ending's error registers say: an error of CONVERT, with 64 as the detail of a convergence failure (R302), or
none. -/
def Ending.RaisedOrClear (x : Ending) : Prop :=
  (x.status.getLsbD 1 = true ∧ x.error ∈ convertErrors ∧ (x.error = 0x0002#16 → x.info = 64#32)) ∨
    (x.status.getLsbD 1 = false ∧ x.error = 0#16 ∧ x.info = 0#32)

theorem Ending.failed_raised {kind : ErrorKind} {sub : Byte} {info : Word} {word : BitVec 16}
    (hw : sub ++ kind.code = word) (listed : word ∈ convertErrors) (detail : word = 0x0002#16 → info = 64#32)
    (warnings : BitVec 5) : (Ending.failed warnings ⟨kind, sub, info⟩).RaisedOrClear := by
  subst hw
  exact .inl ⟨by simp [Ending.failed], listed, detail⟩

theorem ConvertEnds.raised_or_clear {s : State} {x : Ending} (h : ConvertEnds s x) : x.RaisedOrClear := by
  have first : s.firstHdrBit[1] = false := s.firstHdrBit_low.2.1
  cases h with
  | invalid e v =>
    have word := validate_error_word v
    exact Ending.failed_raised rfl (List.mem_append_left _ (List.mem_append_left _ word))
      (fun two => absurd (two ▸ word) (by decide)) _
  | badRequest e v q =>
    have word := resolveLoopRequest_error_word q
    exact Ending.failed_raised rfl (List.mem_append_left _ (List.mem_append_right _ word))
      (fun two => absurd (two ▸ word) (by decide)) _
  | noRoom =>
    exact Ending.failed_raised (word := 0x0103#16) rfl (by decide) (fun two => absurd two (by decide)) _
  | outgrown =>
    exact Ending.failed_raised (word := 0x0203#16) rfl (by decide) (fun two => absurd two (by decide)) _
  | exhausted => exact Ending.failed_raised (word := 0x0002#16) rfl (by decide) (fun _ => rfl) _
  | whole req v q noLoop room =>
    have drop : req.dropBit[1] = false := req.dropBit_low.2.1
    exact .inr ⟨by simp [Ending.whole, first, drop], rfl, rfl⟩
  | resolved b r k v q room ends => exact .inr ⟨by simp [Ending.looped, first], rfl, rfl⟩

/-! ### The command registers after a command -/

/-- The registers `r` after a write of `w` to CMD whose command can raise `errors`: an error is one of them and leaves
LOOPED 0, and without one ERROR and ERRINFO are 0 (R33, R35, R36, R303). -/
structure Regs.EndedAs (errors : List (BitVec 16)) (w : Word) (r : Regs) : Prop where
  cmd : r.cmd = w
  done : r.flag .done = true
  raised : r.flag .err = true → r.error ∈ errors ∧ r.flag .looped = false
  clear : r.flag .err = false → r.error = 0#16 ∧ r.errInfo = 0#32

theorem Regs.endedAs_of_raised {q r : Regs} {w info : Word} {word : BitVec 16} (hq : q = endedRegs w 0x03#5 word info r)
    {errors : List (BitVec 16)} (listed : word ∈ errors) : q.EndedAs errors w := by
  subst hq
  have done : (0x03#5).getLsbD Flag.done.bit = true := by decide
  have err : (0x03#5).getLsbD Flag.err.bit = true := by decide
  have looped : (0x03#5).getLsbD Flag.looped.bit = false := by decide
  exact ⟨rfl, done, fun _ => ⟨listed, looped⟩, fun clear => absurd (err.symm.trans clear) (by decide)⟩

theorem Regs.endedAs_of_clear {q r : Regs} {w : Word} {status : BitVec 5} (hq : q = endedRegs w status 0#16 0#32 r)
    (done : status.getLsbD 0 = true) (clear : status.getLsbD 1 = false) (errors : List (BitVec 16)) :
    q.EndedAs errors w := by
  subst hq
  exact ⟨rfl, done, fun err => absurd (clear.symm.trans err) (by decide), fun _ => ⟨rfl, rfl⟩⟩

/-- What DECODE_BLOCK of a block inside the input leaves in the registers (R264). -/
theorem decodeBlock_regs (g : BitVec 24) (warn : Bool) (outBlk : Vector Sample 16) (hist : Word) (r : Regs) :
    Regs.setFlag .done { (r.beginCommand (commandWord g 3#8)).setFlagIf .firstHdr warn with
      outBlk := outBlk, hist := hist } =
    endedRegs (g ++ 0x03#8) (if warn then 0x09#5 else 0x01#5) 0#16 0#32 { r with outBlk := outBlk, hist := hist } := by
  cases warn <;> simp [Regs.setFlag, Flag.mask_eq, endedRegs, Regs.beginCommand, commandWord]

/-- Every command leaves the command registers so (R260, R261, R303). -/
theorem exec_command_endedAs {w : Word} {i : Instr} {s t : State} (hw : encode i = .command w)
    (h : exec i s = .next t) : t.regs.EndedAs (commandErrors i) w := by
  cases i with
  | brrF0 | brrF1 | brrF2 | brrF3 => cases hw
  | validate g =>
    cases hw
    rcases exec_validate_cases h with ⟨e, raised, rfl⟩ | ⟨-, rfl⟩
    · exact Regs.endedAs_of_raised (beginCommand_raise (g ++ 0x01#8) e { s.regs with blockCount := 0#32 })
        (validate_error_word raised)
    · exact Regs.endedAs_of_clear
        (beginCommand_finish (g ++ 0x01#8) { s.regs with blockCount := BitVec.ofNat 32 s.blocks })
        (by decide) (by decide) _
  | convert g =>
    cases hw
    obtain ⟨e, ends, leaves⟩ := exec_convert_cases h
    have sound := ends.sound
    rw [leaves.regs]
    refine ⟨rfl, sound.done, fun raised => ?_, fun (clear : _ = _) => ?_⟩
    · rcases ends.raised_or_clear with ⟨-, listed, -⟩ | ⟨clear, -⟩
      · exact ⟨listed, sound.not_looped raised⟩
      · cases clear.symm.trans raised
    · rcases ends.raised_or_clear with ⟨raised, -⟩ | ⟨-, none⟩
      · cases clear.symm.trans raised
      · exact none
  | decodeBlock g =>
    cases hw
    rcases exec_decodeBlock_cases h with ⟨-, rfl⟩ | ⟨-, rfl⟩ | rfl
    · exact Regs.endedAs_of_raised (beginCommand_raise (g ++ 0x03#8) ⟨.address, 1#8, s.regs.inLen⟩ s.regs)
        (show 1#8 ++ ErrorKind.address.code ∈ [0x0106#16, 0x0206#16] by decide)
    · exact Regs.endedAs_of_raised (beginCommand_raise (g ++ 0x03#8) ⟨.address, 2#8, s.regs.blkOfs⟩ s.regs)
        (show 2#8 ++ ErrorKind.address.code ∈ [0x0106#16, 0x0206#16] by decide)
    · exact Regs.endedAs_of_clear (decodeBlock_regs g s.blockAtOffset.warnFirst ..) (by split <;> decide)
        (by split <;> decide) _
  | encodeRate g =>
    cases hw
    obtain rfl := exec_encodeRate_cases h
    exact Regs.endedAs_of_clear
      (beginCommand_finish (g ++ 0x04#8) { s.regs with ext80 := encodeRate s.regs.rate }) (by decide) (by decide) _

/-- ERROR after a command is 0 or one of the command's errors. -/
theorem Regs.EndedAs.error_mem {errors : List (BitVec 16)} {w : Word} {r : Regs} (e : r.EndedAs errors w) :
    r.error ∈ 0x0000#16 :: errors := by
  cases err : r.flag .err with
  | true => exact List.mem_cons_of_mem _ (e.raised err).1
  | false => rw [(e.clear err).1]; exact List.mem_cons_self

/-! ### Writes to CMD -/

/-- A step carries out the next access, which is then off the list. -/
theorem step_access {s : State} {op : HostOp} {rest : List HostOp} (hh : s.host = op :: rest) :
    step s = hostAccess op { s with host := rest } := by
  simp only [step, hostStep, hh]

/-- A step that writes CMD runs that word. -/
theorem step_cmdWrite {s : State} {w : Word} {rest : List HostOp} (hh : s.host = .regWrite 0x00#8 w :: rest) :
    step s = runCommand w { s with host := rest } := by
  rw [step_access hh, hostAccess, if_pos rfl]

theorem runCommand_ok {w : Word} {i : Instr} (hd : decodeCommand w = .ok i) (s : State) :
    runCommand w s = exec i s := by
  simp only [runCommand, decode, hd]

/-- A write to CMD leaves the word in CMD, whatever command it starts. -/
theorem step_cmdWrite_cmd {s t : State} {w : Word} {rest : List HostOp} (hh : s.host = .regWrite 0x00#8 w :: rest)
    (h : step s = .next t) : t.regs.cmd = w := by
  cases hd : decodeCommand w with
  | ok i =>
    rw [step_cmdWrite hh, runCommand_ok hd] at h
    exact (exec_command_endedAs (encode_of_decodeCommand hd) h).cmd
  | error err =>
    rw [step_illegalCommand hh hd] at h
    cases h
    rw [illegalCommand_regs]
    rfl

/-- No host write but one to CMD reaches CMD. -/
theorem Regs.write_cmd (idx : BitVec 8) (v : Word) (r : Regs) : (Regs.write idx v r).cmd = r.cmd := by
  unfold Regs.write
  cases regAt idx <;> rfl

/-! ### The statements -/

/-- Settles O16: the step is the command's (`step_cmdWrite`), which is the decoded instruction's (`runCommand_ok`). -/
theorem stepRunsDecodedCommand : Obligations.StepRunsDecodedCommand := by
  unfold Obligations.StepRunsDecodedCommand
  intro s w rest i hh hd
  rw [step_cmdWrite hh, runCommand_ok hd]

/-- Settles O10: `step_cmdWrite_cmd`, and of the other accesses only a reset reaches CMD. -/
theorem cmdHoldsLastWrite : Obligations.CmdHoldsLastWrite := by
  unfold Obligations.CmdHoldsLastWrite
  refine ⟨fun s t w rest => step_cmdWrite_cmd, fun s t h changed => ?_⟩
  cases step_cases h with
  | command w rest _ hc | illegal w rest _ hc => exact .inl ⟨w, rest, hc⟩
  | reset rest hr e => exact .inr ⟨rest, hr, by rw [e]; rfl⟩
  | write idx v _ _ _ e => rw [e] at changed; exact absurd (Regs.write_cmd idx v s.regs) changed
  | idle _ e | read _ _ _ _ _ _ _ e | load _ _ _ _ _ e => rw [e] at changed; exact absurd rfl changed

/-- Settles O21: VALIDATE by the validator's two answers, CONVERT by `execConvert_next`, DECODE_BLOCK by its two checks;
ENCODE_RATE has no other answer. -/
theorem everyCommandCompletes : Obligations.EveryCommandCompletes := by
  unfold Obligations.EveryCommandCompletes
  intro s i hi
  cases i with
  | brrF0 | brrF1 | brrF2 | brrF3 => cases hi
  | validate g =>
    cases hv : validate s with
    | error e => exact ⟨_, execValidate_error g hv⟩
    | ok n => exact ⟨_, execValidate_ok g hv⟩
  | convert g =>
    obtain ⟨c, run, -⟩ := execConvert_next g s
    exact ⟨_, run⟩
  | decodeBlock g =>
    by_cases oversized : s.cap.brrCap < s.inLen
    · exact ⟨_, execDecodeBlock_oversized g s oversized⟩
    by_cases outside : s.inLen < s.regs.blkOfs.toNat + 9
    · exact ⟨_, execDecodeBlock_outside g s (Nat.le_of_not_lt oversized) outside⟩
    · exact ⟨_, execDecodeBlock_inside g s (Nat.le_of_not_lt oversized) (Nat.le_of_not_lt outside)⟩
  | encodeRate g => exact ⟨_, rfl⟩

/-- Settles O22: `exec_command_endedAs` gives each command's errors; a convergence failure is one ending of CONVERT
(`ConvertEnds.raised_or_clear`). -/
theorem raisedErrorsAreListed : Obligations.RaisedErrorsAreListed := by
  unfold Obligations.RaisedErrorsAreListed
  intro s t g
  refine ⟨fun h => ?_, fun h => ⟨?_, fun convergence => ?_⟩, fun h => ?_, fun h => ?_⟩
  · exact (exec_command_endedAs (i := .validate g) rfl h).error_mem
  · exact (exec_command_endedAs (i := .convert g) rfl h).error_mem
  · obtain ⟨e, ends, leaves⟩ := exec_convert_cases h
    rw [leaves.regs] at convergence ⊢
    rcases ends.raised_or_clear with ⟨-, -, detail⟩ | ⟨-, none, -⟩
    · exact detail convergence
    · exact absurd (none.symm.trans convergence) (by decide)
  · exact (exec_command_endedAs (i := .decodeBlock g) rfl h).error_mem
  · exact List.mem_singleton.1 (exec_command_endedAs (i := .encodeRate g) rfl h).error_mem

end Sys2Proof.Machine
end

section
/-! The invariant of the machine, and who writes the result registers and the PCM memory (spec/10_state.md R32 to R51,
spec/20_memory.md R70, R77). -/

namespace Sys2Proof.Machine

/-! ### The two parts of the invariant -/

/-- The part of the invariant about the parameters and the memories. -/
structure State.MemoriesFit (s : State) : Prop where
  capacity : s.cap.ok = true
  brr_wf : Memory.wf s.brr = true
  brr_size : Memory.below s.cap.brrCap s.brr = true
  pcm_wf : Memory.wf s.pcm = true
  pcm_size : Memory.below (2 * s.cap.pcmCap) s.pcm = true

/-- The part of the invariant about the registers. -/
structure Regs.Consistent (r : Regs) : Prop where
  err_listed : r.flag .err = true → r.error ∈ errorWords
  no_err : r.flag .err = false → r.error = 0#16 ∧ r.errInfo = 0#32
  err_not_looped : r.flag .err = true → r.flag .looped = false
  done_first : r.flag .done = false → r.status = 0#5
  rounds_bound : r.rounds.toNat ≤ 64
  ext80_sign : r.ext80.msb = false

/-- The memories and the parameters alone decide it. -/
theorem State.MemoriesFit.congr {s t : State} (fit : s.MemoriesFit) (cap : t.cap = s.cap) (brr : t.brr = s.brr)
    (pcm : t.pcm = s.pcm) : t.MemoriesFit := by
  obtain ⟨capacity, brrWf, brrSize, pcmWf, pcmSize⟩ := fit
  rw [← cap] at capacity brrSize pcmSize
  rw [← brr] at brrWf brrSize
  rw [← pcm] at pcmWf pcmSize
  exact ⟨capacity, brrWf, brrSize, pcmWf, pcmSize⟩

theorem State.inv_iff (s : State) : s.Inv ↔ s.MemoriesFit ∧ s.regs.Consistent := by
  constructor
  · rintro ⟨cap, brrWf, brrSize, pcmWf, pcmSize, listed, noErr, notLooped, done, rounds, sign⟩
    exact ⟨⟨cap, brrWf, brrSize, pcmWf, pcmSize⟩, listed, noErr, notLooped, done, rounds, sign⟩
  · rintro ⟨⟨cap, brrWf, brrSize, pcmWf, pcmSize⟩, listed, noErr, notLooped, done, rounds, sign⟩
    exact ⟨cap, brrWf, brrSize, pcmWf, pcmSize, listed, noErr, notLooped, done, rounds, sign⟩

/-! ### The registers -/

theorem Regs.reset_consistent : Regs.reset.Consistent := by
  constructor <;> decide

/-- A host write to a register other than CMD reaches none the invariant speaks of (R32). -/
theorem Regs.Consistent.write {r : Regs} (c : r.Consistent) (idx : BitVec 8) (v : Word) :
    (Regs.write idx v r).Consistent := by
  obtain ⟨listed, noErr, notLooped, done, rounds, sign⟩ := c
  unfold Regs.write
  cases regAt idx <;> exact ⟨listed, noErr, notLooped, done, rounds, sign⟩

/-- The registers a command leaves are consistent, its errors being listed ones. -/
theorem Regs.EndedAs.consistent {errors : List (BitVec 16)} {w : Word} {r : Regs} (e : r.EndedAs errors w)
    (listed : ∀ word ∈ errors, word ∈ errorWords) (rounds : r.rounds.toNat ≤ 64) (sign : r.ext80.msb = false) :
    r.Consistent where
  err_listed err := listed _ (e.raised err).1
  no_err := e.clear
  err_not_looped err := (e.raised err).2
  done_first clear := absurd (e.done.symm.trans clear) (by decide)
  rounds_bound := rounds
  ext80_sign := sign

/-- Only CONVERT writes ROUNDS, and no more than 64 (R45). -/
theorem exec_command_rounds {i : Instr} {s t : State} (hi : isCommand i = true) (h : exec i s = .next t)
    (bound : s.regs.rounds.toNat ≤ 64) : t.regs.rounds.toNat ≤ 64 := by
  cases i with
  | brrF0 | brrF1 | brrF2 | brrF3 => cases hi
  | validate g =>
    rcases exec_validate_cases h with ⟨e, -, rfl⟩ | ⟨-, rfl⟩
    · exact bound
    · exact bound
  | convert g =>
    obtain ⟨e, ends, leaves⟩ := exec_convert_cases h
    have := ends.sound.rounds
    rw [leaves.regs]
    show (BitVec.ofNat 32 e.rounds).toNat ≤ 64
    rw [BitVec.toNat_ofNat, Nat.mod_eq_of_lt (by omega)]
    exact this
  | decodeBlock g =>
    rcases exec_decodeBlock_cases h with ⟨-, rfl⟩ | ⟨-, rfl⟩ | rfl
    · exact bound
    · exact bound
    · simpa using bound
  | encodeRate g =>
    obtain rfl := exec_encodeRate_cases h
    exact bound

/-- Only ENCODE_RATE writes EXT80, and a float of sign 0 (R244). -/
theorem exec_command_ext80_sign {i : Instr} {s t : State} (hi : isCommand i = true) (h : exec i s = .next t)
    (sign : s.regs.ext80.msb = false) : t.regs.ext80.msb = false := by
  by_cases rate : ∃ g, i = .encodeRate g
  · obtain ⟨g, rfl⟩ := rate
    obtain rfl := exec_encodeRate_cases h
    exact encodeRate_sign s.regs.rate
  · rw [(exec_command_frame hi h).ext80 fun g e => rate ⟨g, e⟩]
    exact sign

/-! ### The memories -/

/-- A command keeps the memories in form: only CONVERT writes one, its stream into an empty PCM memory (R77). -/
theorem exec_command_memoriesFit {i : Instr} {s t : State} (hi : isCommand i = true) (h : exec i s = .next t)
    (fit : s.MemoriesFit) : t.MemoriesFit := by
  have frame := exec_command_frame hi h
  by_cases conv : ∃ g, i = .convert g
  · obtain ⟨g, rfl⟩ := conv
    obtain ⟨e, ends, leaves⟩ := exec_convert_cases h
    have stored : State.MemoriesFit { s with pcm := t.pcm } := by
      rw [leaves.pcm]
      exact ⟨fit.capacity, fit.brr_wf, fit.brr_size, storeSamples_wf 0 e.stream rfl,
        storeSamples_below 0 e.stream rfl (by simpa using ends.sound.fits)⟩
    exact stored.congr frame.cap frame.brr rfl
  · exact fit.congr frame.cap frame.brr (frame.pcm fun g e => conv ⟨g, e⟩).1

/-- A command keeps the invariant. -/
theorem exec_command_inv {w : Word} {i : Instr} {s t : State} (hd : decodeCommand w = .ok i) (h : exec i s = .next t)
    (inv : s.Inv) : t.Inv := by
  obtain ⟨fit, consistent⟩ := s.inv_iff.1 inv
  have hi := isCommand_of_decodeCommand hd
  have ended := exec_command_endedAs (encode_of_decodeCommand hd) h
  exact t.inv_iff.2 ⟨exec_command_memoriesFit hi h fit, ended.consistent (commandErrors_listed i)
    (exec_command_rounds hi h consistent.rounds_bound) (exec_command_ext80_sign hi h consistent.ext80_sign)⟩

/-- So does a write of an illegal code, whose error is listed (R266, R302). -/
theorem illegalCommand_inv (w : Word) {s : State} (inv : s.Inv) : (illegalCommand w s).Inv := by
  obtain ⟨fit, consistent⟩ := s.inv_iff.1 inv
  have ended := Regs.endedAs_of_raised (illegalCommand_regs w s) (List.mem_singleton_self 0x0005#16)
  exact (State.inv_iff _).2 ⟨fit.congr rfl rfl rfl,
    ended.consistent (by simp [errorWords]) consistent.rounds_bound consistent.ext80_sign⟩

/-! ### Who writes the results (R32, R49, R51, R77) -/

/-- The PCM memory, OUT_BLK and EXT80 are as before. -/
structure ResultsKept (s t : State) : Prop where
  pcm : t.pcm = s.pcm ∧ t.draw = s.draw
  outBlk : t.regs.outBlk = s.regs.outBlk
  ext80 : t.regs.ext80 = s.regs.ext80

/-- No host write but one to CMD reaches a result register (R32). -/
theorem Regs.write_results (idx : BitVec 8) (v : Word) (r : Regs) :
    (Regs.write idx v r).outBlk = r.outBlk ∧ (Regs.write idx v r).ext80 = r.ext80 := by
  unfold Regs.write
  cases regAt idx <;> exact ⟨rfl, rfl⟩

/-- A step keeps the results, or is a command, or is a reset, which keeps the PCM memory (R332). -/
theorem step_results {s t : State} (h : step s = .next t) :
    ResultsKept s t ∨
    (∃ w rest i, s.host = .regWrite 0x00#8 w :: rest ∧ decodeCommand w = .ok i ∧
      CommandFrame i { s with host := rest } t) ∨
    ∃ rest, s.host = .reset :: rest ∧ t.pcm = s.pcm ∧ t.draw = s.draw := by
  cases step_cases h with
  | command w rest i hh hd e =>
    exact .inr (.inl ⟨w, rest, i, hh, hd, exec_command_frame (isCommand_of_decodeCommand hd) e⟩)
  | reset rest hh e => exact .inr (.inr ⟨rest, hh, by rw [e]; exact ⟨rfl, rfl⟩⟩)
  | write idx v _ _ _ e =>
    obtain ⟨outBlk, ext80⟩ := Regs.write_results idx v s.regs
    subst e
    exact .inl ⟨⟨rfl, rfl⟩, outBlk, ext80⟩
  | idle _ e | illegal _ _ _ _ _ e | read _ _ _ _ _ _ _ e | load _ _ _ _ _ e =>
    subst e
    exact .inl ⟨⟨rfl, rfl⟩, rfl, rfl⟩

/-! ### The statements -/

/-- Settles O60: a command keeps the invariant by `exec_command_inv`, an illegal code by `illegalCommand_inv`; a load
keeps the BRR memory in form, and the other accesses reach neither the memories nor what the invariant says of the
registers. -/
theorem everyStepKeepsInvariant : Obligations.EveryStepKeepsInvariant := by
  unfold Obligations.EveryStepKeepsInvariant
  intro s t inv h
  obtain ⟨fit, consistent⟩ := s.inv_iff.1 inv
  have taken : ∀ rest, State.Inv { s with host := rest } := fun rest =>
    (State.inv_iff _).2 ⟨fit.congr rfl rfl rfl, consistent⟩
  cases step_cases h with
  | idle _ e => rw [e]; exact inv
  | command _ rest _ _ hd e => exact exec_command_inv hd e (taken rest)
  | illegal w rest _ _ _ e => rw [e]; exact illegalCommand_inv w (taken rest)
  | write idx v _ _ _ e => rw [e]; exact (State.inv_iff _).2 ⟨fit.congr rfl rfl rfl, consistent.write idx v⟩
  | read _ _ _ _ _ _ _ e => rw [e]; exact (State.inv_iff _).2 ⟨fit.congr rfl rfl rfl, consistent⟩
  | load a v _ _ inside e =>
    rw [e]
    exact (State.inv_iff _).2 ⟨⟨fit.capacity, Memory.wf_set a v fit.brr_wf, Memory.below_set v fit.brr_size inside,
      fit.pcm_wf, fit.pcm_size⟩, consistent⟩
  | reset _ _ e => rw [e]; exact (State.inv_iff _).2 ⟨fit.congr rfl rfl rfl, Regs.reset_consistent⟩

/-- Settles O59: the capacities of `Config.capacity` are in range, the memories are empty, and the registers hold their
reset values. -/
theorem resetMeetsInvariant : Obligations.ResetMeetsInvariant :=
  State.reset.inv_iff.2 ⟨⟨rfl, rfl, rfl, rfl, rfl⟩, Regs.reset_consistent⟩

/-- Settles O58: of the steps that change a result (`step_results`), a command changes its own alone
(`CommandFrame`), and a reset the registers alone. -/
theorem resultsHaveOneWriter : Obligations.ResultsHaveOneWriter := by
  unfold Obligations.ResultsHaveOneWriter
  intro s t h
  rcases step_results h with kept | ⟨w, rest, i, hh, hd, frame⟩ | ⟨rest, hh, pcm, draw⟩
  · exact ⟨fun a changed => absurd (State.pcmByte_congr kept.pcm.1 kept.pcm.2 a) changed,
      fun changed => absurd kept.outBlk changed, fun changed => absurd kept.ext80 changed⟩
  · have word : ∀ {g code}, encode i = .command (commandWord g code) → s.host = .regWrite 0x00#8 (g ++ code) :: rest :=
      fun e => by rw [hh, Code.command.inj ((encode_of_decodeCommand hd).symm.trans e)]; rfl
    refine ⟨fun a changed => ?_, fun changed => .inl ?_, fun changed => .inl ?_⟩
    · by_contra other
      have kept := frame.pcm fun g e => other ⟨g, rest, word (by rw [e]; rfl)⟩
      exact changed (State.pcmByte_congr kept.1 kept.2 a)
    · by_contra other
      exact changed (frame.outBlk fun g e => other ⟨g, rest, word (by rw [e]; rfl)⟩)
    · by_contra other
      exact changed (frame.ext80 fun g e => other ⟨g, rest, word (by rw [e]; rfl)⟩)
  · exact ⟨fun a changed => absurd (State.pcmByte_congr pcm draw a) changed, fun _ => .inr ⟨rest, hh⟩,
      fun _ => .inr ⟨rest, hh⟩⟩

end Sys2Proof.Machine
end

section
/-! The host's accesses other than writes to registers: reset, reads, loads and the addresses that do not exist
(spec/20_memory.md R70, R79 to R87, spec/70_reset_and_hazards.md R330 to R332), and how the result registers read. -/

namespace Sys2Proof.Machine

/-! ### What a register reads as -/

/-- LOOP_OFS stands at 0x05 alone. -/
theorem regAt_eq_loopOfs_iff (idx : BitVec 8) : regAt idx = .loopOfs ↔ idx = 0x05#8 := by
  constructor
  · intro e
    have stands : regAt 0x05#8 = .loopOfs := rfl
    exact (regAt_inj (e.trans stands.symm)).resolve_right (by rw [e]; nofun)
  · rintro rfl
    rfl

/-- The reset values by index (R30, R55). -/
theorem Regs.reset_read (idx : BitVec 8) : Regs.reset.read idx = if idx = 0x05#8 then 0xFFFFFFFF#32 else 0#32 := by
  rw [Regs.read, Regs.reset_get]
  simp only [regAt_eq_loopOfs_iff]

/-- OUT_BLKi reads as the sign extension of its sample (R49). -/
theorem Regs.read_outBlk (r : Regs) (i : Fin 16) :
    r.read (BitVec.ofNat 8 (0x10 + i.val)) = (r.outBlk[i]).signExtend 32 := by
  rw [Regs.read, regAt_outBlk]
  rfl

/-- EXT80_i reads as byte i, the most significant first (R80, R114). -/
theorem Regs.read_ext80 (r : Regs) (i : Fin 10) :
    r.read (BitVec.ofNat 8 (0x20 + i.val)) = (r.ext80.extractLsb' (72 - 8 * i.val) 8).setWidth 32 := by
  rw [Regs.read, regAt_ext80]
  rfl

/-- Settles O56: both views through the register map. -/
theorem resultRegisterViews : Obligations.ResultRegisterViews := by
  unfold Obligations.ResultRegisterViews
  refine fun r => ⟨fun i hi => ?_, fun i hi => ?_⟩
  · have place : 2 ^ (72 - 8 * i) = 256 ^ (9 - i) := by
      rw [show 256 = 2 ^ 8 from rfl, ← Nat.pow_mul]
      congr 1
      omega
    have read := r.read_ext80 ⟨i, hi⟩
    rw [read, BitVec.toNat_setWidth, BitVec.extractLsb'_toNat, Nat.shiftRight_eq_div_pow, place]
    omega
  · have read := r.read_outBlk ⟨i, hi⟩
    rw [read]
    exact BitVec.toInt_signExtend_of_le (by decide)

/-! ### Samples as bytes (R79) -/

/-- Settles O14: a sample is its two bytes, the first above the second. -/
theorem pcmByteViewIsBigEndian : Obligations.PcmByteViewIsBigEndian := by
  unfold Obligations.PcmByteViewIsBigEndian
  intro s i
  rw [State.pcmRead, BitVec.toNat_append, Nat.shiftLeft_eq, Nat.mul_comm _ (2 ^ 8),
    ← Nat.two_pow_add_eq_or_of_lt (s.pcmByte (2 * i + 1)).isLt]

/-! ### The accesses one by one -/

section Accesses

variable {s : State} {rest : List HostOp}

theorem step_brrWrite {a : Nat} {v : Byte} (hh : s.host = .brrWrite a v :: rest) : step s =
    if a < s.cap.brrCap then .next { s.brrWrite a v with host := rest } else .fault (.brrAddress a) :=
  step_access hh

theorem step_brrRead {a : Nat} (hh : s.host = .brrRead a :: rest) : step s =
    if a < s.cap.brrCap then .next { s with host := rest, resp := s.resp ++ [.byte (s.brrRead a)] }
    else .fault (.brrAddress a) :=
  step_access hh

theorem step_pcmRead {i : Nat} (hh : s.host = .pcmRead i :: rest) : step s =
    if i < s.cap.pcmCap then .next { s with host := rest, resp := s.resp ++ [.sample (s.pcmRead i)] }
    else .fault (.pcmAddress (2 * i)) :=
  step_access hh

theorem step_pcmReadByte {a : Nat} (hh : s.host = .pcmReadByte a :: rest) : step s =
    if a < 2 * s.cap.pcmCap then .next { s with host := rest, resp := s.resp ++ [.byte (s.pcmByte a)] }
    else .fault (.pcmAddress a) :=
  step_access hh

end Accesses

/-! ### The statements -/

/-- Settles O6: `Regs.reset_read`, and a reset access is `resetCore`. -/
theorem resetSetsRegisters : Obligations.ResetSetsRegisters := by
  unfold Obligations.ResetSetsRegisters
  exact ⟨Regs.reset_read, fun s rest hh =>
    ⟨resetCore { s with host := rest }, step_access hh, Regs.reset_read, ⟨fun _ => rfl, fun _ => rfl⟩, rfl, rfl, rfl⟩⟩

/-- Settles O12: each read's step, its address being inside the memory. -/
theorem hostReadsHaveNoSideEffect : Obligations.HostReadsHaveNoSideEffect := by
  unfold Obligations.HostReadsHaveNoSideEffect
  exact fun s rest => ⟨fun _ => step_access, fun a hh inside => (step_brrRead hh).trans (if_pos inside),
    fun i hh inside => (step_pcmRead hh).trans (if_pos inside),
    fun a hh inside => (step_pcmReadByte hh).trans (if_pos inside)⟩

/-- Settles O13: the step is the state's own `brrWrite`, whose reads are `State.brrRead_brrWrite_same` and `_ne`. -/
theorem hostLoadsBrrMemory : Obligations.HostLoadsBrrMemory := by
  unfold Obligations.HostLoadsBrrMemory
  exact fun s a v rest hh inside => ⟨{ s.brrWrite a v with host := rest }, (step_brrWrite hh).trans (if_pos inside),
    s.brrRead_brrWrite_same a v, fun b ne => s.brrRead_brrWrite_ne v ne, fun _ => rfl, rfl, rfl, rfl, rfl⟩

/-- Settles O15: each access's step outside its memory, and `runBlock_stream_overflow`. -/
theorem faultsAreOutsideTheMemories : Obligations.FaultsAreOutsideTheMemories := by
  unfold Obligations.FaultsAreOutsideTheMemories
  refine ⟨fun s rest => ⟨fun a v hh outside => ?_, fun a hh outside => ?_, fun i hh outside => ?_,
    fun a hh outside => ?_⟩, fun s f shift loop last ns sixteen stream full => ?_⟩
  · exact (step_brrWrite hh).trans (if_neg (Nat.not_lt.2 outside))
  · exact (step_brrRead hh).trans (if_neg (Nat.not_lt.2 outside))
  · exact (step_pcmRead hh).trans (if_neg (Nat.not_lt.2 outside))
  · exact (step_pcmReadByte hh).trans (if_neg (Nat.not_lt.2 outside))
  · rw [exec_blockInstr]
    exact runBlock_stream_overflow stream shift f ns (by rw [sixteen]; exact full)

end Sys2Proof.Machine
end

section
/-! The datapath's ranges, the first-block override, and a block issued by a pass or a probe (spec/41_brr_decoder.md
R162 to R182, spec/42_loop_convergence.md R207, R212). -/

namespace Sys2Proof.Machine

/-! ### The output stage (R174 to R179) -/

theorem clampSum_eq (s : Int) : clampSum s = max (-32768) (min 32767 s) := by
  unfold clampSum
  split_ifs <;> omega

theorem clampSum_bounds (s : Int) : -32768 ≤ clampSum s ∧ clampSum s ≤ 32767 := by
  rw [clampSum_eq]
  omega

/-- The correction moves a clamped sum by a multiple of 2^15 into 15 bits. -/
theorem wrapCorrect_bounds {c : Int} (lo : -32768 ≤ c) (hi : c ≤ 32767) :
    -16384 ≤ wrapCorrect c ∧ wrapCorrect c ≤ 16383 := by
  unfold wrapCorrect
  split_ifs <;> omega

theorem wrapCorrect_emod (c : Int) : (2 * wrapCorrect c) % 2 ^ 16 = (2 * c) % 2 ^ 16 := by
  unfold wrapCorrect
  split_ifs <;> omega

theorem outputValue_bounds (s : Int) : -32768 ≤ outputValue s ∧ outputValue s ≤ 32766 := by
  obtain ⟨clampLo, clampHi⟩ := clampSum_bounds s
  obtain ⟨lo, hi⟩ := wrapCorrect_bounds clampLo clampHi
  unfold outputValue
  omega

/-- Settles O37: the value fits a sample (`outputSample_toInt`), and the correction is nothing modulo 2^16 once doubled
(`wrapCorrect_emod`). -/
theorem outputStageIsDoubledClamp : Obligations.OutputStageIsDoubledClamp := by
  unfold Obligations.OutputStageIsDoubledClamp
  intro s
  obtain ⟨lo, hi⟩ := outputValue_bounds s
  refine ⟨outputSample_toInt s, Int.mul_emod_right 2 _, lo, hi, ?_⟩
  rw [← clampSum_eq]
  apply BitVec.eq_of_toNat_eq
  rw [outputSample, BitVec.toNat_ofInt, BitVec.toNat_ofInt]
  exact congrArg Int.toNat (wrapCorrect_emod _)

/-! ### The width of the datapath (R181) -/

theorem halved_bounds (v : Sample) : -16384 ≤ halved v ∧ halved v ≤ 16383 := by
  have lo := BitVec.le_toInt v
  have hi := BitVec.toInt_lt (x := v)
  rw [halved, Int.shiftRight_eq_div_pow]
  omega

/-- The filter sum over all raw terms and histories (R181). -/
theorem filterSum_bounds (f : BitVec 2) {raw a b : Int} (hr : -16384 ≤ raw ∧ raw ≤ 14336)
    (ha : -16384 ≤ a ∧ a ≤ 16383) (hb : -16384 ≤ b ∧ b ≤ 16383) :
    -62976 ≤ filterSum (filterTable f) raw a b ∧ filterSum (filterTable f) raw a b ≤ 60926 := by
  rcases filter_cases f with rfl | rfl | rfl | rfl
  · rw [filterSum_filter0]
    omega
  · rw [filterSum_filter1, Int.shiftRight_eq_div_pow]
    omega
  · rw [filterSum_filter2, Int.shiftRight_eq_div_pow, Int.shiftRight_eq_div_pow]
    omega
  · rw [filterSum_filter3, Int.shiftRight_eq_div_pow, Int.shiftRight_eq_div_pow]
    omega

/-- A signed word of 19 bits holds the value. -/
def fits19 (v : Int) : Prop := -2 ^ 18 ≤ v ∧ v < 2 ^ 18

/-- The products and the partial sums of a filter row (R169 to R173). -/
def filterTerms (row : FilterRow) (raw a b : Int) : List Int :=
  [row.aMul * a, row.aScaled * a, (row.aScaled * a) >>> row.aShift,
    row.bMul * b, row.bScaled * b, (row.bScaled * b) >>> row.bShift,
    raw + row.aMul * a, raw + row.aMul * a + ((row.aScaled * a) >>> row.aShift),
    raw + row.aMul * a + ((row.aScaled * a) >>> row.aShift) + row.bMul * b]

theorem filterTerms_fit (f : BitVec 2) {raw a b : Int} (hr : -16384 ≤ raw ∧ raw ≤ 14336)
    (ha : -16384 ≤ a ∧ a ≤ 16383) (hb : -16384 ≤ b ∧ b ≤ 16383) :
    ∀ v ∈ filterTerms (filterTable f) raw a b, fits19 v := by
  rcases filter_cases f with rfl | rfl | rfl | rfl <;>
    · simp only [filterTerms, filterTable, fits19, reduceIte, BitVec.reduceEq, Int.shiftRight_eq_div_pow,
        List.forall_mem_cons, List.not_mem_nil, IsEmpty.forall_iff, implies_true, and_true]
      omega

/-- What a sample's decode computes before, in and after its filter (R177). -/
theorem datapathValues_eq (f : BitVec 2) (shift : BitVec 4) (n : Nibble) (prev prev2 : Sample) :
    datapathValues f shift n prev prev2 =
      [n.toInt, n.toInt >>> (3 : Nat), scaledTerm shift n, rawTerm shift n, halved prev, halved prev2] ++
      filterTerms (filterTable f) (rawTerm shift n) (halved prev) (halved prev2) ++
      (have s := filterSum (filterTable f) (rawTerm shift n) (halved prev) (halved prev2)
       [s, clampSum s, wrapCorrect (clampSum s), outputValue s]) := rfl

/-- Settles O38: the ranges of the scaled term, the halved history and the filter sum, and those of the filter's terms
(`filterTerms_fit`) and of the output stage. -/
theorem datapathFitsNineteenBits : Obligations.DatapathFitsNineteenBits := by
  unfold Obligations.DatapathFitsNineteenBits
  intro f shift n prev prev2
  have nibble := nibble_toInt_bounds n
  have scaled := scaledTerm_bounds shift n
  have raw := rawTerm_bounds shift n
  have a := halved_bounds prev
  have b := halved_bounds prev2
  have sum := filterSum_bounds f raw a b
  have terms := filterTerms_fit f raw a b
  have values := datapathValues_eq f shift n prev prev2
  generalize filterSum (filterTable f) (rawTerm shift n) (halved prev) (halved prev2) = s at sum values ⊢
  have clamp := clampSum_bounds s
  have wrap := wrapCorrect_bounds clamp.1 clamp.2
  have output := outputValue_bounds s
  refine ⟨sum.1, sum.2, scaled.1, scaled.2, by omega, by omega, by omega, by omega, ?_⟩
  rw [values, List.forall_mem_append, List.forall_mem_append]
  refine ⟨⟨?_, terms⟩, ?_⟩
  · simp only [Int.shiftRight_eq_div_pow, List.forall_mem_cons, List.not_mem_nil, IsEmpty.forall_iff, implies_true,
      and_true]
    omega
  · simp only [List.forall_mem_cons, List.not_mem_nil, IsEmpty.forall_iff, implies_true, and_true]
    omega

/-! ### Blocks (R162, R182, R207) -/

/-- W_FIRSTHDR under a condition (R310). -/
theorem Regs.setFlagIf_firstHdr (c : Bool) (r : Regs) :
    r.setFlagIf .firstHdr c = { r with status := if c then r.status ||| 0x08#5 else r.status } := by
  cases c with
  | false => rfl
  | true => simp only [Regs.setFlagIf_true, Regs.setFlag, Flag.mask_eq, if_true]

/-- With the override a block decodes with filter 0 and shift 0, so each sample is twice its raw term (R162, R170). -/
theorem blockDecode_first_get (shift : BitVec 4) (f : BitVec 2) (ns : List Nibble) (prev prev2 : Sample) {k : Nat}
    (hk : k < ns.length) : ((blockDecode shift f ns prev prev2 true).out.getD k 0#16).toInt =
      2 * rawTerm 0#4 (ns.getD k 0#4) := by
  obtain ⟨lo, hi⟩ := rawTerm_bounds 0#4 ns[k]
  rw [show (blockDecode shift f ns prev prev2 true).out = (decodeNibbles 0#2 0#4 ns prev prev2).1 from rfl,
    decodeNibbles_get 0#2 0#4 ns prev prev2 k hk, decodeSample, outputSample_toInt, filterSum_filter0,
    outputValue_of_bounds lo (by omega), List.getD_eq_getElem _ _ hk]

/-- The override warns of a header that says something else (R162). -/
theorem blockDecode_warnFirst_iff (shift : BitVec 4) (f : BitVec 2) (ns : List Nibble) (prev prev2 : Sample)
    (first : Bool) : (blockDecode shift f ns prev prev2 first).warnFirst = true ↔
      first = true ∧ (shift ≠ 0#4 ∨ f ≠ 0#2) := by
  simp [blockDecode]

/-- Settles O33: DECODE_BLOCK's block with the override (`blockDecode_first_get`), its warning said the other way
round. -/
theorem firstBlockOverridesHeader : Obligations.FirstBlockOverridesHeader := by
  unfold Obligations.FirstBlockOverridesHeader
  intro f shift loop last ns s sixteen command first
  obtain ⟨t, run, samples, regs, rest⟩ := runBlock_command_leaves command shift f sixteen
  have issued := State.issued_command command shift f ns
  rw [first] at issued
  rw [issued] at samples regs
  refine ⟨t, (exec_blockInstr ..).trans run, fun k hk => ?_, ?_, rest⟩
  · have read : t.regs.outBlk[k] = t.regs.outBlk.toList.getD k 0#16 := by simp [hk]
    rw [read, samples]
    exact blockDecode_first_get shift f ns _ _ (by omega)
  · have warns := blockDecode_warnFirst_iff shift f ns s.regs.prev s.regs.prev2 true
    rw [Regs.setFlagIf_firstHdr] at regs
    rw [regs]
    simp only [warns, true_and]
    by_cases plain : shift = 0#4 ∧ f = 0#2
    · simp [plain]
    · rw [if_neg plain, if_pos (by tauto)]

/-- Settles O34: `runBlock_stream`, whose stores read back inside the block and leave the bytes outside it. -/
theorem passBlockExtendsStream : Obligations.PassBlockExtendsStream := by
  unfold Obligations.PassBlockExtendsStream
  intro f shift loop last ns s sixteen stream room
  obtain ⟨r, hr⟩ : ∃ r, r = blockDecode shift f ns s.hid.hp s.hid.hpp s.hid.firstPending := ⟨_, rfl⟩
  have issued : s.issued shift f ns = r := by
    simp only [hr, State.issued, State.blockPrev, State.blockPrev2, State.blockFirst, stream]
  have full : r.out.length = 16 := by rw [hr, blockDecode_length, sixteen]
  obtain ⟨newest, older⟩ : r.prev = r.out.getD 15 0#16 ∧ r.prev2 = r.out.getD 14 0#16 :=
    hr ▸ blockDecode_history shift f ns _ _ _ sixteen
  have warns : r.warnFirst = true ↔ s.hid.firstPending = true ∧ (shift ≠ 0#4 ∨ f ≠ 0#2) :=
    hr ▸ blockDecode_warnFirst_iff shift f ns _ _ _
  have run := runBlock_stream stream shift f ns (by rw [sixteen]; exact room)
  rw [issued, sixteen, newest, older, Regs.setFlagIf_firstHdr] at run
  refine ⟨_, r, (exec_blockInstr ..).trans run, hr, full, fun i hi => ?_, fun a outside => ?_, rfl, ?_,
    fun _ => rfl, rfl, rfl, rfl⟩
  · rw [State.pcmRead_storeSamples_inside rfl (full.symm ▸ hi), List.getD_eq_getElem]
  · have kept := storeSamples_get?_outside r.out s.pcm s.hid.len a (full.symm ▸ outside)
    simp only [State.pcmByte, kept]
  · simp only [warns]

/-- Settles O35: `runBlock_probe`, whose block has the two samples it keeps. -/
theorem probeBlockKeepsStream : Obligations.ProbeBlockKeepsStream := by
  unfold Obligations.ProbeBlockKeepsStream
  intro f shift loop last ns s sixteen isProbe
  obtain ⟨r, hr⟩ : ∃ r, r = blockDecode shift f ns (s.pcmRead (s.hid.len - 1)) (s.pcmRead (s.hid.len - 2)) false :=
    ⟨_, rfl⟩
  have issued : s.issued shift f ns = r := by
    simp only [hr, State.issued, State.blockPrev, State.blockPrev2, State.blockFirst, isProbe]
  have full : r.out.length = 16 := by rw [hr, blockDecode_length, sixteen]
  have run := runBlock_probe isProbe shift f ns
  rw [issued, getD_default (by omega) s.hid.q0 0#16, getD_default (by omega) s.hid.q1 0#16] at run
  exact ⟨_, r, (exec_blockInstr ..).trans run, hr, rfl, rfl, ⟨fun _ => rfl, fun _ => rfl⟩, rfl, rfl, rfl⟩

end Sys2Proof.Machine
end

section
/-! DECODE_BLOCK (spec/44_host_commands.md R264), and the instructions that it, a pass and a probe run
(spec/41_brr_decoder.md R182, spec/42_loop_convergence.md R207). -/

namespace Sys2Proof.Machine

/-! ### The instruction at a byte address (R73, R104) -/

theorem fetchBytes_eq_map (s : State) (a : Nat) : s.fetchBytes a = (List.range 9).map fun k => s.brrRead (a + k) := rfl

/-- Issuing the block at a byte address runs the instruction its nine bytes decode to. -/
theorem issueBlock_of_decode {s : State} {a : Nat} {i : Instr}
    (hd : decode (.block ((List.range 9).map fun k => s.brrRead (a + k))) = .ok i) : issueBlock a s = exec i s := by
  rw [← fetchBytes_eq_map, decode_fetchBytes] at hd
  cases hd
  exact issueBlock_eq_exec a s

/-! ### DECODE_BLOCK by its three cases -/

/-- What DECODE_BLOCK of a block inside the input leaves (R264). -/
theorem exec_decodeBlock_inside {s : State} (g : BitVec 24) (fits : s.inLen ≤ s.cap.brrCap)
    (inside : s.regs.blkOfs.toNat + 9 ≤ s.inLen) :
    ∃ t, exec (.decodeBlock g) s = .next t ∧
      (∀ (k : Nat) (hk : k < 16), t.regs.outBlk[k] = s.blockAtOffset.out.getD k 0#16) ∧
      t.regs = endedRegs (g ++ 0x03#8) (if s.blockAtOffset.warnFirst then 0x09#5 else 0x01#5) 0#16 0#32
        { s.regs with
          outBlk := t.regs.outBlk
          hist := histWord s.blockAtOffset.prev s.blockAtOffset.prev2 } ∧
      keepsRest s t := by
  have run : exec (.decodeBlock g) s = _ := execDecodeBlock_inside g s fits inside
  have full : s.blockAtOffset.out.length = 16 := by simp [State.blockAtOffset]
  have regs := decodeBlock_regs g s.blockAtOffset.warnFirst (overwrite s.regs.outBlk 0 s.blockAtOffset.out)
    (histWord s.blockAtOffset.prev s.blockAtOffset.prev2) s.regs
  exact ⟨_, run, overwrite_full s.regs.outBlk full, regs, (exec_command_frame rfl run).keepsRest fun _ => nofun⟩

/-- What a DECODE_BLOCK that raises leaves (R264, R303). -/
theorem exec_decodeBlock_raise {s : State} {g : BitVec 24} {kind : ErrorKind} {sub : Byte} {info : Word}
    {word : BitVec 16} (run : exec (.decodeBlock g) s = .next ((decodeBlockStart g s).raise ⟨kind, sub, info⟩))
    (hw : sub ++ kind.code = word) :
    ∃ t, exec (.decodeBlock g) s = .next t ∧ t.regs = endedRegs (g ++ 0x03#8) 0x03#5 word info s.regs ∧
      keepsRest s t := by
  subst hw
  exact ⟨_, run, beginCommand_raise (g ++ 0x03#8) ⟨kind, sub, info⟩ s.regs,
    (exec_command_frame rfl run).keepsRest fun _ => nofun⟩

/-! ### Passes block by block (R182) -/

/-- BlockDecode of block `j` of the stream. -/
def State.streamBlock (s : State) (j : Nat) (prev prev2 : Sample) (first : Bool) : BlockResult :=
  blockDecode (s.fetchBlock (9 * j)).shift (s.fetchBlock (9 * j)).filter (s.fetchBlock (9 * j)).nibbles prev prev2 first

@[simp] theorem State.streamBlock_length (s : State) (j : Nat) (prev prev2 : Sample) (first : Bool) :
    (s.streamBlock j prev prev2 first).out.length = 16 := by
  simp [State.streamBlock]

theorem passDecode_succ (s : State) (k j : Nat) (p p2 : Sample) (first : Bool) :
    passDecode s (k + 1) j p p2 first =
      ((s.streamBlock j p p2 first).out ++
        (passDecode s k (j + 1) (s.streamBlock j p p2 first).prev (s.streamBlock j p p2 first).prev2 false).1,
        (passDecode s k (j + 1) (s.streamBlock j p p2 first).prev (s.streamBlock j p p2 first).prev2 false).2) := rfl

/-- A pass in two parts: the second goes on from the first's history, and the override is for the first block only. -/
theorem passDecode_add (s : State) (k m j : Nat) (p p2 : Sample) (first : Bool) :
    passDecode s (k + m) j p p2 first =
      ((passDecode s k j p p2 first).1 ++
        (passDecode s m (j + k) (passDecode s k j p p2 first).2.1 (passDecode s k j p p2 first).2.2
          (first && decide (k = 0))).1,
        (passDecode s m (j + k) (passDecode s k j p p2 first).2.1 (passDecode s k j p p2 first).2.2
          (first && decide (k = 0))).2) := by
  induction k generalizing j p p2 first with
  | zero => simp [passDecode]
  | succ k ih =>
    rw [Nat.succ_add, passDecode_succ, passDecode_succ, ih, Nat.add_right_comm j 1 k]
    simp [Nat.add_assoc]

/-- Block `j` of the initial pass, decoded from the history of the blocks before it. -/
def State.initialBlock (s : State) (j : Nat) : BlockResult :=
  s.streamBlock j (passDecode s j 0 0#16 0#16 true).2.1 (passDecode s j 0 0#16 0#16 true).2.2 (decide (j = 0))

/-- The initial pass up to and with block `j`. -/
theorem passDecode_initial_succ (s : State) (j : Nat) : passDecode s (j + 1) 0 0#16 0#16 true =
    ((passDecode s j 0 0#16 0#16 true).1 ++ (s.initialBlock j).out, (s.initialBlock j).prev,
      (s.initialBlock j).prev2) := by
  rw [passDecode_add, passDecode_succ]
  simp only [passDecode, Nat.zero_add, Bool.true_and, List.append_nil, State.initialBlock]

/-- Samples 16j to 16j + 15 of the initial stream are block `j`'s. -/
theorem initialStream_getD {s : State} {j k : Nat} (hj : j < s.blocks) (hk : k < 16) :
    (initialStream s).getD (16 * j + k) 0#16 = (s.initialBlock j).out.getD k 0#16 := by
  obtain ⟨m, hm⟩ : ∃ m, s.blocks = j + 1 + m := ⟨s.blocks - (j + 1), by omega⟩
  have before : (passDecode s j 0 0#16 0#16 true).1.length = 16 * j := passDecode_length ..
  have block : (s.initialBlock j).out.length = 16 := State.streamBlock_length ..
  rw [initialStream, hm, passDecode_add, passDecode_initial_succ, List.append_assoc,
    List.getD_append_right _ _ _ _ (by omega), List.getD_append _ _ _ _ (by omega)]
  congr 1
  omega

/-! ### The statements -/

/-- Settles O17: past the two checks of DECODE_BLOCK, `issueBlock_of_decode`. -/
theorem decodeBlockRunsDecodedBlock : Obligations.DecodeBlockRunsDecodedBlock := by
  unfold Obligations.DecodeBlockRunsDecodedBlock
  intro s g i fits inside hd
  have issue := issueBlock_of_decode (s := decodeBlockStart g s) hd
  unfold State.inLen at fits inside
  simp only [exec, execDecodeBlock]
  rw [if_neg (Nat.not_lt.2 fits), if_neg (Nat.not_lt.2 inside), issue]
  rfl

/-- Settles O18: `issueBlock_of_decode` in the state with the cursor moved. -/
theorem passesAndProbesRunDecodedBlocks : Obligations.PassesAndProbesRunDecodedBlocks := by
  unfold Obligations.PassesAndProbesRunDecodedBlocks
  refine ⟨fun k j s i hd => ?_, fun s i hd => ?_⟩
  · rw [runPass, issueBlock_of_decode (s := s.onHid fun h => { h with cur := j }) hd]
    rfl
  · exact issueBlock_of_decode (s := { s with client := .probe, hid := { s.hid with cur := s.hid.b } }) hd

/-- Settles O39: the two checks of DECODE_BLOCK in their order. -/
theorem decodeBlockAddressErrors : Obligations.DecodeBlockAddressErrors := by
  unfold Obligations.DecodeBlockAddressErrors
  exact fun s g => ⟨fun oversized => exec_decodeBlock_raise (execDecodeBlock_oversized g s oversized) rfl,
    fun fits outside => exec_decodeBlock_raise (execDecodeBlock_outside g s fits outside) rfl⟩

/-- Settles O40: `exec_decodeBlock_inside`, the history being the block's last two samples. -/
theorem decodeBlockWritesResult : Obligations.DecodeBlockWritesResult := by
  unfold Obligations.DecodeBlockWritesResult
  intro s g fits inside
  obtain ⟨t, run, samples, regs, rest⟩ := exec_decodeBlock_inside g fits inside
  obtain ⟨newest, older⟩ : s.blockAtOffset.prev = s.blockAtOffset.out.getD 15 0#16 ∧
      s.blockAtOffset.prev2 = s.blockAtOffset.out.getD 14 0#16 :=
    blockDecode_history _ _ _ _ _ _ (fetchBlock_nibbles_length ..)
  rw [histWord, newest, older] at regs
  exact ⟨t, s.blockAtOffset, run, rfl, samples, regs, rest⟩

/-- Settles O41: the block DECODE_BLOCK decodes is block `j` of the initial pass, its history being HIST. -/
theorem decodeBlockChainIsInitialPass : Obligations.DecodeBlockChainIsInitialPass := by
  unfold Obligations.DecodeBlockChainIsInitialPass
  intro s g j fits offset inside first hist
  have history : s.regs.prev = (passDecode s j 0 0#16 0#16 true).2.1 ∧
      s.regs.prev2 = (passDecode s j 0 0#16 0#16 true).2.2 := by
    rw [Regs.prev, Regs.prev2, hist]
    exact ⟨BitVec.extractLsb'_append_eq_right, BitVec.extractLsb'_append_eq_left⟩
  have same : s.blockAtOffset = s.initialBlock j := by
    simp only [State.blockAtOffset, offset, history, first]
    rfl
  obtain ⟨t, run, samples, regs, -⟩ := exec_decodeBlock_inside g fits (by omega)
  rw [same] at samples regs
  refine ⟨t, run, fun k hk => ?_, ?_⟩
  · rw [samples k hk, initialStream_getD inside hk]
  · rw [regs, passDecode_initial_succ]
    rfl

end Sys2Proof.Machine
end

section
/-! How a CONVERT ends (spec/44_host_commands.md R263, spec/42_loop_convergence.md R205 to R219): its three kinds of
ending, and the laws of a resolved loop. -/

namespace Sys2Proof.Machine

/-! ### The kinds of ending -/

/-- A CONVERT raises, or keeps the whole stream without a loop, or resolves the loop it was asked for. -/
theorem ConvertEnds.kinds {s : State} {e : Ending} (h : ConvertEnds s e) :
    (∃ warnings x, e = .failed warnings x) ∨ (∃ req, e = .whole s req) ∨
    ∃ b r k, requestsLoop s b ∧ loopResolves s b r k ∧ e = .looped s b r k := by
  cases h with
  | invalid | badRequest | noRoom | outgrown | exhausted => exact .inl ⟨_, _, rfl⟩
  | whole req => exact .inr (.inl ⟨req, rfl⟩)
  | resolved b r k v q room ends => exact .inr (.inr ⟨b, r, k, (requestsLoop_iff s b).2 ⟨v, q⟩, ends, rfl⟩)

theorem Ending.failed_err (warnings : BitVec 5) (x : Raise) : (Ending.failed warnings x).status.getLsbD 1 = true := by
  simp [Ending.failed]

theorem Ending.whole_flags (s : State) (req : LoopRequest) :
    (Ending.whole s req).status.getLsbD 1 = false ∧ (Ending.whole s req).status.getLsbD 2 = false := by
  simp [Ending.whole, s.firstHdrBit_low, req.dropBit_low]

theorem Ending.looped_flags (s : State) (b r k : Nat) :
    (Ending.looped s b r k).status.getLsbD 1 = false ∧ (Ending.looped s b r k).status.getLsbD 2 = true := by
  simp [Ending.looped, s.firstHdrBit_low]

/-- ERR tells the endings that raised. -/
theorem ConvertEnds.failed_of_err {s : State} {e : Ending} (h : ConvertEnds s e) (err : e.status.getLsbD 1 = true) :
    ∃ warnings x, e = .failed warnings x := by
  rcases h.kinds with failed | ⟨req, rfl⟩ | ⟨b, r, k, -, -, rfl⟩
  · exact failed
  · cases (Ending.whole_flags s req).1.symm.trans err
  · cases (Ending.looped_flags s b r k).1.symm.trans err

/-- LOOPED tells the endings that resolved a loop. -/
theorem ConvertEnds.resolved_of_looped {s : State} {e : Ending} (h : ConvertEnds s e)
    (looped : e.status.getLsbD 2 = true) :
    ∃ b r k, requestsLoop s b ∧ loopResolves s b r k ∧ e = .looped s b r k := by
  rcases h.kinds with ⟨warnings, x, rfl⟩ | ⟨req, rfl⟩ | resolved
  · cases (h.sound.not_looped (Ending.failed_err warnings x)).symm.trans looped
  · cases (Ending.whole_flags s req).2.symm.trans looped
  · exact resolved

/-- The flags a CONVERT leaves are its ending's. -/
theorem ConvertLeaves.flag {g : BitVec 24} {s t : State} {e : Ending} (l : ConvertLeaves g s e t) (f : Flag) :
    t.regs.flag f = e.status.getLsbD f.bit := by
  rw [l.regs]
  rfl

/-! ### The errors of the stream (R211, R213, R263) -/

/-- A CONVERT that fails raises, `word` being its SUB and CODE (R35). -/
theorem convertRaises_of_failed {s : State} {warnings : BitVec 5} {kind : ErrorKind} {sub : Byte} {info : Word}
    {word : BitVec 16} (d : ConvertEnds s (.failed warnings ⟨kind, sub, info⟩)) (hw : sub ++ kind.code = word) :
    convertRaises s (0x03#5 ||| warnings) word info :=
  hw ▸ d.convertRaises

/-- The initial pass does not fit, whatever the request says (R263). -/
theorem convertRaises_of_noRoom {s : State} {req : LoopRequest} (valid : validStream s)
    (request : resolveLoopRequest s.blocks s = .ok req) (full : s.cap.pcmCap < 16 * s.blocks) :
    convertRaises s (0x03#5 ||| req.dropBit) 0x0103#16 (BitVec.ofNat 32 (16 * s.blocks)) :=
  convertRaises_of_failed (.noRoom req ((validate_ok_iff s _).2 ⟨valid, rfl⟩) request full) rfl

/-- Where a later stream of a loop fits, the initial one does. -/
theorem initial_room_of_later {s : State} {b m : Nat} (fits : (roundStream s b m).length ≤ s.cap.pcmCap) :
    16 * s.blocks ≤ s.cap.pcmCap := by
  rw [roundStream_length] at fits
  omega

/-- The ending of a loop that resolves (R214). -/
theorem ConvertEnds.of_resolves {s : State} {b r k : Nat} (loop : requestsLoop s b) (ends : loopResolves s b r k) :
    ConvertEnds s (.looped s b r k) := by
  obtain ⟨v, q⟩ := (requestsLoop_iff s b).1 loop
  have ⟨_, _, _, fits, _⟩ := ends
  exact .resolved b r k v q (initial_room_of_later fits) ends

/-- The ending of a loop that outgrows the PCM memory (R211). -/
theorem ConvertEnds.of_outgrows {s : State} {b r : Nat} (loop : requestsLoop s b) (ends : loopOutgrows s b r) :
    ConvertEnds s (.failed s.firstHdrBit ⟨.allocation, 2#8, BitVec.ofNat 32 (roundStream s b r).length⟩) := by
  obtain ⟨v, q⟩ := (requestsLoop_iff s b).1 loop
  have ⟨_, _, _, fits, _⟩ := ends
  exact .outgrown b r v q (initial_room_of_later fits) ends

/-- The ending of a loop whose 64 rounds find no match (R213). -/
theorem ConvertEnds.of_exhausts {s : State} {b : Nat} (loop : requestsLoop s b) (ends : loopExhausts s b) :
    ConvertEnds s (.failed s.firstHdrBit ⟨.loopConvergence, 0#8, 64#32⟩) := by
  obtain ⟨v, q⟩ := (requestsLoop_iff s b).1 loop
  exact .exhausted b v q (initial_room_of_later ends.2) ends

/-- The ERROR values of the endings that no round of a loop raises. -/
def errorsBeforeRounds : List (BitVec 16) := validatorErrors ++ requestErrors ++ [0x0103#16, 0x0000#16]

theorem errorsBeforeRounds_ne : ∀ word ∈ errorsBeforeRounds, word ≠ 0x0203#16 ∧ word ≠ 0x0002#16 := by
  simp [errorsBeforeRounds, validatorErrors, requestErrors]

theorem Ending.failed_error {kind : ErrorKind} {sub : Byte} {word : BitVec 16} (hw : sub ++ kind.code = word)
    (warnings : BitVec 5) (info : Word) : (Ending.failed warnings ⟨kind, sub, info⟩).error = word := hw

/-- AllocationError(2) and LoopConvergenceError come from the rounds of a loop and from nothing else. -/
theorem ConvertEnds.error_cases {s : State} {e : Ending} (h : ConvertEnds s e) :
    e.error ∈ errorsBeforeRounds ∨
    (∃ b r, requestsLoop s b ∧ loopOutgrows s b r ∧ e.error = 0x0203#16 ∧
      e.info = BitVec.ofNat 32 (roundStream s b r).length) ∨
    ∃ b, requestsLoop s b ∧ loopExhausts s b ∧ e.error = 0x0002#16 ∧ e.info = 64#32 := by
  cases h with
  | invalid x v => exact .inl (List.mem_append_left _ (List.mem_append_left _ (validate_error_word v)))
  | badRequest x v q => exact .inl (List.mem_append_left _ (List.mem_append_right _ (resolveLoopRequest_error_word q)))
  | noRoom req =>
    rw [Ending.failed_error (word := 0x0103#16) rfl]
    exact .inl (by decide)
  | whole | resolved => exact .inl (show 0x0000#16 ∈ errorsBeforeRounds by decide)
  | outgrown b r v q room ends =>
    exact .inr (.inl ⟨b, r, (requestsLoop_iff s b).2 ⟨v, q⟩, ends, Ending.failed_error rfl .., rfl⟩)
  | exhausted b v q room ends =>
    exact .inr (.inr ⟨b, (requestsLoop_iff s b).2 ⟨v, q⟩, ends, Ending.failed_error rfl .., rfl⟩)

/-- A loop whose initial pass fits resolves or raises one of the two errors of its rounds. -/
theorem ConvertEnds.of_loop {s : State} {e : Ending} {b : Nat} (h : ConvertEnds s e) (loop : requestsLoop s b)
    (room : 16 * s.blocks ≤ s.cap.pcmCap) :
    (∃ r k, e = .looped s b r k) ∨ ∃ warnings x, e = .failed warnings x ∧
      (e.error = 0x0203#16 ∨ e.error = 0x0002#16) := by
  obtain ⟨v, q⟩ := (requestsLoop_iff s b).1 loop
  cases h with
  | invalid x v' => cases v.symm.trans v'
  | badRequest x v' q' => cases q.symm.trans q'
  | noRoom req v' q' full => omega
  | whole req v' q' noLoop => exact absurd (Except.ok.inj (q'.symm.trans q)) (noLoop b)
  | resolved b' r k v' q' =>
    cases q.symm.trans q'
    exact .inl ⟨r, k, rfl⟩
  | outgrown => exact .inr ⟨_, _, rfl, .inl (Ending.failed_error rfl ..)⟩
  | exhausted => exact .inr ⟨_, _, rfl, .inr (Ending.failed_error rfl ..)⟩

/-! ### The results of a resolved loop (R214, R215) -/

/-- What a CONVERT leaves that resolves its loop, its lengths fitting 32 bits. -/
theorem ConvertLeaves.looped_regs {g : BitVec 24} {s t : State} {b r k : Nat}
    (l : ConvertLeaves g s (.looped s b r k) t) (hb : b < s.blocks) (ends : loopResolves s b r k)
    (small : (roundStream s b (r - 1)).length < 2 ^ 32) :
    t.regs = endedRegs (g ++ 0x02#8) (0x05#5 ||| s.firstHdrBit) 0#16 0#32
      { s.regs with
        blockCount := BitVec.ofNat 32 s.blocks
        sampleCount := BitVec.ofNat 32 (roundStream s b (r - 1)).length
        baseLoopLen := BitVec.ofNat 32 (16 * (s.blocks - b))
        loopStart := BitVec.ofNat 32 ((roundStream s b (r - 1)).length - k * (16 * (s.blocks - b)))
        loopLen := BitVec.ofNat 32 (k * (16 * (s.blocks - b)))
        rounds := BitVec.ofNat 32 r } := by
  obtain ⟨inside, base⟩ := loopResolves_candidate ends hb
  rw [l.regs]
  simp only [Ending.regs, Ending.looped]
  rw [resultWord_fits small, resultWord_fits (by omega), resultWord_fits (by omega), resultWord_fits (by omega)]

/-- The same results as numbers. -/
structure LoopedResults (s t : State) (b r k : Nat) : Prop where
  rounds : t.regs.rounds.toNat = r
  blockCount : t.regs.blockCount.toNat = s.blocks
  sampleCount : t.regs.sampleCount.toNat = (roundStream s b (r - 1)).length
  baseLoopLen : t.regs.baseLoopLen.toNat = 16 * (s.blocks - b)
  loopStart : t.regs.loopStart.toNat = (roundStream s b (r - 1)).length - k * (16 * (s.blocks - b))
  loopLen : t.regs.loopLen.toNat = k * (16 * (s.blocks - b))

theorem ConvertLeaves.looped_results {g : BitVec 24} {s t : State} {b r k : Nat}
    (l : ConvertLeaves g s (.looped s b r k) t) (hb : b < s.blocks) (ends : loopResolves s b r k)
    (small : (roundStream s b (r - 1)).length < 2 ^ 32) : LoopedResults s t b r k := by
  obtain ⟨inside, base⟩ := loopResolves_candidate ends hb
  have ⟨_, bound, _⟩ := ends
  have length := roundStream_length s b (r - 1)
  have fits : ∀ {v}, v < 2 ^ 32 → (BitVec.ofNat 32 v).toNat = v := fun h => by
    rw [BitVec.toNat_ofNat, Nat.mod_eq_of_lt h]
  have regs := l.looped_regs hb ends small
  constructor <;>
    · rw [regs]
      exact fits (by omega)

/-- A CONVERT whose loop resolves (R214), its lengths fitting 32 bits. -/
theorem exec_convert_resolves {s : State} {b r k : Nat} (g : BitVec 24) (loop : requestsLoop s b)
    (ends : loopResolves s b r k) (small : (roundStream s b (r - 1)).length < 2 ^ 32) :
    ∃ t, exec (.convert g) s = .next t ∧
      t.regs = endedRegs (g ++ 0x02#8) (0x05#5 ||| s.firstHdrBit) 0#16 0#32
        { s.regs with
          blockCount := BitVec.ofNat 32 s.blocks
          sampleCount := BitVec.ofNat 32 (roundStream s b (r - 1)).length
          baseLoopLen := BitVec.ofNat 32 (16 * (s.blocks - b))
          loopStart := BitVec.ofNat 32 ((roundStream s b (r - 1)).length - k * (16 * (s.blocks - b)))
          loopLen := BitVec.ofNat 32 (k * (16 * (s.blocks - b)))
          rounds := BitVec.ofNat 32 r } ∧
      (∀ i < (roundStream s b (r - 1)).length, t.pcmRead i = (roundStream s b (r - 1)).getD i 0#16) ∧
      keepsBrr s t := by
  have ⟨_, _, _, inside⟩ := loop
  obtain ⟨t, run, leaves⟩ := execConvert_of_ends g (.of_resolves loop ends)
  exact ⟨t, run, leaves.looped_regs inside ends small, fun i hi => leaves.pcmRead hi,
    (exec_command_frame (i := .convert g) rfl run).keepsBrr⟩

/-- A CONVERT that left LOOPED resolved its loop; where PCM_CAP fits 32 bits, so do its results. -/
theorem exec_convert_looped {s t : State} {g : BitVec 24} (small : s.cap.pcmCap < 2 ^ 32)
    (run : exec (.convert g) s = .next t) (looped : t.regs.flag .looped = true) :
    ∃ b r k, requestsLoop s b ∧ loopResolves s b r k ∧ LoopedResults s t b r k ∧
      ∀ i < (roundStream s b (r - 1)).length, t.pcmRead i = (roundStream s b (r - 1)).getD i 0#16 := by
  obtain ⟨e, conv, leaves⟩ := exec_convert_cases run
  rw [leaves.flag] at looped
  obtain ⟨b, r, k, loop, ends, rfl⟩ := conv.resolved_of_looped looped
  have ⟨_, _, _, inside⟩ := loop
  have ⟨_, _, _, fits, _⟩ := ends
  exact ⟨b, r, k, loop, ends, leaves.looped_results inside ends (by omega), fun i hi => leaves.pcmRead hi⟩

/-- Growth appends: every later stream begins with the initial one (R76, R185). -/
theorem roundStream_getD_initial (s : State) (b m : Nat) {i : Nat} (hi : i < 16 * s.blocks) :
    (roundStream s b m).getD i 0#16 = (initialStream s).getD i 0#16 := by
  induction m with
  | zero => rfl
  | succ m ih =>
    have inside : i < (roundStream s b m).length := by rw [roundStream_length]; omega
    rw [roundStream, List.getD_append _ _ _ _ inside, ih]

/-! ### The statements -/

/-- Settles O44: `convertRaises_of_noRoom`, the request being a loop or none (no warning) or dropped (W_LOOPDROP). -/
theorem initialAllocationErrorRaises : Obligations.InitialAllocationErrorRaises := by
  unfold Obligations.InitialAllocationErrorRaises
  intro s full
  refine ⟨?_, ?_⟩
  · rintro (⟨b, loop⟩ | ⟨valid, absent⟩)
    · have ⟨valid, _⟩ := loop
      have noWarning : (LoopRequest.loop b).dropBit = 0#5 := if_neg nofun
      have raises := convertRaises_of_noRoom valid ((requestsLoop_iff s b).1 loop).2 full
      rw [noWarning] at raises
      exact raises
    · exact convertRaises_of_noRoom valid (resolveLoopRequest_absent absent _) full
  · rintro ⟨valid, requested, straight⟩
    exact convertRaises_of_noRoom valid (resolveLoopRequest_dropped requested straight) full

/-- Settles O45: the first round resolves at its one candidate, so `exec_convert_resolves` with round 1. -/
theorem firstRoundLoopResolves : Obligations.FirstRoundLoopResolves := by
  unfold Obligations.FirstRoundLoopResolves
  intro s g b loop room small first
  have ⟨_, _, _, inside⟩ := loop
  have length : (roundStream s b 0).length = 16 * s.blocks := initialStream_length s
  have start : 16 * s.blocks - 1 * (16 * (s.blocks - b)) = 16 * b := by
    have : b < s.blocks := inside
    omega
  have candidate : candidateMatches s b (roundStream s b 0) 1 := by
    rw [candidateMatches, length, start]
    exact first.symm
  have ends : loopResolves s b 1 1 :=
    ⟨le_rfl, by decide, fun r' h1 h2 => by omega, by rw [length]; exact room, le_rfl, le_rfl, candidate,
      fun k' h1 h2 => by omega⟩
  obtain ⟨t, run, regs, stream, rest⟩ := exec_convert_resolves g loop ends (by rw [length]; exact small)
  rw [length, start, Nat.one_mul] at regs
  rw [length] at stream
  exact ⟨t, run, regs, stream, rest⟩

/-- Settles O46: the endings of an outgrown and an exhausted loop, what else a loop can end with
(`ConvertEnds.of_loop`), and that no other ending has these errors (`ConvertEnds.error_cases`). -/
theorem unresolvedLoopErrors : Obligations.UnresolvedLoopErrors := by
  unfold Obligations.UnresolvedLoopErrors
  refine ⟨fun s b r loop ends => ?_, fun s b loop ends => ?_, fun s g b loop room => ?_, fun s t g run => ?_⟩
  · exact convertRaises_of_failed (.of_outgrows loop ends) rfl
  · exact convertRaises_of_failed (.of_exhausts loop ends) rfl
  · obtain ⟨t, e, run, conv, leaves⟩ := execConvert_ends g s
    refine ⟨t, run, ?_⟩
    rw [leaves.flag, leaves.flag]
    rcases conv.of_loop loop room with ⟨r, k, rfl⟩ | ⟨warnings, x, rfl, error⟩
    · obtain ⟨err, looped⟩ := Ending.looped_flags s b r k
      exact .inl ⟨looped, err⟩
    · refine .inr ⟨conv.sound.not_looped (Ending.failed_err warnings x), ?_⟩
      rw [leaves.regs]
      exact error
  · obtain ⟨e, conv, leaves⟩ := exec_convert_cases run
    rw [leaves.regs]
    refine ⟨fun (allocation : e.error = _) => ?_, fun (convergence : e.error = _) => ?_⟩
    · rcases conv.error_cases with early | ⟨b, r, loop, ends, -, info⟩ | ⟨b, -, -, two, -⟩
      · exact absurd allocation (errorsBeforeRounds_ne _ early).1
      · obtain ⟨one, bound, fail, fits, grows⟩ := ends
        exact ⟨b, r, loop, one, bound, fail, fits, grows, info⟩
      · exact absurd (two.symm.trans allocation) (by decide)
    · rcases conv.error_cases with early | ⟨b, r, -, -, two, -⟩ | ⟨b, loop, ends, -, info⟩
      · exact absurd convergence (errorsBeforeRounds_ne _ early).2
      · exact absurd (two.symm.trans convergence) (by decide)
      · obtain ⟨fail, fits⟩ := ends
        exact ⟨b, loop, fail, fits, info⟩

/-- Settles O47: the registers of `Ending.regs`, whose results are 0 where the ending failed. -/
theorem convertFrame : Obligations.ConvertFrame := by
  unfold Obligations.ConvertFrame
  intro s t g run
  obtain ⟨e, conv, leaves⟩ := exec_convert_cases run
  refine ⟨fun err => ?_, ?_, (exec_command_frame (i := .convert g) rfl run).keepsBrr⟩
  · rw [leaves.flag] at err
    have looped : t.regs.flag .looped = false := (leaves.flag .looped).trans (conv.sound.not_looped err)
    obtain ⟨warnings, x, rfl⟩ := conv.failed_of_err err
    rw [looped, leaves.regs]
    exact ⟨rfl, rfl, rfl, rfl, rfl, rfl, rfl⟩
  · rw [leaves.regs]
    rfl

/-- Settles O48: the results of `exec_convert_looped`, the length of the stream of round ROUNDS, and the candidate
inside it. -/
theorem resolvedLoopLaws : Obligations.ResolvedLoopLaws := by
  unfold Obligations.ResolvedLoopLaws
  intro s t g small run looped
  obtain ⟨b, r, k, loop, ends, results, -⟩ := exec_convert_looped small run looped
  obtain ⟨rounds, blockCount, sampleCount, baseLoopLen, loopStart, loopLen⟩ := results
  have ⟨_, _, _, inside⟩ := loop
  obtain ⟨start, -⟩ := loopResolves_candidate ends inside
  obtain ⟨-, bound, -, fits, one, most, -⟩ := ends
  have length := roundStream_length s b (r - 1)
  refine ⟨b, k, loop, one, by omega, by omega, blockCount, baseLoopLen, ?_, by omega, by omega, ?_, by omega⟩
  · rw [loopLen, baseLoopLen]
  · rw [sampleCount, rounds, baseLoopLen]
    exact length

/-- Settles O49: `exec_convert_resolves`, and conversely the round and the candidate of `exec_convert_looped`. -/
theorem resolvedLoopIsFirstMatch : Obligations.ResolvedLoopIsFirstMatch := by
  unfold Obligations.ResolvedLoopIsFirstMatch
  refine ⟨fun s g b r k loop ends fits => exec_convert_resolves g loop ends fits, fun s t g small run looped => ?_⟩
  obtain ⟨b, r, k, loop, ends, results, stream⟩ := exec_convert_looped small run looped
  obtain ⟨rounds, -, sampleCount, -, loopStart, loopLen⟩ := results
  obtain ⟨-, -, earlier, -, one, most, candidate, nearer⟩ := ends
  rw [rounds]
  exact ⟨b, k, roundStream s b (r - 1), loop, rfl, sampleCount, stream, one, most, loopLen, loopStart, candidate,
    nearer, earlier⟩

/-- Settles O50: the stream is the initial one, or that of the last round, which begins with it. -/
theorem successfulConvertHoldsInitialStream : Obligations.SuccessfulConvertHoldsInitialStream := by
  unfold Obligations.SuccessfulConvertHoldsInitialStream
  intro s t g run noErr
  refine ⟨initialStream_length s, fun i hi => ?_⟩
  obtain ⟨e, conv, leaves⟩ := exec_convert_cases run
  rw [leaves.flag] at noErr
  rcases conv.kinds with ⟨warnings, x, rfl⟩ | ⟨req, rfl⟩ | ⟨b, r, k, -, -, rfl⟩
  · cases (Ending.failed_err warnings x).symm.trans noErr
  · exact leaves.pcmRead (hi.trans_eq (initialStream_length s).symm)
  · have inside : i < (roundStream s b (r - 1)).length := by
      have : i < 16 * s.blocks := hi
      rw [roundStream_length]
      omega
    exact (leaves.pcmRead inside).trans (roundStream_getD_initial s b (r - 1) hi)

end Sys2Proof.Machine
end

section
/-! ENCODE_RATE (spec/43_ext80_encoder.md R240 to R247). -/

namespace Sys2Proof.Machine

/-! ### The parts of an encoded rate -/

section Rate

variable {r : Word} (h : r ≠ 0#32)
include h

theorem rate_pos : 0 < r.toNat := Nat.pos_of_ne_zero fun e => h (BitVec.eq_of_toNat_eq e)

theorem rate_log2_lt : Nat.log2 r.toNat < 32 := (Nat.log2_lt (rate_pos h).ne').2 r.isLt

theorem encodeRate_exponent : ((encodeRate r).extractLsb' 64 15).toNat = 16383 + Nat.log2 r.toNat := by
  have := rate_log2_lt h
  rw [encodeRate_eq h, packExt80_exponent, BitVec.toNat_ofNat, Nat.mod_eq_of_lt (by omega)]

theorem encodeRate_mantissa :
    ((encodeRate r).extractLsb' 0 64).toNat = r.toNat * 2 ^ (63 - Nat.log2 r.toNat) := by
  rw [encodeRate_eq h, packExt80_mantissa, BitVec.toNat_ofNat, Nat.mod_eq_of_lt (mantissa_range h).2]

/-- The mantissa's top bit is 1 (R242). -/
theorem encodeRate_normal : (encodeRate r).getLsbD 63 = true := by
  have top : ((encodeRate r).extractLsb' 0 64).msb = true := by
    rw [BitVec.msb_eq_decide, encodeRate_mantissa h]
    exact decide_eq_true (mantissa_range h).1
  rw [BitVec.msb_eq_getLsbD_last, BitVec.getLsbD_extractLsb'] at top
  exact top

/-- The 80 bits as a number: the exponent above the mantissa (R113, R245). -/
theorem encodeRate_toNat : (encodeRate r).toNat =
    (16383 + Nat.log2 r.toNat) * 2 ^ 64 + r.toNat * 2 ^ (63 - Nat.log2 r.toNat) := by
  have := rate_log2_lt h
  rw [encodeRate_eq h, packExt80_toNat, BitVec.toNat_ofNat, BitVec.toNat_ofNat, Nat.mod_eq_of_lt (by omega),
    Nat.mod_eq_of_lt (mantissa_range h).2]

end Rate

/-- The pattern grows with the rate: with the exponent, and at one exponent with the mantissa. -/
theorem encodeRate_lt {r1 r2 : Word} (h : r1.toNat < r2.toNat) : (encodeRate r1).toNat < (encodeRate r2).toNat := by
  have pos2 : r2 ≠ 0#32 := by rintro rfl; exact Nat.not_lt_zero _ h
  obtain ⟨lo2, hi2⟩ := mantissa_range pos2
  by_cases zero : r1 = 0#32
  · have least : encodeRate r1 = 0#80 := if_pos zero
    rw [least, encodeRate_toNat pos2, BitVec.toNat_ofNat]
    omega
  · obtain ⟨lo1, hi1⟩ := mantissa_range zero
    have exponents : Nat.log2 r1.toNat ≤ Nat.log2 r2.toNat :=
      (Nat.le_log2 (rate_pos pos2).ne').2 ((Nat.log2_self_le (rate_pos zero).ne').trans h.le)
    rw [encodeRate_toNat zero, encodeRate_toNat pos2]
    rcases exponents.lt_or_eq with lower | same
    · omega
    · rw [same]
      exact Nat.add_lt_add_left (Nat.mul_lt_mul_of_pos_right h (Nat.two_pow_pos _)) _

/-! ### The command (R265) -/

/-- What ENCODE_RATE leaves. -/
theorem exec_encodeRate (g : BitVec 24) (s : State) :
    ∃ t, exec (.encodeRate g) s = .next t ∧
      t.regs = endedRegs (g ++ 0x04#8) 0x01#5 0#16 0#32 { s.regs with ext80 := encodeRate s.regs.rate } ∧
      keepsRest s t :=
  ⟨_, rfl, beginCommand_finish (g ++ 0x04#8) { s.regs with ext80 := encodeRate s.regs.rate },
    (exec_command_frame (i := .encodeRate g) rfl rfl).keepsRest fun _ => nofun⟩

theorem exec_encodeRate_ext80 {g : BitVec 24} {s t : State} (h : exec (.encodeRate g) s = .next t) :
    t.regs.ext80 = encodeRate s.regs.rate := by
  rw [exec_encodeRate_cases h]
  rfl

/-! ### The statements -/

/-- Settles O52: `encodeRate_eq`, with the range of the logarithm and the mantissa's top bit. -/
theorem encodeRateNormalizes : Obligations.EncodeRateNormalizes := by
  unfold Obligations.EncodeRateNormalizes
  intro s g h
  have bound := rate_log2_lt h
  obtain ⟨t, run, regs, rest⟩ := exec_encodeRate g s
  refine ⟨by omega, by omega, t, run, ?_, ?_, rest⟩
  · rw [regs, encodeRate_eq h, packExt80]
  · rw [exec_encodeRate_ext80 run]
    exact encodeRate_normal h

/-- Settles O53: the first branch of `encodeRate`. -/
theorem encodeRateZero : Obligations.EncodeRateZero := by
  unfold Obligations.EncodeRateZero
  intro s g zero
  obtain ⟨t, run, regs, rest⟩ := exec_encodeRate g s
  rw [show encodeRate s.regs.rate = 0#80 from if_pos zero] at regs
  exact ⟨t, run, regs, rest⟩

/-- Settles O54: the two fields as `encodeRate_mantissa` and `encodeRate_exponent` give them. -/
theorem encodedRateIsExact : Obligations.EncodedRateIsExact := by
  unfold Obligations.EncodedRateIsExact
  intro s t g run h
  rw [exec_encodeRate_ext80 run, encodeRate_mantissa h, encodeRate_exponent h, Nat.add_sub_add_left]

/-- Settles O55: `encodeRate_lt`. -/
theorem encodedRatesKeepOrder : Obligations.EncodedRatesKeepOrder := by
  unfold Obligations.EncodedRatesKeepOrder
  intro s1 s2 t1 t2 g1 g2 run1 run2 h
  rw [exec_encodeRate_ext80 run1, exec_encodeRate_ext80 run2]
  exact encodeRate_lt h

end Sys2Proof.Machine
end

section
/-! A command reads nothing but its operands (spec/44_host_commands.md R269): the same command from two states that
agree on them. -/

namespace Sys2Proof.Machine

section Congr

variable {s1 s2 t1 t2 : State} {g1 g2 : BitVec 24}

/-- VALIDATE reads the validator's answer (R262). -/
theorem exec_validate_congr (hv : validate s1 = validate s2) (h1 : exec (.validate g1) s1 = .next t1)
    (h2 : exec (.validate g2) s2 = .next t2) :
    t1.regs.status = t2.regs.status ∧ t1.regs.error = t2.regs.error ∧ t1.regs.errInfo = t2.regs.errInfo ∧
      t1.regs.blockCount = t2.regs.blockCount := by
  cases ha : validate s1 with
  | error e =>
    cases h1.symm.trans (execValidate_error g1 ha)
    cases h2.symm.trans (execValidate_error g2 (hv.symm.trans ha))
    exact ⟨rfl, rfl, rfl, rfl⟩
  | ok n =>
    cases h1.symm.trans (execValidate_ok g1 ha)
    cases h2.symm.trans (execValidate_ok g2 (hv.symm.trans ha))
    exact ⟨rfl, rfl, rfl, rfl⟩

/-- ENCODE_RATE reads RATE (R265). -/
theorem exec_encodeRate_congr (hr : s1.regs.rate = s2.regs.rate) (h1 : exec (.encodeRate g1) s1 = .next t1)
    (h2 : exec (.encodeRate g2) s2 = .next t2) :
    t1.regs.status = t2.regs.status ∧ t1.regs.error = t2.regs.error ∧ t1.regs.errInfo = t2.regs.errInfo ∧
      t1.regs.ext80 = t2.regs.ext80 := by
  obtain rfl := exec_encodeRate_cases h1
  obtain rfl := exec_encodeRate_cases h2
  exact ⟨rfl, rfl, rfl, congrArg encodeRate hr⟩

/-- Two states with the same operands of a CONVERT end it alike (R263). -/
theorem exec_convert_sameEnding (same : SameOperands s1 s2) (h1 : exec (.convert g1) s1 = .next t1)
    (h2 : exec (.convert g2) s2 = .next t2) :
    ∃ e, ConvertEnds s1 e ∧ ConvertLeaves g1 s1 e t1 ∧ ConvertLeaves g2 s2 e t2 := by
  obtain ⟨e, conv, leaves⟩ := exec_convert_cases h1
  obtain ⟨e', conv', leaves'⟩ := exec_convert_cases h2
  cases conv.unique (conv'.congr same)
  exact ⟨e, conv, leaves, leaves'⟩

/-- The four lengths of one ending are the same where no free value stands (log 10). -/
theorem Ending.regs_lengths_congr {e : Ending} (conv : ConvertEnds s1 e) {d1 d2 : Nat}
    (h : d1 = d2 ∨ e.status.getLsbD 1 = true ∨ streamLength s1 e.rounds < 2 ^ 32) (r1 r2 : Regs) :
    (e.regs g1 d1 r1).sampleCount = (e.regs g2 d2 r2).sampleCount ∧
      (e.regs g1 d1 r1).baseLoopLen = (e.regs g2 d2 r2).baseLoopLen ∧
      (e.regs g1 d1 r1).loopStart = (e.regs g2 d2 r2).loopStart ∧
      (e.regs g1 d1 r1).loopLen = (e.regs g2 d2 r2).loopLen := by
  rcases h with rfl | fits
  · exact ⟨rfl, rfl, rfl, rfl⟩
  · obtain ⟨count1, base1, start1, len1⟩ := Ending.regs_exact conv fits g1 d1 r1
    obtain ⟨count2, base2, start2, len2⟩ := Ending.regs_exact conv fits g2 d2 r2
    exact ⟨count1.trans count2.symm, base1.trans base2.symm, start1.trans start2.symm, len1.trans len2.symm⟩

/-- ROUNDS as a number is the ending's (R45). -/
theorem ConvertLeaves.rounds_toNat {e : Ending} (conv : ConvertEnds s1 e) (l : ConvertLeaves g1 s1 e t1) :
    t1.regs.rounds.toNat = e.rounds := by
  have bound := conv.sound.rounds
  rw [l.regs]
  show (BitVec.ofNat 32 e.rounds).toNat = e.rounds
  rw [BitVec.toNat_ofNat, Nat.mod_eq_of_lt (by omega)]

/-- CONVERT reads the BRR memory, the parameters, IN_LEN and LOOP_OFS (R263). -/
theorem exec_convert_congr (same : SameOperands s1 s2) (h1 : exec (.convert g1) s1 = .next t1)
    (h2 : exec (.convert g2) s2 = .next t2) :
    t1.regs.status = t2.regs.status ∧ t1.regs.error = t2.regs.error ∧ t1.regs.errInfo = t2.regs.errInfo ∧
      t1.regs.blockCount = t2.regs.blockCount ∧ t1.regs.rounds = t2.regs.rounds ∧
      (s1.draw = s2.draw ∨ t1.regs.flag .err = true ∨ streamLength s1 t1.regs.rounds.toNat < 2 ^ 32 →
        t1.regs.sampleCount = t2.regs.sampleCount ∧ t1.regs.baseLoopLen = t2.regs.baseLoopLen ∧
        t1.regs.loopStart = t2.regs.loopStart ∧ t1.regs.loopLen = t2.regs.loopLen) ∧
      (∀ a, s1.draw = s2.draw ∨ (t1.regs.flag .err = false ∧ a < 2 * streamLength s1 t1.regs.rounds.toNat) →
        t1.pcmByte a = t2.pcmByte a) := by
  obtain ⟨e, conv, leaves1, leaves2⟩ := exec_convert_sameEnding same h1 h2
  rw [leaves1.flag, leaves1.rounds_toNat conv, leaves1.regs, leaves2.regs]
  refine ⟨rfl, rfl, rfl, rfl, rfl, fun free => ?_, fun a free => leaves1.pcmByte_congr leaves2 (free.imp_right ?_)⟩
  · exact Ending.regs_lengths_congr conv (free.imp_left (congrArg (· + 1))) _ _
  · rintro ⟨noErr, inside⟩
    rw [(conv.lengths noErr).1]
    exact inside

/-- The decode of a DECODE_BLOCK reads the BRR memory and the block's own operands. -/
theorem State.blockAtOffset_congr (brr : s1.brr = s2.brr) (offset : s1.regs.blkOfs = s2.regs.blkOfs)
    (first : s1.regs.blkFirst = s2.regs.blkFirst) (hist : s1.regs.hist = s2.regs.hist) :
    s1.blockAtOffset = s2.blockAtOffset := by
  simp only [State.blockAtOffset, State.fetchBlock_congr brr, offset, first, Regs.prev, Regs.prev2, hist]

theorem State.raise_flag_err (e : Raise) (s : State) : (s.raise e).regs.flag .err = true := by
  simp [Regs.flag, Flag.bit, Regs.raise_eq]

/-- DECODE_BLOCK reads the BRR memory, the parameters, IN_LEN, BLK_OFS, BLK_CTRL and HIST (R264). -/
theorem exec_decodeBlock_congr (brr : s1.brr = s2.brr) (cap : s1.cap = s2.cap) (inLen : s1.regs.inLen = s2.regs.inLen)
    (offset : s1.regs.blkOfs = s2.regs.blkOfs) (first : s1.regs.blkFirst = s2.regs.blkFirst)
    (hist : s1.regs.hist = s2.regs.hist) (h1 : exec (.decodeBlock g1) s1 = .next t1)
    (h2 : exec (.decodeBlock g2) s2 = .next t2) :
    t1.regs.status = t2.regs.status ∧ t1.regs.error = t2.regs.error ∧ t1.regs.errInfo = t2.regs.errInfo ∧
      (t1.regs.flag .err = false → t1.regs.outBlk = t2.regs.outBlk) ∧ t1.regs.hist = t2.regs.hist := by
  have length : s1.inLen = s2.inLen := congrArg BitVec.toNat inLen
  by_cases oversized : s1.cap.brrCap < s1.inLen
  · cases h1.symm.trans (execDecodeBlock_oversized g1 s1 oversized)
    cases h2.symm.trans (execDecodeBlock_oversized g2 s2 (by rwa [← cap, ← length]))
    exact ⟨rfl, rfl, inLen, fun noErr => absurd ((State.raise_flag_err ..).symm.trans noErr) (by decide), hist⟩
  by_cases outside : s1.inLen < s1.regs.blkOfs.toNat + 9
  · cases h1.symm.trans (execDecodeBlock_outside g1 s1 (Nat.le_of_not_lt oversized) outside)
    cases h2.symm.trans (execDecodeBlock_outside g2 s2 (by rw [← cap, ← length]; exact Nat.le_of_not_lt oversized)
      (by rwa [← offset, ← length]))
    exact ⟨rfl, rfl, offset, fun noErr => absurd ((State.raise_flag_err ..).symm.trans noErr) (by decide), hist⟩
  · obtain ⟨u1, run1, samples1, regs1, -⟩ :=
      exec_decodeBlock_inside g1 (Nat.le_of_not_lt oversized) (Nat.le_of_not_lt outside)
    obtain ⟨u2, run2, samples2, regs2, -⟩ := exec_decodeBlock_inside (s := s2) g2
      (by rw [← cap, ← length]; exact Nat.le_of_not_lt oversized)
      (by rw [← offset, ← length]; exact Nat.le_of_not_lt outside)
    cases h1.symm.trans run1
    cases h2.symm.trans run2
    have block := State.blockAtOffset_congr brr offset first hist
    have outBlk : t1.regs.outBlk = t2.regs.outBlk :=
      Vector.ext fun k hk => by rw [samples1 k hk, samples2 k hk, block]
    rw [block] at regs1
    refine ⟨?_, ?_, ?_, fun _ => outBlk, ?_⟩ <;>
      · rw [regs1, regs2]
        rfl

end Congr

/-! ### The statement -/

/-- Settles O51: one congruence for each command. -/
theorem commandsReadOnlyTheirOperands : Obligations.CommandsReadOnlyTheirOperands := by
  unfold Obligations.CommandsReadOnlyTheirOperands
  intro s1 s2 g1 g2 brr cap inLen
  exact ⟨fun t1 t2 => exec_validate_congr (validate_congr brr cap inLen),
    fun t1 t2 loopOfs => exec_convert_congr ⟨brr.symm, cap.symm, inLen.symm, loopOfs.symm⟩,
    fun t1 t2 => exec_decodeBlock_congr brr cap inLen,
    fun t1 t2 => exec_encodeRate_congr⟩

end Sys2Proof.Machine
end
